-- ==== Sys2Proof/Word.lean ====
section
/-!
DEFINITION. The widths of the hardware: a register or bus word is 32 bits, a quantized sample or memory byte 8 bits,
a lane of the packed adder 16 bits (spec 00_scope.md R6, R7; 42_packed.md R131).
-/
namespace Sys2Proof

/-- A register or bus word (R20: every register is 32 bits wide). -/
abbrev Word := BitVec 32

/-- A memory byte, or a quantized sample (`SAMPLE_W` = 8, R6). -/
abbrev Byte := BitVec 8

/-- A widened lane of the packed datapath (R131). -/
abbrev Half := BitVec 16

end Sys2Proof
end

