-- ==== Sys2Proof/Config.lean ====
section
/-!
DEFINITION. What is fixed for one machine: the parameters the spec leaves to the implementation or the platform
(00_scope.md R6, 92_eei_decisions.md D13, D14, D27, D36; 93_implementation_defined.md I18, I19), as plain data, and
the one free value. Each step reads the parameters from the state's field `cfg` and none changes them, so a
statement about every state holds for every value of every parameter.
-/
namespace Sys2Proof

/-- What the platform says of a region of the memory space other than "plain memory that answers OKAY".
DESIGN CHOICE (log 11): PLAIN_MEM and the ERROR responses are data, by address and direction. -/
inductive RegionKind where
  /-- memory with read side effects, such as a device FIFO: not plain (R59). -/
  | device
  /-- reads by the block get ERROR (R55, R68). -/
  | refusesReads
  /-- writes by the block get ERROR (R55, R68). -/
  | refusesWrites
deriving DecidableEq, Repr

/-- A region `[base, base + size)` of the memory space with its kind. -/
structure Region where
  base : Nat
  size : Nat
  kind : RegionKind
deriving DecidableEq, Repr

/-- The implementation parameters (R6) and the platform's memory map. -/
structure Config where
  /-- `HAS_PACKED`: the packed four-lane datapath is present. -/
  hasPacked : Bool
  /-- `ADDR_W`, 1 to 32: width of the byte addresses of the memory master port. -/
  addrW : Nat
  /-- `BASE`: address of the register window in the host's address map. -/
  base : Nat
  /-- `COHERENT`: the memory port sees every completed host store with no cache maintenance. -/
  coherent : Bool
  /-- Regions that are not plain memory or that answer ERROR. -/
  map : List Region
deriving DecidableEq, Repr

/-- The reference configuration of R6: `HAS_PACKED = true`, `ADDR_W = 32`, `COHERENT = true`. `BASE` is OPEN and 0 here,
and all memory is plain and answers OKAY (95_test_vectors.md's convention): DESIGN CHOICE (log 1, log 11), unsafe only
for a statement about the one run from reset. -/
def Config.reference : Config :=
  { hasPacked := true, addrW := 32, base := 0, coherent := true, map := [] }

/-- R6: `ADDR_W` lies in 1..32. -/
def Config.wf (c : Config) : Bool := decide (1 ≤ c.addrW) && decide (c.addrW ≤ 32)

/-- FREE VALUE (log 7): the byte the `n`-th free draw gives at address `a`. It has no body, so nothing can be proved of
its value: a statement that holds of it holds for every byte. It stands for each byte the spec gives no value: an
output byte after a MemError (R168, I8) or after a reset during MULTIPLY (R179, I9), and what an agent sees
through a cache that has not been maintained (R65). -/
opaque Config.freeByte (n : Nat) (a : Nat) : Byte

end Sys2Proof
end

