-- ==== Sys2Proof/Syntax.lean ====
section
/-!
DEFINITION. The commands of the block: one constructor per row of spec/opcode_table.json (30_encoding.md R73).
No command carries an operand: every operand comes from a fixed register (R72).
-/
namespace Sys2Proof

/-- A command (30_encoding.md R73). -/
inductive Instr where
  /-- NOP (43_bulk.md R148). -/
  | nop
  /-- DHMUL (40_rescaler.md R103). -/
  | dhmul
  /-- RDPOT (40_rescaler.md R107). -/
  | rdpot
  /-- RESCALE (40_rescaler.md R109). -/
  | rescale
  /-- CORRECT (41_element.md R121). -/
  | correct
  /-- CLAMP (41_element.md R123). -/
  | clamp
  /-- NARROW (41_element.md R125). -/
  | narrow
  /-- XFORM (41_element.md R127). -/
  | xform
  /-- XFORM4 (42_packed.md R135). -/
  | xform4
  /-- MULTIPLY (43_bulk.md R140). -/
  | multiply
deriving DecidableEq, Repr

end Sys2Proof
end

