-- ==== Sys2Proof/WellFormed.lean ====
section
/-!
DEFINITION. Which commands an implementation has. Commands carry no fields, so the one check is that XFORM4 exists only
when the packed datapath is present (30_encoding.md R76, 42_packed.md R135).
-/
namespace Sys2Proof

/-- `i` is a command of an implementation whose parameter `HAS_PACKED` is `hasPacked`. -/
def Instr.wellFormed (hasPacked : Bool) : Instr → Bool
  | .nop => true
  | .dhmul => true
  | .rdpot => true
  | .rescale => true
  | .correct => true
  | .clamp => true
  | .narrow => true
  | .xform => true
  | .xform4 => hasPacked
  | .multiply => true

end Sys2Proof
end

