-- ==== Sys2Proof/Decode.lean ====
section
/-!
DEFINITION. Decoding a command word written to CMD (30_encoding.md R70-R78), and the encoder. Decoding is total: every
32-bit word selects one command or is illegal for a named reason. It depends on no register, only on `HAS_PACKED` (R78).
-/
namespace Sys2Proof

/-- Why a command word is illegal. -/
inductive DecodeError where
  /-- `w[31:8] != 0` (R74). -/
  | reservedBits
  /-- the OP field is 0x07, 0x0A-0x0F or 0x11-0xFF (R75). -/
  | unassignedOpcode
  /-- OP = 0x09 without the packed datapath (R76). -/
  | noPackedDatapath
deriving DecidableEq, Repr

/-- The OP field, `w[7:0]` (R71). -/
def opField (w : Word) : Byte := w.extractLsb' 0 8

/-- The RSVD field, `w[31:8]` (R71). -/
def rsvdField (w : Word) : BitVec 24 := w.extractLsb' 8 24

/-- The case split of R78 on the OP field. -/
def decodeOp (hasPacked : Bool) (op : Byte) : Except DecodeError Instr :=
  if op = 0x00 then .ok .nop
  else if op = 0x01 then .ok .dhmul
  else if op = 0x02 then .ok .rdpot
  else if op = 0x03 then .ok .rescale
  else if op = 0x04 then .ok .correct
  else if op = 0x05 then .ok .clamp
  else if op = 0x06 then .ok .narrow
  else if op = 0x08 then .ok .xform
  else if op = 0x09 then (if hasPacked then .ok .xform4 else .error .noPackedDatapath)
  else if op = 0x10 then .ok .multiply
  else .error .unassignedOpcode

/-- R78: the reserved bits are looked at first, then the opcode. -/
def decode (hasPacked : Bool) (w : Word) : Except DecodeError Instr :=
  if rsvdField w ≠ 0 then .error .reservedBits else decodeOp hasPacked (opField w)

/-- The opcode of each command (R73, spec/opcode_table.json). -/
def Instr.opcode : Instr → Byte
  | .nop => 0x00
  | .dhmul => 0x01
  | .rdpot => 0x02
  | .rescale => 0x03
  | .correct => 0x04
  | .clamp => 0x05
  | .narrow => 0x06
  | .xform => 0x08
  | .xform4 => 0x09
  | .multiply => 0x10

/-- The command word: RSVD zero, then OP (R71, R80: `zext_32(OP)`). -/
def encode (i : Instr) : Word := (0 : BitVec 24) ++ i.opcode

/-- The command my decoder reads from a row of spec/opcode_table.json: the word has `nbits` = 32 bits, all of them in the
one CMD write (R70); XFORM4 is read as the reference configuration reads it, with `HAS_PACKED = true` (log 1). -/
def decodeTableWord (nbits w : Nat) : Option Instr :=
  match decode true (BitVec.ofNat 32 (w % 2 ^ nbits)) with
  | .ok i => some i
  | .error _ => none

end Sys2Proof
end

