-- ==== Sys2Proof/Machine/State.lean ====
section
/-!
DEFINITION. The state of the machine as plain data: the block's registers (10_state.md R20), the memory shared with the
host (20_memory.md R50), the input rst_n, the host's remaining operations and what it was last answered, and the record
of faults (60_exceptions.md R160). INVENTORY.md lists every field with its rule and its reset value.
-/
namespace Sys2Proof.Machine

/-- The reason of a contract violation (60_exceptions.md R170). -/
inductive Violation where
  /-- the shift is not in [-31, 31] (R105). -/
  | shiftRange
  /-- a left shift leaves the 32-bit range (R106). -/
  | shiftOverflow
  /-- `sample + offset` leaves the 32-bit range (R120). -/
  | correctOverflow
  /-- `lo > hi` (R122, R126 (c)). -/
  | clampBounds
  /-- IN1_OFF or IN2_OFF not in [-128, 127] (R126 (a), (b)). -/
  | offsetRange
  /-- OUT_MIN or OUT_MAX not in [-128, 127] (R126 (d)). -/
  | clampRange
  /-- `Rescale(...) + OUT_OFF` leaves the 32-bit range (R126 (g)). -/
  | outOffsetOverflow
  /-- a buffer passes `2^ADDR_W` (R60). -/
  | addressOverflow
  /-- the output range meets an input range (R61). -/
  | outputAliasesInput
  /-- a buffer byte is not plain memory (R59). -/
  | deviceBuffer
deriving DecidableEq, Repr

/-- The fault type of 60_exceptions.md R161. Four of the five are errors after which the hardware goes on: the machine
takes a next state and the fault is kept in `State.faults` (log 4). Only a contract violation ends a step in
`Outcome.fault`. -/
inductive Fault where
  /-- Code 1, recorded by a CMD write that decodes as no command (R166). Never ends a step. Exact. -/
  | illegalCommand (w : Word)
  /-- Code 2, recorded by MULTIPLY on an ERROR response at `addr` (R168). Never ends a step. Safe: the output range is free. -/
  | memError (addr : Word)
  /-- Code 3, recorded by a register access that is not 32 bits wide or not aligned (R169). Never ends a step. Exact. -/
  | regAccessError (off : Byte)
  /-- Code 4, raised by a command whose precondition the host broke (R170): the step ends here. Safe: the hardware's
  behaviour is undefined and it may not even answer (R171, log 5). -/
  | contractViolation (reason : Violation)
  /-- Code 5, recorded by rst_n falling while a MULTIPLY runs (R179). Never ends a step. Safe: the output range is free. -/
  | resetDuringCommand
deriving DecidableEq, Repr

/-- What the model gives no meaning. None is raised by a command. -/
inductive Refusal where
  /-- An instruction with no meaning yet; no arm of exec answers with it. Safe. -/
  | notModelled (mnemonic : String)
  /-- The host's register access addresses something other than this block's window (log 13). Raised by the access. Safe. -/
  | notThisBlock (addr : Nat)
  /-- The host's memory access is outside the `2^ADDR_W` bytes shared with the block (R50, log 15). Safe. -/
  | hostOutsideMemory (addr : Nat)
  /-- The host's memory access goes to a device region, whose behaviour the spec does not give (R59, log 15). Safe. -/
  | hostDeviceAccess (addr : Nat)
deriving DecidableEq, Repr

/-- The registers of the window (10_state.md R24), by name. -/
inductive RegName where
  | id | cap | ctrl | status | cmd | res | opa | opb | opc
  | in1Off | in2Off | outOff | outMult | outShift | outMin | outMax
  | src1 | src2 | dst | count
deriving DecidableEq, Repr

/-- The seven parameter registers (10_state.md R35-R39). -/
structure Params where
  in1Off : Word
  in2Off : Word
  outOff : Word
  outMult : Word
  outShift : Word
  outMin : Word
  outMax : Word
deriving DecidableEq, Repr

/-- What the host can do to the machine (70_reset_and_hazards.md R188, R178, R179; 20_memory.md R65): the elements of the
host's program. -/
inductive HostOp where
  /-- read `width` bits at a host address. -/
  | regRead (addr : Nat) (width : Nat)
  /-- write `width` bits at a host address. -/
  | regWrite (addr : Nat) (width : Nat) (data : Word)
  /-- a completed store of one byte to the shared memory. -/
  | memStore (addr : Nat) (b : Byte)
  /-- a load of one byte from the shared memory. -/
  | memLoad (addr : Nat)
  /-- clean the host's data cache over `[base, base + size)`. -/
  | cacheClean (base size : Nat)
  /-- invalidate the host's data cache over `[base, base + size)`. -/
  | cacheInvalidate (base size : Nat)
  /-- rst_n falls between accesses. -/
  | assertReset
  /-- rst_n rises. -/
  | releaseReset
  /-- the host writes MULTIPLY to CMD, and rst_n falls while it runs. -/
  | multiplyCutByReset
deriving DecidableEq, Repr

/-- The two responses of the register port (10_state.md R25). -/
inductive Response where
  | okay
  | error
deriving DecidableEq, Repr

/-- What the host was answered (log 3). -/
inductive Answer where
  /-- the response to a register write. -/
  | written (r : Response)
  /-- the response to a register read, with its data. -/
  | readData (r : Response) (data : Word)
  /-- the byte a memory load returned. -/
  | loaded (b : Byte)
  /-- a store or a cache operation is complete. -/
  | done
deriving DecidableEq, Repr

/-- Memory in its canonical form: (address, byte) pairs, addresses strictly rising, no byte equal to what an unlisted
address reads as. -/
abbrev Memory := List Host.Cell

/-- The whole machine. -/
structure State where
  /-- the parameters (R6); no step changes them. -/
  cfg : Config
  /-- CTRL (R30). -/
  ctrl : Word
  /-- STATUS (R33). -/
  status : Word
  /-- RES (R23). -/
  res : Word
  /-- OPA (R21). -/
  opa : Word
  /-- OPB (R21). -/
  opb : Word
  /-- OPC (R21). -/
  opc : Word
  /-- IN1_OFF to OUT_MAX (R35-R39). -/
  params : Params
  /-- SRC1 (R40). -/
  src1 : Word
  /-- SRC2 (R40). -/
  src2 : Word
  /-- DST (R40). -/
  dst : Word
  /-- COUNT (R41). -/
  count : Word
  /-- memory as the block's port sees it (R50). -/
  mem : Memory
  /-- the input rst_n is 0 (R178). -/
  rstLow : Bool
  /-- the host's operations still to perform, first one first (R187). -/
  pending : List HostOp
  /-- the command index: register-port accesses answered (R22). -/
  ci : Nat
  /-- the answer to the host's last operation; none before the first, and where none is given. -/
  answer : Option Answer
  /-- the host's last access to the register port got no answer (R178, R179): the run has not ended (R187; log 22). -/
  lost : Bool
  /-- the faults recorded so far, oldest first (R160). -/
  faults : List Fault
  /-- host stores not yet cleaned, when COHERENT = false (R65, log 14). -/
  unclean : List Host.Cell
  /-- ranges `(base, size)` a MULTIPLY wrote and the host has neither invalidated nor stored to since, when
  COHERENT = false (R65, log 14). -/
  stale : List (Nat × Nat)
  /-- how many free draws have been made (log 7). -/
  fresh : Nat
deriving DecidableEq, Repr

/-- The parameter registers at reset (R45). -/
def Params.reset : Params :=
  { in1Off := 0, in2Off := 0, outOff := 0, outMult := 0, outShift := 0, outMin := 0, outMax := 0 }

/-- CTRL at reset: 1 when `HAS_PACKED`, otherwise 0 (R30, R45). -/
def Config.ctrlReset (c : Config) : Word := if c.hasPacked then 1 else 0

/-- The machine right after reset in the configuration `c`: R45 for the registers, nothing listed in memory, rst_n
released, the host with nothing to do (log 2). -/
def State.resetOf (c : Config) : State :=
  { cfg := c, ctrl := Config.ctrlReset c, status := 0, res := 0, opa := 0, opb := 0, opc := 0,
    params := Params.reset, src1 := 0, src2 := 0, dst := 0, count := 0,
    mem := [], rstLow := false, pending := [], ci := 0, answer := none, lost := false, faults := [],
    unclean := [], stale := [], fresh := 0 }

/-- The machine right after reset, in the reference configuration (R6, R45, R178). -/
def State.reset : State := State.resetOf Config.reference

end Sys2Proof.Machine
end

