-- ==== Sys2Proof/Machine/Arith.lean ====
section
/-!
DEFINITION. The arithmetic primitives of 00_scope.md R7 and R9, over the integers, and the narrowings to bit vectors.
-/
namespace Sys2Proof.Machine

/-- INT32_MIN (R7). -/
abbrev int32Min : Int := -2147483648

/-- INT32_MAX (R7). -/
abbrev int32Max : Int := 2147483647

/-- INT8_MIN (R7). -/
abbrev int8Min : Int := -128

/-- INT8_MAX (R7). -/
abbrev int8Max : Int := 127

/-- `v` lies in the signed 32-bit range. -/
def fits32 (v : Int) : Bool := decide (int32Min ≤ v) && decide (v ≤ int32Max)

/-- `v` lies in the range of the sample type. -/
def fits8 (v : Int) : Bool := decide (int8Min ≤ v) && decide (v ≤ int8Max)

/-- `bits32(v)`: the 32-bit two's-complement word of `v` (R7). -/
def bits32 (v : Int) : Word := BitVec.ofInt 32 v

/-- `bits8(v)`: the 8-bit two's-complement vector of `v` (R7). -/
def bits8 (v : Int) : Byte := BitVec.ofInt 8 v

/-- `sign(n)`: -1 when `n < 0`, otherwise +1 (R9). -/
def signOf (n : Int) : Int := if n < 0 then -1 else 1

/-- `RHAZ(n, k)`: `n / 2^k` rounded to the nearest integer, ties away from zero (R9). -/
def rhaz (n : Int) (k : Nat) : Int :=
  if k = 0 then n else signOf n * (((n.natAbs + 2 ^ (k - 1)) / 2 ^ k : Nat) : Int)

/-- `CLAMP(v, lo, hi) = min(max(v, lo), hi)` (R9). -/
def clampTo (v lo hi : Int) : Int := min (max v lo) hi

/-- `SAT32(x)` (R9). -/
def sat32 (x : Int) : Int := min (max x int32Min) int32Max

end Sys2Proof.Machine
end

