-- ==== Sys2Proof/Machine/Flags.lean ====
section
/-!
DEFINITION. The status bits. The block has no condition codes (10_state.md R44): its only flags are the two sticky bits of
STATUS (R33), set by the errors of 60_exceptions.md R165 and cleared by writing 1 to them (R34).
-/
namespace Sys2Proof.Machine

/-- STATUS.ILLEGAL, bit 0 (R33). -/
def statusIllegal : Word := 1

/-- STATUS.MEMERR, bit 1 (R33). -/
def statusMemErr : Word := 2

/-- The bits of STATUS that exist; 31:2 are RAZ/WI (R33). -/
def statusMask : Word := 3

/-- The cause code of a fault (60_exceptions.md R161). -/
def faultCode : Fault → Nat
  | .illegalCommand _ => 1
  | .memError _ => 2
  | .regAccessError _ => 3
  | .contractViolation _ => 4
  | .resetDuringCommand => 5

/-- The STATUS bit that a fault sets: only the two the hardware records set one (R33, R160). -/
def statusBit : Fault → Word
  | .illegalCommand _ => statusIllegal
  | .memError _ => statusMemErr
  | .regAccessError _ => 0
  | .contractViolation _ => 0
  | .resetDuringCommand => 0

/-- STATUS after a write of `w` to it: each existing bit for which `w` holds a 1 is cleared (R34). -/
def statusAfterWrite (status w : Word) : Word := status &&& ~~~(w &&& statusMask)

end Sys2Proof.Machine
end

