-- ==== Sys2Proof/Machine/Ops.lean ====
section
/-!
DEFINITION. The named operations every meaning goes through: bytes and multi-byte values of memory (20_memory.md), the
platform's map, the registers of the window (10_state.md R24-R34, R40), entering an error (60_exceptions.md R165) and the
return from one (R173), contract violations, and reset (70_reset_and_hazards.md R178).
-/
namespace Sys2Proof.Machine

/-! Memory -/

/-- What an address that memory does not list reads as. DESIGN CHOICE (log 10), unsafe: the spec gives memory no contents
at reset. -/
def Memory.unlisted : Byte := 0

/-- The byte at address `a`. -/
def Memory.read : Memory → Nat → Byte
  | [], _ => Memory.unlisted
  | (x, v) :: m, a => if x = a then v else Memory.read m a

/-- `(a, b)` in front of `m`, or only `m` when an unlisted address reads as `b`. -/
def Memory.put (a : Nat) (b : Byte) (m : Memory) : Memory :=
  if b = Memory.unlisted then m else (a, b) :: m

/-- Memory with the byte at address `a` set to `b`, in canonical form. -/
def Memory.write : Memory → Nat → Byte → Memory
  | [], a, b => Memory.put a b []
  | (x, v) :: m, a, b =>
    if a < x then Memory.put a b ((x, v) :: m)
    else if a = x then Memory.put a b m
    else (x, v) :: Memory.write m a b

/-- The canonical form from address `lo` up: addresses strictly rising, no byte equal to an unlisted one. -/
def Memory.wfFrom : Nat → Memory → Bool
  | _, [] => true
  | lo, (x, v) :: m => decide (lo ≤ x) && decide (v ≠ Memory.unlisted) && Memory.wfFrom (x + 1) m

/-- Memory is in its canonical form. -/
def Memory.wf (m : Memory) : Bool := Memory.wfFrom 0 m

/-- `MemRead(a, n)`: n bytes, little-endian: `mem[a]` in the low bits (R52). -/
def memRead (m : Memory) (a : Nat) : (n : Nat) → BitVec (8 * n)
  | 0 => 0#0
  | n + 1 => memRead m (a + 1) n ++ Memory.read m a

/-- `MemWrite(a, n, v)`: `mem[a + j] <- v[8j+7:8j]` for each j below n (R52). -/
def memWrite {w : Nat} (m : Memory) (a : Nat) (v : BitVec w) : (n : Nat) → Memory
  | 0 => m
  | n + 1 => Memory.write (memWrite m a v n) (a + n) (v.extractLsb' (8 * n) 8)

/-- Memory with every byte of `[a, a + n)` free (log 6, log 7, log 8): the bytes of draw number `draw`. -/
def memFree (m : Memory) (a draw : Nat) : (n : Nat) → Memory
  | 0 => m
  | n + 1 => Memory.write (memFree m a draw n) (a + n) (Config.freeByte draw (a + n))

/-! The platform (log 11) -/

/-- The size of the memory space, `2^ADDR_W` bytes (R50). -/
def memSize (c : Config) : Nat := 2 ^ c.addrW

/-- `[a, a + n)` and `[b, b + k)` share an address. -/
def rangesMeet (a n b k : Nat) : Bool :=
  decide (0 < n) && decide (0 < k) && decide (a < b + k) && decide (b < a + n)

/-- Some region of the given kind meets `[a, a + n)`. -/
def mapMeets (c : Config) (kind : RegionKind) (a n : Nat) : Bool :=
  c.map.any fun r => decide (r.kind = kind) && rangesMeet r.base r.size a n

/-- Every byte of `[a, a + n)` is side-effect-free memory: `PLAIN_MEM` (R59, D13). -/
def plainMem (c : Config) (a n : Nat) : Bool := !mapMeets c .device a n

/-- A read access of the block over `[a, a + n)` gets ERROR (R55, R68). -/
def readRefused (c : Config) (a n : Nat) : Bool := mapMeets c .refusesReads a n

/-- A write access of the block over `[a, a + n)` gets ERROR (R55, R68). -/
def writeRefused (c : Config) (a n : Nat) : Bool := mapMeets c .refusesWrites a n

/-- The byte offset of a host address in the block's 256-byte window, if it lies there (R24, R46). -/
def windowOffset (c : Config) (addr : Nat) : Option Byte :=
  if c.base ≤ addr ∧ addr < c.base + 256 then some (BitVec.ofNat 8 (addr - c.base)) else none

/-! The registers -/

/-- The offset of a register, `off(NAME)` of R80 (the table of R24). -/
def regOffset : RegName → Byte
  | .id => 0x00
  | .cap => 0x04
  | .ctrl => 0x08
  | .status => 0x0C
  | .cmd => 0x10
  | .res => 0x14
  | .opa => 0x18
  | .opb => 0x1C
  | .opc => 0x20
  | .in1Off => 0x40
  | .in2Off => 0x44
  | .outOff => 0x48
  | .outMult => 0x4C
  | .outShift => 0x50
  | .outMin => 0x54
  | .outMax => 0x58
  | .src1 => 0x60
  | .src2 => 0x64
  | .dst => 0x68
  | .count => 0x6C

/-- The registers of the window. -/
def allRegs : List RegName :=
  [.id, .cap, .ctrl, .status, .cmd, .res, .opa, .opb, .opc, .in1Off, .in2Off, .outOff, .outMult, .outShift, .outMin,
    .outMax, .src1, .src2, .dst, .count]

/-- The register at a byte offset; none at a reserved or unaligned offset (R24, R26). -/
def regAt (off : Byte) : Option RegName := allRegs.find? fun r => decide (regOffset r = off)

/-- ID: TAG "QM", MAJOR 1, MINOR 7 (R31). -/
def idWord : Word := 0x514D0107

/-- CAP: reserved 8, AW 8, LANES 8, reserved 7, PACKED 1, from the top (R32). -/
def capWord (c : Config) : Word :=
  (0 : BitVec 8) ++ BitVec.ofNat 8 c.addrW ++ (4 : BitVec 8) ++ (0 : BitVec 7) ++ BitVec.ofBool c.hasPacked

/-- The bits of CTRL that exist: PACKED_EN, and only when `HAS_PACKED` (R30). -/
def ctrlMask (c : Config) : Word := if c.hasPacked then 1 else 0

/-- The low ADDR_W bits of a descriptor register; the others are RAZ/WI (R40). -/
def addrBits (c : Config) (w : Word) : Word := BitVec.ofNat 32 (w.toNat % memSize c)

/-- The value a legal read of a register returns (R26-R28, R30-R33, R40). ID and CAP are hard-wired and CMD reads zero. -/
def readReg (s : State) : RegName → Word
  | .id => idWord
  | .cap => capWord s.cfg
  | .ctrl => s.ctrl &&& ctrlMask s.cfg
  | .status => s.status &&& statusMask
  | .cmd => 0
  | .res => s.res
  | .opa => s.opa
  | .opb => s.opb
  | .opc => s.opc
  | .in1Off => s.params.in1Off
  | .in2Off => s.params.in2Off
  | .outOff => s.params.outOff
  | .outMult => s.params.outMult
  | .outShift => s.params.outShift
  | .outMin => s.params.outMin
  | .outMax => s.params.outMax
  | .src1 => addrBits s.cfg s.src1
  | .src2 => addrBits s.cfg s.src2
  | .dst => addrBits s.cfg s.dst
  | .count => s.count

/-- The effect of a legal write of `w` to a register other than running a command (R27, R28, R30, R34, R40). -/
def writeReg (s : State) (w : Word) : RegName → State
  | .id => s
  | .cap => s
  | .ctrl => { s with ctrl := w &&& ctrlMask s.cfg }
  | .status => { s with status := statusAfterWrite s.status w }
  | .cmd => s
  | .res => s
  | .opa => { s with opa := w }
  | .opb => { s with opb := w }
  | .opc => { s with opc := w }
  | .in1Off => { s with params := { s.params with in1Off := w } }
  | .in2Off => { s with params := { s.params with in2Off := w } }
  | .outOff => { s with params := { s.params with outOff := w } }
  | .outMult => { s with params := { s.params with outMult := w } }
  | .outShift => { s with params := { s.params with outShift := w } }
  | .outMin => { s with params := { s.params with outMin := w } }
  | .outMax => { s with params := { s.params with outMax := w } }
  | .src1 => { s with src1 := addrBits s.cfg w }
  | .src2 => { s with src2 := addrBits s.cfg w }
  | .dst => { s with dst := addrBits s.cfg w }
  | .count => { s with count := w }

/-- `reg[RES] <- v` (R10). -/
def setRes (s : State) (v : Word) : State := { s with res := v }

/-- Memory replaced. -/
def setMem (s : State) (m : Memory) : State := { s with mem := m }

/-- The answer given to the host. -/
def setAnswer (s : State) (a : Option Answer) : State := { s with answer := a }

/-! Errors and reset -/

/-- Entering an error (R165): its STATUS bit, if it has one, is set in the same step, the fault is recorded, and nothing
else changes. It is the machine's one "exception entry"; there is no trap (R164). -/
def enterError (s : State) (f : Fault) : State :=
  { s with status := s.status ||| statusBit f, faults := s.faults ++ [f] }

/-- `raise ContractViolation(reason)`: the step ends in the fault (R10, R171). -/
def violate (r : Violation) : Host.Outcome State Fault Refusal := .fault (.contractViolation r)

/-- `reg[RES] <- v` when the operation gives a word, the contract violation it raises otherwise. -/
def finish (s : State) : Except Violation Word → Host.Outcome State Fault Refusal
  | .ok v => .next (setRes s v)
  | .error r => violate r

/-- The stale ranges once the block wrote `[a, a + n)`: with COHERENT = false what the host's cache holds there may be old
until the host invalidates it (R65; log 14). -/
def staleAfter (s : State) (a n : Nat) : List (Nat × Nat) :=
  if s.cfg.coherent || decide (n = 0) then s.stale else (a, n) :: s.stale

/-- The range `[a, a + n)` of memory takes free bytes (log 6, log 8), the draw counter advances, and the host's cache may be
old there. -/
def freeRange (s : State) (a n : Nat) : State :=
  { s with mem := memFree s.mem a s.fresh n, fresh := s.fresh + 1, stale := staleAfter s a n }

/-- Every register at its reset value (R45, R178); memory, the host's side and the record of faults are untouched. -/
def resetRegs (s : State) : State :=
  { s with
    ctrl := Config.ctrlReset s.cfg, status := 0, res := 0, opa := 0, opb := 0, opc := 0,
    params := Params.reset, src1 := 0, src2 := 0, dst := 0, count := 0 }

end Sys2Proof.Machine
end

