-- ==== Sys2Proof/Machine/Operands.lean ====
section
/-!
DEFINITION. Operand assembly (30_encoding.md R72): 32-bit operands, 8-bit samples, packed lanes, and the descriptor
operands of MULTIPLY (43_bulk.md R140). No command word carries an operand.
-/
namespace Sys2Proof.Machine

/-- A 32-bit operand: `sint(reg[R])` (R72). -/
def sintOf (w : Word) : Int := w.toInt

/-- Lane j of a word, bits [8j+7:8j] (R53, R130). -/
def laneOf (w : Word) (j : Nat) : Byte := w.extractLsb' (8 * j) 8

/-- The bits of a sample operand: bits 7:0 of its register, 31:8 ignored (R72). -/
def sampleOf (w : Word) : Byte := laneOf w 0

/-- The element count `n = uint(reg[COUNT])` (R41, R140). -/
def countOf (s : State) : Nat := s.count.toNat

/-- The address of `input_1` (R40, R140). -/
def src1Of (s : State) : Nat := (addrBits s.cfg s.src1).toNat

/-- The address of `input_2` (R40, R140). -/
def src2Of (s : State) : Nat := (addrBits s.cfg s.src2).toNat

/-- The address of `output` (R40, R140). -/
def dstOf (s : State) : Nat := (addrBits s.cfg s.dst).toNat

/-- MULTIPLY uses the packed datapath: `HAS_PACKED and reg[CTRL][0] == 1` (R140, R141). -/
def packedOn (s : State) : Bool := s.cfg.hasPacked && s.ctrl.getLsbD 0

/-- The number of packed groups `g` (R141). -/
def groupsOf (s : State) : Nat := if packedOn s then countOf s / 4 else 0

end Sys2Proof.Machine
end

