-- ==== Sys2Proof/Machine/Rescaler.lean ====
section
/-!
DEFINITION. The Fixed-Point Rescaler (40_rescaler.md): the functions DHMUL, RDPOT and Rescale, and the commands DHMUL,
RDPOT and RESCALE. The tie rule is away from zero in both steps (R9; 90_conflicts.md C4; 93 I3), and a positive shift divides (C2).
-/
namespace Sys2Proof.Machine

/-- The saturating doubling high multiply (R100). -/
def dhmul (a b : Int) : Int := sat32 (rhaz (a * b) 31)

/-- The rounding power-of-two rescale (R104), with its two contract violations (R105, R106). -/
def rdpot (x s : Int) : Except Violation Int :=
  if s < -31 ∨ 31 < s then .error .shiftRange
  else if s = 0 then .ok x
  else if 0 < s then .ok (rhaz x s.toNat)
  else if fits32 (x * 2 ^ (-s).toNat) then .ok (x * 2 ^ (-s).toNat)
  else .error .shiftOverflow

/-- The whole rescaler: step 1, then step 2 on its saturated result (R108). -/
def rescale (v m s : Int) : Except Violation Int := rdpot (dhmul v m) s

/-- DHMUL (R103). -/
def execDhmul (s : State) : Host.Outcome State Fault Refusal :=
  finish s (.ok (bits32 (dhmul (sintOf s.opa) (sintOf s.opb))))

/-- RDPOT (R107). -/
def execRdpot (s : State) : Host.Outcome State Fault Refusal :=
  finish s ((rdpot (sintOf s.opa) (sintOf s.opb)).map bits32)

/-- RESCALE (R109). -/
def execRescale (s : State) : Host.Outcome State Fault Refusal :=
  finish s ((rescale (sintOf s.opa) (sintOf s.opb) (sintOf s.opc)).map bits32)

end Sys2Proof.Machine
end

