-- ==== Sys2Proof/Machine/Element.lean ====
section
/-!
DEFINITION. The scalar element datapath (41_element.md): offset corrector, activation clamp, output narrower and the
element transform, and the commands CORRECT, CLAMP, NARROW and XFORM.
-/
namespace Sys2Proof.Machine

/-- The Offset Corrector (R120). -/
def correct (x k : Int) : Except Violation Int :=
  if fits32 (x + k) then .ok (x + k) else .error .correctOverflow

/-- The Activation Clamp (R122). -/
def clamp (v lo hi : Int) : Except Violation Int :=
  if hi < lo then .error .clampBounds else .ok (clampTo v lo hi)

/-- The output narrower: bits 7:0, sign-extended (R125). -/
def narrow (w : Word) : Word := (sampleOf w).signExtend 32

/-- The preconditions (a) to (e) of R126, those on the parameters alone, in their order: the reason of the first that
fails. -/
def paramViolation (p : Params) : Option Violation :=
  if fits8 (sintOf p.in1Off) = false then some .offsetRange
  else if fits8 (sintOf p.in2Off) = false then some .offsetRange
  else if sintOf p.outMax < sintOf p.outMin then some .clampBounds
  else if sintOf p.outMin < int8Min ∨ int8Max < sintOf p.outMax then some .clampRange
  else if sintOf p.outShift < -31 ∨ 31 < sintOf p.outShift then some .shiftRange
  else none

/-- Multiply, rescale, add the output offset and clamp: the part of the transform that the scalar and the packed path
share (R124 from `p = a * b` on; R133). It checks (e), (f) and (g) of R126. -/
def scaleAndClamp (p : Params) (a b : Int) : Except Violation Int :=
  match rescale (a * b) (sintOf p.outMult) (sintOf p.outShift) with
  | .error r => .error r
  | .ok t =>
    if fits32 (t + sintOf p.outOff) then clamp (t + sintOf p.outOff) (sintOf p.outMin) (sintOf p.outMax)
    else .error .outOffsetOverflow

/-- The Element Transform of two samples (R124). -/
def transform (p : Params) (x y : Byte) : Except Violation Int :=
  match paramViolation p with
  | some r => .error r
  | none =>
    match correct x.toInt (sintOf p.in1Off), correct y.toInt (sintOf p.in2Off) with
    | .ok a, .ok b => scaleAndClamp p a b
    | .error r, _ => .error r
    | .ok _, .error r => .error r

/-- CORRECT (R121). -/
def execCorrect (s : State) : Host.Outcome State Fault Refusal :=
  finish s ((correct (sampleOf s.opa).toInt (sintOf s.opb)).map bits32)

/-- CLAMP (R123). -/
def execClamp (s : State) : Host.Outcome State Fault Refusal :=
  finish s ((clamp (sintOf s.opa) (sintOf s.opb) (sintOf s.opc)).map bits32)

/-- NARROW (R125). -/
def execNarrow (s : State) : Host.Outcome State Fault Refusal :=
  finish s (.ok (narrow s.opa))

/-- XFORM (R127): `sext_32(bits8(c))`. -/
def execXform (s : State) : Host.Outcome State Fault Refusal :=
  finish s ((transform s.params (sampleOf s.opa) (sampleOf s.opb)).map fun c => (bits8 c).signExtend 32)

end Sys2Proof.Machine
end

