-- ==== Sys2Proof/Machine/Packed.lean ====
section
/-!
DEFINITION. The SIMD packed-integer datapath (42_packed.md), stage by stage with the reference pairing of R131, and the
command XFORM4.
-/
namespace Sys2Proof.Machine

/-- One byte sign-extended to a 16-bit lane, `A16_j` (R131). -/
def widen (w : Word) (j : Nat) : Half := (laneOf w j).signExtend 16

/-- The pair `EVEN = {A16_2, A16_0}` (R131). -/
def evenPair (w : Word) : Word := widen w 2 ++ widen w 0

/-- The pair `ODD = {A16_3, A16_1}` (R131). -/
def oddPair (w : Word) : Word := widen w 3 ++ widen w 1

/-- The offset replicated into both halves, `OFFP` (R132). -/
def offPair (k : Word) : Word := k.extractLsb' 0 16 ++ k.extractLsb' 0 16

/-- The dual 16-bit add: each half modulo 2^16, no carry between halves (R132). -/
def dualAdd (x y : Word) : Word :=
  (x.extractLsb' 16 16 + y.extractLsb' 16 16) ++ (x.extractLsb' 0 16 + y.extractLsb' 0 16)

/-- The corrected lane j of input word `w` with offset register `k`, `L_j` (R132): lanes 0 and 2 stand in the halves of
the even sum, lanes 1 and 3 in those of the odd sum. -/
def laneSum (w k : Word) (j : Nat) : Half :=
  match j with
  | 0 => (dualAdd (evenPair w) (offPair k)).extractLsb' 0 16
  | 1 => (dualAdd (oddPair w) (offPair k)).extractLsb' 0 16
  | 2 => (dualAdd (evenPair w) (offPair k)).extractLsb' 16 16
  | _ => (dualAdd (oddPair w) (offPair k)).extractLsb' 16 16

/-- Stages 1 to 3 on lane j, after the checks of R126 for that lane (R133, R135). -/
def packedLane (p : Params) (a b : Word) (j : Nat) : Except Violation Int :=
  match paramViolation p with
  | some r => .error r
  | none => scaleAndClamp p (laneSum a p.in1Off j).toInt (laneSum b p.in2Off j).toInt

/-- PackedTransform (R135): lanes 0 to 3, the first violation in lane order, the four results packed (R134). -/
def packedTransform (p : Params) (a b : Word) : Except Violation Word :=
  match packedLane p a b 0, packedLane p a b 1, packedLane p a b 2, packedLane p a b 3 with
  | .ok c0, .ok c1, .ok c2, .ok c3 => .ok (bits8 c3 ++ bits8 c2 ++ bits8 c1 ++ bits8 c0)
  | .error r, _, _, _ => .error r
  | .ok _, .error r, _, _ => .error r
  | .ok _, .ok _, .error r, _ => .error r
  | .ok _, .ok _, .ok _, .error r => .error r

/-- XFORM4 (R135). Without the packed datapath the word is illegal (R76, R137): decoding already refuses it, and the
meaning enters the same error (log 20). -/
def execXform4 (s : State) : Host.Outcome State Fault Refusal :=
  if s.cfg.hasPacked then finish s (packedTransform s.params s.opa s.opb)
  else .next (enterError s (.illegalCommand 0x00000009))

end Sys2Proof.Machine
end

