-- ==== Sys2Proof/Machine/Bulk.lean ====
section
/-!
DEFINITION. The bulk command and the scalar path (43_bulk.md), and NOP. A whole MULTIPLY is one atomic step in the reference
order: packed groups, then the remainder, each element's reads before its write (20_memory.md R62; log 17).
-/
namespace Sys2Proof.Machine

/-- Why a MULTIPLY does not complete. -/
inductive BulkStop where
  /-- a contract violation. -/
  | contract (r : Violation)
  /-- an ERROR response to the access at this address (R168). -/
  | portError (addr : Nat)
deriving DecidableEq, Repr

/-- MULTIPLY's checks before its first memory access, for n > 0, in their order (R140, R60, R61, R59, R126 (a)-(e)). -/
def bulkViolation (s : State) : Option Violation :=
  let n := countOf s
  if memSize s.cfg < src1Of s + n ∨ memSize s.cfg < src2Of s + n ∨ memSize s.cfg < dstOf s + n then
    some .addressOverflow
  else if rangesMeet (dstOf s) n (src1Of s) n || rangesMeet (dstOf s) n (src2Of s) n then
    some .outputAliasesInput
  else if !(plainMem s.cfg (src1Of s) n && plainMem s.cfg (src2Of s) n && plainMem s.cfg (dstOf s) n) then
    some .deviceBuffer
  else paramViolation s.params

/-- A read access of the block: `n` bytes at `a`, or the ERROR response (R55). -/
def portRead (c : Config) (m : Memory) (a n : Nat) : Except BulkStop (BitVec (8 * n)) :=
  if readRefused c a n then .error (.portError a) else .ok (memRead m a n)

/-- A write access of the block: the low `n` bytes of `v` at `a`, or the ERROR response (R55). -/
def portWrite {w : Nat} (c : Config) (m : Memory) (a n : Nat) (v : BitVec w) : Except BulkStop Memory :=
  if writeRefused c a n then .error (.portError a) else .ok (memWrite m a v n)

/-- PackedGroup(k) (R142): two 4-byte reads, the packed transform, one 4-byte write. -/
def packedGroup (s : State) (k : Nat) (m : Memory) : Except BulkStop Memory :=
  match portRead s.cfg m (src1Of s + 4 * k) 4 with
  | .error e => .error e
  | .ok a =>
    match portRead s.cfg m (src2Of s + 4 * k) 4 with
    | .error e => .error e
    | .ok b =>
      match packedTransform s.params a b with
      | .error r => .error (.contract r)
      | .ok r => portWrite s.cfg m (dstOf s + 4 * k) 4 r

/-- ScalarElement(i) (R143): two 1-byte reads, the transform, one 1-byte write. -/
def scalarElement (s : State) (i : Nat) (m : Memory) : Except BulkStop Memory :=
  match portRead s.cfg m (src1Of s + i) 1 with
  | .error e => .error e
  | .ok x =>
    match portRead s.cfg m (src2Of s + i) 1 with
    | .error e => .error e
    | .ok y =>
      match transform s.params x y with
      | .error r => .error (.contract r)
      | .ok c => portWrite s.cfg m (dstOf s + i) 1 (bits8 c)

/-- `for i in from .. from + count - 1: body(i)`, ending at the first stop (R140). -/
def bulkLoop (body : Nat → Memory → Except BulkStop Memory) : (count start : Nat) → Memory → Except BulkStop Memory
  | 0, _, m => .ok m
  | count + 1, start, m =>
    match body start m with
    | .error e => .error e
    | .ok m' => bulkLoop body count (start + 1) m'

/-- The two loops of MULTIPLY: the packed groups, then the scalar remainder (R140, R141). -/
def bulkLoops (s : State) : Except BulkStop Memory :=
  match bulkLoop (packedGroup s) (groupsOf s) 0 s.mem with
  | .error e => .error e
  | .ok m => bulkLoop (scalarElement s) (countOf s - 4 * groupsOf s) (4 * groupsOf s) m

/-- What a MULTIPLY comes to: the memory it leaves, or why it does not complete. With COUNT = 0 nothing is checked and
nothing is accessed (R144). -/
def bulkResult (s : State) : Except BulkStop Memory :=
  if countOf s = 0 then .ok s.mem
  else
    match bulkViolation s with
    | some r => .error (.contract r)
    | none => bulkLoops s

/-- A MULTIPLY aborted by an ERROR response at `addr` (R168): STATUS.MEMERR is set, RES keeps its value, the fault is
recorded, and the bytes of the output range have no value, so they are free (log 6). -/
def abortBulk (s : State) (addr : Nat) : State :=
  enterError (freeRange s (dstOf s) (countOf s)) (.memError (BitVec.ofNat 32 addr))

/-- Memory after a MULTIPLY that completed is `m`, and with COHERENT = false the host's cache may be old in the output range
(R65; log 14). -/
def putOutput (s : State) (m : Memory) : State :=
  { s with mem := m, stale := staleAfter s (dstOf s) (countOf s) }

/-- MULTIPLY (R140). -/
def execMultiply (s : State) : Host.Outcome State Fault Refusal :=
  match bulkResult s with
  | .ok m => .next (setRes (putOutput s m) 0)
  | .error (.contract r) => violate r
  | .error (.portError a) => .next (abortBulk s a)

/-- NOP (R148): nothing changes. -/
def execNop (s : State) : Host.Outcome State Fault Refusal := .next s

end Sys2Proof.Machine
end

