-- ==== Sys2Proof/Machine/Dispatch.lean ====
section
/-!
DEFINITION. The dispatch: one arm per command, each one direct call of its meaning.
-/
namespace Sys2Proof.Machine
open Sys2Proof

def exec (i : Instr) (s : State) : Host.Outcome State Fault Refusal :=
  match i with
  | .nop => Sys2Proof.Machine.execNop s
  | .dhmul => Sys2Proof.Machine.execDhmul s
  | .rdpot => Sys2Proof.Machine.execRdpot s
  | .rescale => Sys2Proof.Machine.execRescale s
  | .correct => Sys2Proof.Machine.execCorrect s
  | .clamp => Sys2Proof.Machine.execClamp s
  | .narrow => Sys2Proof.Machine.execNarrow s
  | .xform => Sys2Proof.Machine.execXform s
  | .xform4 => Sys2Proof.Machine.execXform4 s
  | .multiply => Sys2Proof.Machine.execMultiply s

end Sys2Proof.Machine
end

