-- ==== Sys2Proof/Machine/Access.lean ====
section
/-!
DEFINITION. What each operation of the host does: the register port (10_state.md R24-R29; 60_exceptions.md R160, R169), running a command
written to CMD (30_encoding.md R78), the host's loads, stores and cache maintenance of the shared memory (70_reset_and_hazards.md
R188; 20_memory.md R63, R65), and rst_n (R178, R179). Each takes the state from which the operation is already gone.
-/
namespace Sys2Proof.Machine
open Sys2Proof

/-! The register port -/

/-- Only 32-bit accesses at offsets that are multiples of 4 are legal (R25; log 21 for the widths a host may choose). -/
def accessLegal (width : Nat) (off : Byte) : Bool := decide (width = 32) && decide (off.extractLsb' 0 2 = 0)

/-- A register-port access completed with the answer `a`: the command index advances by one (R22). -/
def complete (s : State) (a : Answer) : State := { s with ci := s.ci + 1, answer := some a, lost := false }

/-- The state with the host's operations that are left once the next one is taken from its list. -/
def takeNext (s : State) (rest : List HostOp) : State := { s with pending := rest }

/-- An access the block does not answer, because rst_n is 0 or falls (R178, R179; log 9): if it is the last one the run does
not end (R187; log 22). -/
def unanswered (s : State) : State := { s with answer := none, lost := true }

/-- The data of a legal read at an offset; a reserved offset reads zero (R26). -/
def readOffset (s : State) (off : Byte) : Word :=
  match regAt off with
  | some r => readReg s r
  | none => 0

/-- The host reads `width` bits at a host address. -/
def hostRegRead (s : State) (addr width : Nat) : Host.Outcome State Fault Refusal :=
  match windowOffset s.cfg addr with
  | none => .refused (.notThisBlock addr)
  | some off =>
    if s.rstLow then .next (unanswered s)
    else if accessLegal width off then .next (complete s (.readData .okay (readOffset s off)))
    else .next (enterError (complete s (.readData .error 0)) (.regAccessError off))

/-- The state in which a command starts: its CMD write is answered OKAY when it is complete (R29). -/
def acceptCommand (s : State) : State := complete s (.written .okay)

/-- Decode `w` and perform it (R78): an illegal word sets STATUS.ILLEGAL and does nothing else (R166). -/
def runCommand (s : State) (w : Word) : Host.Outcome State Fault Refusal :=
  match decode s.cfg.hasPacked w with
  | .ok i => exec i s
  | .error _ => .next (enterError s (.illegalCommand w))

/-- A legal write at an offset: CMD runs a command, another register takes the word, a reserved offset ignores it
(R26-R29). -/
def writeOffset (s : State) (off : Byte) (w : Word) : Host.Outcome State Fault Refusal :=
  match regAt off with
  | none => .next (complete s (.written .okay))
  | some .cmd => runCommand (acceptCommand s) w
  | some r => .next (writeReg (complete s (.written .okay)) w r)

/-- The host writes `width` bits at a host address. -/
def hostRegWrite (s : State) (addr width : Nat) (w : Word) : Host.Outcome State Fault Refusal :=
  match windowOffset s.cfg addr with
  | none => .refused (.notThisBlock addr)
  | some off =>
    if s.rstLow then .next (unanswered s)
    else if accessLegal width off then writeOffset s off w
    else .next (enterError (complete s (.written .error)) (.regAccessError off))

/-! The shared memory -/

/-- Whether the host may use address `a` of the shared memory (log 15). -/
def hostMayUse (s : State) (a : Nat) : Except Refusal Unit :=
  if memSize s.cfg ≤ a then .error (.hostOutsideMemory a)
  else if plainMem s.cfg a 1 then .ok ()
  else .error (.hostDeviceAccess a)

/-- Address `a` lies in a range `(base, size)`. -/
def inRange (r : Nat × Nat) (a : Nat) : Bool := decide (r.1 ≤ a) && decide (a < r.1 + r.2)

/-- What is left of the range `x` outside the range `r`: a part below it and a part above it, where they are not empty. -/
def cutRange (r x : Nat × Nat) : List (Nat × Nat) :=
  [(x.1, min r.1 (x.1 + x.2) - x.1), (max x.1 (r.1 + r.2), x.1 + x.2 - max x.1 (r.1 + r.2))].filter
    fun y => decide (0 < y.2)

/-- The stale ranges once the host's cache no longer holds old bytes in the range `r`. -/
def settleRange (s : State) (r : Nat × Nat) : List (Nat × Nat) := s.stale.flatMap (cutRange r)

/-- A MULTIPLY wrote the byte at `a` and the host has neither invalidated nor stored it since (R65; log 14). -/
def isStale (s : State) (a : Nat) : Bool := s.stale.any fun r => inRange r a

/-- The state after a completed store of `b` at `a`. With COHERENT the port sees it (R63, R65). Without, the host's cache
holds it, and what the port sees is free until the host cleans it (log 14). -/
def storeByte (s : State) (a : Nat) (b : Byte) : State :=
  if s.cfg.coherent then setMem s (Memory.write s.mem a b)
  else
    { s with
      mem := Memory.write s.mem a (Config.freeByte s.fresh a)
      unclean := (a, b) :: s.unclean.filter (fun c => decide (c.1 ≠ a))
      stale := settleRange s (a, 1)
      fresh := s.fresh + 1 }

/-- The byte a load at `a` returns, when something settles it: memory with COHERENT; without, nothing where a MULTIPLY wrote
and the host has not invalidated since, else the host's own store that is not yet cleaned, else memory (R63, R65, R185; log
14). -/
def settledByte (s : State) (a : Nat) : Option Byte :=
  if s.cfg.coherent then some (Memory.read s.mem a)
  else if isStale s a then none
  else
    match s.unclean.find? (fun c => decide (c.1 = a)) with
    | some c => some c.2
    | none => some (Memory.read s.mem a)

/-- The state after a load at `a`: the answer holds the byte, a free one where nothing settles it. -/
def loadByte (s : State) (a : Nat) : State :=
  match settledByte s a with
  | some b => setAnswer s (some (.loaded b))
  | none => { s with answer := some (.loaded (Config.freeByte s.fresh a)), fresh := s.fresh + 1 }

/-- The host stores a byte. -/
def hostStore (s : State) (a : Nat) (b : Byte) : Host.Outcome State Fault Refusal :=
  match hostMayUse s a with
  | .error r => .refused r
  | .ok _ => .next (setAnswer (storeByte s a b) (some .done))

/-- The host loads a byte. -/
def hostLoad (s : State) (a : Nat) : Host.Outcome State Fault Refusal :=
  match hostMayUse s a with
  | .error r => .refused r
  | .ok _ => .next (loadByte s a)

/-- Memory after the given stores of the host reach it, last one of the list first. -/
def writeBack (m : Memory) : List Host.Cell → Memory
  | [] => m
  | (a, b) :: cs => Memory.write (writeBack m cs) a b

/-- The byte a clean leaves in memory for an uncleaned store: the store, or a free byte where a MULTIPLY wrote the address
after it (log 14). -/
def cleanedCell (s : State) (c : Host.Cell) : Host.Cell :=
  if isStale s c.1 then (c.1, Config.freeByte s.fresh c.1) else c

/-- Clean a range: the host's stores there reach memory (R65, R185). With COHERENT there is nothing to do. -/
def cleanRange (s : State) (r : Nat × Nat) : State :=
  if s.cfg.coherent then s
  else
    { s with
      mem := writeBack s.mem ((s.unclean.filter fun c => inRange r c.1).map (cleanedCell s))
      unclean := s.unclean.filter fun c => !inRange r c.1
      fresh := s.fresh + 1 }

/-- Invalidate a range: the host drops what its cache holds there, uncleaned stores too, and sees memory (R65, R185). -/
def invalidateRange (s : State) (r : Nat × Nat) : State :=
  if s.cfg.coherent then s
  else
    { s with
      unclean := s.unclean.filter fun c => !inRange r c.1
      stale := settleRange s r }

/-! rst_n -/

/-- rst_n falls: the block answers nothing from now on (R178). That the registers take their reset values already here, and not
only when rst_n rises, is the model's choice: R45 and R178 say nothing of them while rst_n is 0 (DESIGN CHOICE, log 23). -/
def fallReset (s : State) : State := { resetRegs s with rstLow := true, answer := none }

/-- rst_n rises: every register holds its reset value and the block is idle (R178). Where rst_n is already 1, nothing
happens. -/
def riseReset (s : State) : State := if s.rstLow then { resetRegs s with rstLow := false, answer := none } else s

/-- What a reset during a MULTIPLY leaves (R179), with the registers at reset already while rst_n is 0 (log 23). -/
def cutState (s : State) : State :=
  unanswered (fallReset (enterError (freeRange s (dstOf s) (countOf s)) .resetDuringCommand))

/-- rst_n falls while a MULTIPLY runs (R179): no answer, the registers at reset, the bytes of the output range free, the
fault recorded (log 8). A MULTIPLY that breaks its contract ends in that violation, as ever (R171). -/
def cutMultiply (s : State) : Host.Outcome State Fault Refusal :=
  match bulkResult s with
  | .error (.contract r) => violate r
  | .error (.portError _) => .next (cutState s)
  | .ok _ => .next (cutState s)

/-- One operation of the host. -/
def perform (op : HostOp) (s : State) : Host.Outcome State Fault Refusal :=
  match op with
  | .regRead addr width => hostRegRead s addr width
  | .regWrite addr width data => hostRegWrite s addr width data
  | .memStore a b => hostStore s a b
  | .memLoad a => hostLoad s a
  | .cacheClean base size => .next (setAnswer (cleanRange s (base, size)) (some .done))
  | .cacheInvalidate base size => .next (setAnswer (invalidateRange s (base, size)) (some .done))
  | .assertReset => .next (fallReset s)
  | .releaseReset => .next (riseReset s)
  | .multiplyCutByReset => if s.rstLow then .next (unanswered s) else cutMultiply s

/-- The host operation that writes the word `w` to CMD (R29, R80). -/
def cmdWrite (c : Config) (w : Word) : HostOp := .regWrite (c.base + (regOffset .cmd).toNat) 32 w

end Sys2Proof.Machine
end

