-- ==== Sys2Proof/Machine/Program.lean ====
section
/-!
DEFINITION. The text form of the host's programs (30_encoding.md R80, R81): each line is one host operation, each
pseudo-instruction a list of them.
-/
namespace Sys2Proof.Machine
open Sys2Proof

/-- `wr NAME, v`; a negative value stands for its two's-complement word (R80). -/
def wr (c : Config) (r : RegName) (v : Int) : HostOp := .regWrite (c.base + (regOffset r).toNat) 32 (bits32 v)

/-- `rd NAME` (R80). -/
def rd (c : Config) (r : RegName) : HostOp := .regRead (c.base + (regOffset r).toNat) 32

/-- `cmd MNEMONIC` (R80). -/
def cmd (c : Config) (i : Instr) : HostOp := cmdWrite c (encode i)

/-- `op2 MN, a, b` (R81). -/
def op2 (c : Config) (i : Instr) (a b : Int) : List HostOp := [wr c .opa a, wr c .opb b, cmd c i]

/-- `op3 MN, a, b, c` (R81). -/
def op3 (c : Config) (i : Instr) (x y z : Int) : List HostOp := [wr c .opa x, wr c .opb y, wr c .opc z, cmd c i]

/-- `setq i1, i2, o, m, s, lo, hi` (R81). -/
def setq (c : Config) (i1 i2 o m s lo hi : Int) : List HostOp :=
  [wr c .in1Off i1, wr c .in2Off i2, wr c .outOff o, wr c .outMult m, wr c .outShift s, wr c .outMin lo, wr c .outMax hi]

/-- `setbuf s1, s2, d, n` (R81). -/
def setbuf (c : Config) (s1 s2 d n : Int) : List HostOp := [wr c .src1 s1, wr c .src2 s2, wr c .dst d, wr c .count n]

/-- `clrerr` (R81). -/
def clrerr (c : Config) : List HostOp := [wr c .status 3]

/-- The machine with a program for the host to perform: a run begins (R187). -/
def loadProgram (s : State) (ops : List HostOp) : State := { s with pending := ops, lost := false }

end Sys2Proof.Machine
end

