-- ==== Sys2Proof/Machine/Step.lean ====
section
/-!
DEFINITION. One step: the host's next operation (00_scope.md R11). With none left the block holds its state and does
nothing (60_exceptions.md R176).
-/
namespace Sys2Proof.Machine
open Sys2Proof

/-- One step of the machine. -/
def step (s : State) : Host.Outcome State Fault Refusal :=
  match s.pending with
  | [] => .next s
  | op :: rest => perform op (takeNext s rest)

/-- `s` with a command of the opcode table as what step performs next: the host's next operation writes it to CMD, and
rst_n is released (log 2). -/
def State.withFetchWord (s : State) (nbits w : Nat) : State :=
  { s with pending := cmdWrite s.cfg (BitVec.ofNat 32 (w % 2 ^ nbits)) :: s.pending, rstLow := false }

end Sys2Proof.Machine
end

