-- ==== Sys2Proof/Safety.lean ====
section
/-!
DEFINITION. What counts as a proper state and as a good run, in the terms the statements use.
-/
namespace Sys2Proof.Machine
open Sys2Proof

/-- Every listed cell lies in the `2^ADDR_W` bytes of memory (R50). -/
def cellsInside (c : Config) (m : List Host.Cell) : Bool := m.all fun x => decide (x.1 < memSize c)

/-- The invariant of the machine: the parameters are legal (R6), memory is in canonical form and inside its space (R50),
the host's uncleaned stores are inside it, and every RAZ/WI bit of CTRL, STATUS, SRC1, SRC2 and DST is zero (R30, R33, R40). -/
abbrev State.Inv (s : State) : Prop :=
  Config.wf s.cfg = true ∧ Memory.wf s.mem = true ∧ cellsInside s.cfg s.mem = true ∧
    cellsInside s.cfg s.unclean = true ∧ s.ctrl &&& ctrlMask s.cfg = s.ctrl ∧ s.status &&& statusMask = s.status ∧
    addrBits s.cfg s.src1 = s.src1 ∧ addrBits s.cfg s.src2 = s.src2 ∧ addrBits s.cfg s.dst = s.dst

/-- The run has ended: nothing is left to do and the last access has been answered (R187; log 22). -/
def State.ended (s : State) : Bool := s.pending.isEmpty && !s.lost

/-- The run is good so far: no fault is recorded (R187). -/
def State.good (s : State) : Bool := s.faults.isEmpty

/-- The run has ended and is good (R187). -/
def State.endedGood (s : State) : Bool := s.ended && s.good

/-- The operation is an access to the register port (R187, R188). -/
def isAccess (op : HostOp) : Bool :=
  match op with
  | .regRead _ _ | .regWrite _ _ _ | .multiplyCutByReset => true
  | .memStore _ _ | .memLoad _ | .cacheClean _ _ | .cacheInvalidate _ _ | .assertReset | .releaseReset => false

/-- The platform refuses no access of a MULTIPLY with the state's descriptors (R55, R68). -/
def portOpen (s : State) : Bool :=
  !(readRefused s.cfg (src1Of s) (countOf s) || readRefused s.cfg (src2Of s) (countOf s) ||
    writeRefused s.cfg (dstOf s) (countOf s))

/-- The input bytes of element `i` of a MULTIPLY, as they stand in memory (R145). -/
def elementTransform (s : State) (i : Nat) : Except Violation Int :=
  transform s.params (Memory.read s.mem (src1Of s + i)) (Memory.read s.mem (src2Of s + i))

/-- How many units a MULTIPLY works in: its packed groups, then its scalar elements (R140). -/
def unitsOf (s : State) : Nat := groupsOf s + (countOf s - 4 * groupsOf s)

/-- The first element of unit `j` (R140, R142, R143). -/
def unitStart (s : State) (j : Nat) : Nat :=
  if j < groupsOf s then 4 * j else 4 * groupsOf s + (j - groupsOf s)

/-- The number of elements of unit `j`, which is the width of its accesses in bytes (R56, R142, R143). -/
def unitSize (s : State) (j : Nat) : Nat := if j < groupsOf s then 4 else 1

/-- The platform refuses neither read of unit `j` (R55). -/
def unitReads (s : State) (j : Nat) : Prop :=
  readRefused s.cfg (src1Of s + unitStart s j) (unitSize s j) = false ∧
    readRefused s.cfg (src2Of s + unitStart s j) (unitSize s j) = false

/-- Every element of unit `j` has a result (R126). -/
def unitComputes (s : State) (j : Nat) : Prop :=
  ∀ i, unitStart s j ≤ i → i < unitStart s j + unitSize s j → ∃ c, elementTransform s i = .ok c

/-- Unit `j` of a MULTIPLY completes: none of its accesses is refused and every element has a result. -/
def unitCompletes (s : State) (j : Nat) : Prop :=
  unitReads s j ∧ unitComputes s j ∧ writeRefused s.cfg (dstOf s + unitStart s j) (unitSize s j) = false

/-- What a register holds after a legal write of `w` over the value `old`, register by register: read-only registers and
CMD keep theirs (R27), CTRL keeps PACKED_EN alone (R30), STATUS clears what is written 1 (R34), the descriptors keep
ADDR_W bits (R40), the others hold exactly `w` (R28). -/
def writtenValue (c : Config) (r : RegName) (old w : Word) : Word :=
  match r with
  | .id | .cap | .cmd | .res => old
  | .ctrl => if c.hasPacked then w &&& 1 else 0
  | .status => old &&& ~~~(w &&& 3)
  | .src1 | .src2 | .dst => BitVec.ofNat 32 (w.toNat % 2 ^ c.addrW)
  | .opa | .opb | .opc | .in1Off | .in2Off | .outOff | .outMult | .outShift | .outMin | .outMax | .count => w

/-- The table of reset values (R45). -/
def resetValue (c : Config) (r : RegName) : Word :=
  match r with
  | .id => 0x514D0107
  | .cap => capWord c
  | .ctrl => if c.hasPacked then 1 else 0
  | .status | .cmd | .res | .opa | .opb | .opc | .in1Off | .in2Off | .outOff | .outMult | .outShift | .outMin | .outMax
  | .src1 | .src2 | .dst | .count => 0

end Sys2Proof.Machine
end

