-- ==== Sys2Proof/Certificates/Slice0/Obligations.lean ====
section
/-!
DEFINITION. The statements for the provers. Each names the rule of spec/ it formalises; where a clause rests on the model's
own choice, its docstring names the log entry.
-/
open Sys2Proof Sys2Proof.Machine

/-! Encoding -/

/-- R73, R78: the words of the opcode map, and one word of each kind of illegal encoding (95_test_vectors.md 2.10). -/
def Obligations.TableWordsDecode : Prop :=
  decode true 0x00000000 = .ok .nop ∧ decode true 0x00000001 = .ok .dhmul ∧ decode true 0x00000002 = .ok .rdpot ∧
    decode true 0x00000003 = .ok .rescale ∧ decode true 0x00000004 = .ok .correct ∧ decode true 0x00000005 = .ok .clamp ∧
    decode true 0x00000006 = .ok .narrow ∧ decode true 0x00000008 = .ok .xform ∧ decode true 0x00000009 = .ok .xform4 ∧
    decode true 0x00000010 = .ok .multiply ∧ decode true 0x80000010 = .error .reservedBits ∧
    decode true 0x00000007 = .error .unassignedOpcode ∧ decode false 0x00000009 = .error .noPackedDatapath

/-- R74 and R75: every word with a reserved bit set is illegal whatever its OP field holds, and so is every unassigned
opcode; every other word but XFORM4's is a command, and only 0x00 is NOP. -/
def Obligations.ReservedAndUnassignedWordsAreIllegal : Prop :=
  ∀ (hp : Bool) (w : Word),
    (w.extractLsb' 8 24 ≠ 0 → decode hp w = .error .reservedBits) ∧
    (w.extractLsb' 8 24 = 0 → (w.extractLsb' 0 8 = 0x07 ∨ (0x0A ≤ (w.extractLsb' 0 8).toNat ∧ (w.extractLsb' 0 8).toNat ≤ 0x0F) ∨
        0x11 ≤ (w.extractLsb' 0 8).toNat) → decode hp w = .error .unassignedOpcode) ∧
    (decode hp w = .error .unassignedOpcode → w.extractLsb' 0 8 = 0x07 ∨
        (0x0A ≤ (w.extractLsb' 0 8).toNat ∧ (w.extractLsb' 0 8).toNat ≤ 0x0F) ∨ 0x11 ≤ (w.extractLsb' 0 8).toNat) ∧
    (decode hp w = .ok .nop ↔ w = 0)

/-- R70-R73, R78: decoding and encoding agree. A word decodes to a command exactly when it is that command's word and the
implementation has the command, so every word selects at most one command and no bit of it is dropped. -/
def Obligations.DecodeIsTheInverseOfEncode : Prop :=
  ∀ (hp : Bool) (w : Word) (i : Instr), decode hp w = .ok i ↔ i.wellFormed hp = true ∧ encode i = w

/-! The step and the register port -/

/-- R11, R29, R78: where the host's next operation writes a word to CMD and the word decodes, the step is `exec` of the
decoded command, at the state in which the access is counted, answered OKAY, and taken from the host's list (log 2, log 3, log 22
for the model's own fields). -/
def Obligations.StepRunsTheDecodedCommand : Prop :=
  ∀ (s : State) (rest : List HostOp) (w : Word) (i : Instr),
    s.pending = .regWrite (s.cfg.base + 0x10) 32 w :: rest → s.rstLow = false → decode s.cfg.hasPacked w = .ok i →
    step s = exec i { s with pending := rest, ci := s.ci + 1, answer := some (.written .okay), lost := false }

/-- R77, R162, R166: an illegal word sets STATUS.ILLEGAL, is recorded, and changes nothing else; the write gets OKAY. The host's
list, the answer, the mark of an answered access and the record of faults are the model's own fields (log 2, log 3, log 4, log
22). -/
def Obligations.IllegalWordOnlySetsStatusBit0 : Prop :=
  ∀ (s : State) (rest : List HostOp) (w : Word),
    s.pending = .regWrite (s.cfg.base + 0x10) 32 w :: rest → s.rstLow = false →
    (w.extractLsb' 8 24 ≠ 0 ∨
      (w.extractLsb' 0 8 = 0x07 ∨ (0x0A ≤ (w.extractLsb' 0 8).toNat ∧ (w.extractLsb' 0 8).toNat ≤ 0x0F) ∨
        0x11 ≤ (w.extractLsb' 0 8).toNat) ∨
      (w.extractLsb' 0 8 = 0x09 ∧ s.cfg.hasPacked = false)) →
    step s = .next { s with
      pending := rest, ci := s.ci + 1, answer := some (.written .okay), lost := false,
      status := s.status ||| 1, faults := s.faults ++ [.illegalCommand w] }

/-- R176, R187: when the host has nothing left to do, so also when the run has ended, the block holds its state and does
nothing (log 2). -/
def Obligations.IdleStepChangesNothing : Prop :=
  ∀ s : State, (s.pending = [] → step s = .next s) ∧ (s.ended = true → step s = .next s)

/-- R169: an access that is not 32 bits wide, or not at a multiple of 4, gets ERROR, changes no register and no memory, and a
read of that kind returns 0; accesses to reserved offsets are not errors. -/
def Obligations.MalformedAccessGetsError : Prop :=
  ∀ (s : State) (rest : List HostOp) (off : Byte) (width : Nat) (w : Word), s.rstLow = false →
    ((width ≠ 32 ∨ off.toNat % 4 ≠ 0) → s.pending = .regWrite (s.cfg.base + off.toNat) width w :: rest →
      step s = .next { s with
        pending := rest, ci := s.ci + 1, answer := some (.written .error), lost := false, faults := s.faults ++ [.regAccessError off] }) ∧
    ((width ≠ 32 ∨ off.toNat % 4 ≠ 0) → s.pending = .regRead (s.cfg.base + off.toNat) width :: rest →
      step s = .next { s with
        pending := rest, ci := s.ci + 1, answer := some (.readData .error 0), lost := false, faults := s.faults ++ [.regAccessError off] }) ∧
    (off.toNat % 4 = 0 → regAt off = none →
      (s.pending = .regRead (s.cfg.base + off.toNat) 32 :: rest → ∃ t, step s = .next t ∧ t.faults = s.faults) ∧
      (s.pending = .regWrite (s.cfg.base + off.toNat) 32 w :: rest → ∃ t, step s = .next t ∧ t.faults = s.faults))

/-- R26: the reserved offsets 0x24-0x3C, 0x5C and 0x70-0xFC read as zero and ignore writes; both get OKAY, neither is a
fault. -/
def Obligations.ReservedOffsetsReadZeroAndIgnoreWrites : Prop :=
  ∀ (s : State) (rest : List HostOp) (off : Byte) (w : Word), s.rstLow = false → off.toNat % 4 = 0 →
    ((0x24 ≤ off.toNat ∧ off.toNat ≤ 0x3C) ∨ off.toNat = 0x5C ∨ 0x70 ≤ off.toNat) →
    (s.pending = .regRead (s.cfg.base + off.toNat) 32 :: rest →
      step s = .next { s with pending := rest, ci := s.ci + 1, answer := some (.readData .okay 0), lost := false }) ∧
    (s.pending = .regWrite (s.cfg.base + off.toNat) 32 w :: rest →
      step s = .next { s with pending := rest, ci := s.ci + 1, answer := some (.written .okay), lost := false })

/-- R27: a legal write to ID, CAP or RES is ignored and gets OKAY; a legal read of CMD returns zero. -/
def Obligations.ReadOnlyRegistersIgnoreWrites : Prop :=
  ∀ (s : State) (rest : List HostOp) (w : Word), s.rstLow = false →
    ((s.pending = .regWrite (s.cfg.base + 0x00) 32 w :: rest ∨ s.pending = .regWrite (s.cfg.base + 0x04) 32 w :: rest ∨
        s.pending = .regWrite (s.cfg.base + 0x14) 32 w :: rest) →
      step s = .next { s with pending := rest, ci := s.ci + 1, answer := some (.written .okay), lost := false }) ∧
    (s.pending = .regRead (s.cfg.base + 0x10) 32 :: rest →
      step s = .next { s with pending := rest, ci := s.ci + 1, answer := some (.readData .okay 0), lost := false })

/-- R28, with R27, R30, R34 and R40 for the registers they restrict: a write to any register but CMD, then a read of any
register, answers the written value (as the rules restrict it) where it is the same register and the old value where it
is another. -/
def Obligations.WriteThenReadOfRegisters : Prop :=
  ∀ (s : State) (rest : List HostOp) (r r' : RegName) (w : Word), s.rstLow = false → r ≠ .cmd →
    s.pending = .regWrite (s.cfg.base + (regOffset r).toNat) 32 w :: .regRead (s.cfg.base + (regOffset r').toNat) 32 :: rest →
    ∃ t u, step s = .next t ∧ t.answer = some (.written .okay) ∧ t.mem = s.mem ∧ step t = .next u ∧
      u.answer = some (.readData .okay (if r' = r then writtenValue s.cfg r (readReg s r) w else readReg s r'))

/-- R34: a write to STATUS clears each of bits 0 and 1 that is written 1 and leaves the other; bits 31:2 of the word are
ignored; and no STATUS bit stops a later command: with STATUS at any value every command that completes completes alike. -/
def Obligations.StatusIsWriteOneToClear : Prop :=
  (∀ (s : State) (rest : List HostOp) (w : Word), s.rstLow = false →
    s.pending = .regWrite (s.cfg.base + 0x0C) 32 w :: rest →
    ∃ t, step s = .next t ∧ t = { s with pending := rest, ci := s.ci + 1, answer := some (.written .okay), lost := false, status := t.status } ∧
      t.status.getLsbD 0 = (s.status.getLsbD 0 && !w.getLsbD 0) ∧ t.status.getLsbD 1 = (s.status.getLsbD 1 && !w.getLsbD 1) ∧
      ∀ k, 2 ≤ k → t.status.getLsbD k = s.status.getLsbD k) ∧
  (∀ (i : Instr) (s t : State) (x : Word), exec i s = .next t →
    ∃ t', exec i { s with status := x } = .next t' ∧ t'.res = t.res ∧ t'.mem = t.mem)

/-- R31 and R32: what ID and CAP read, in every state and configuration. -/
def Obligations.IdAndCapRead : Prop :=
  ∀ (s : State) (rest : List HostOp), s.rstLow = false → Config.wf s.cfg = true →
    (s.pending = .regRead (s.cfg.base + 0x00) 32 :: rest →
      ∃ t, step s = .next t ∧ t.answer = some (.readData .okay 0x514D0107)) ∧
    (s.pending = .regRead (s.cfg.base + 0x04) 32 :: rest →
      ∃ t v, step s = .next t ∧ t.answer = some (.readData .okay v) ∧
        (v.extractLsb' 0 1).toNat = (if s.cfg.hasPacked then 1 else 0) ∧ v.extractLsb' 1 7 = 0 ∧ v.extractLsb' 8 8 = 4 ∧
        (v.extractLsb' 16 8).toNat = s.cfg.addrW ∧ v.extractLsb' 24 8 = 0)

/-- R33: only a CMD write that decodes as no command sets STATUS bit 0, only a MULTIPLY stopped by an ERROR response sets
bit 1, and nothing sets another bit. -/
def Obligations.OnlyTheTwoErrorsSetStatusBits : Prop :=
  ∀ s t : State, step s = .next t →
    (t.status.getLsbD 0 = true → s.status.getLsbD 0 = false →
      ∃ addr w rest e, s.pending = .regWrite addr 32 w :: rest ∧ windowOffset s.cfg addr = some 0x10 ∧
        decode s.cfg.hasPacked w = .error e) ∧
    (t.status.getLsbD 1 = true → s.status.getLsbD 1 = false →
      ∃ addr rest a, s.pending = .regWrite addr 32 (encode .multiply) :: rest ∧ windowOffset s.cfg addr = some 0x10 ∧
        bulkResult s = .error (.portError a)) ∧
    (∀ k, 2 ≤ k → t.status.getLsbD k = true → s.status.getLsbD k = true)

/-- R22: the command index counts the register-port accesses that were answered, and nothing else moves it. -/
def Obligations.CommandIndexCountsAnsweredAccesses : Prop :=
  ∀ s t : State, step s = .next t →
    ((∃ addr width rest, s.pending = .regRead addr width :: rest) ∨ (∃ addr width w rest, s.pending = .regWrite addr width w :: rest)) ∧
        s.rstLow = false ∧ t.ci = s.ci + 1 ∨
      ¬ (((∃ addr width rest, s.pending = .regRead addr width :: rest) ∨ (∃ addr width w rest, s.pending = .regWrite addr width w :: rest)) ∧
        s.rstLow = false) ∧ t.ci = s.ci

/-- R160, R163, R187: the record of faults is kept for ever, and one step adds at most one fault to it; so a run that is not
good never becomes good again, a STATUS clear included. -/
def Obligations.FaultRecordOnlyGrows : Prop :=
  ∀ s t : State, step s = .next t → (∃ l, t.faults = s.faults ++ l ∧ l.length ≤ 1) ∧ (t.good = true → s.good = true)

/-- R160, R171: the only fault that ends a step is a contract violation. No command is ever refused (log 4, log 5). -/
def Obligations.OnlyContractViolationsStopTheMachine : Prop :=
  (∀ (s : State) (f : Fault), step s = .fault f → ∃ r, f = .contractViolation r) ∧
    (∀ (i : Instr) (s : State) (r : Refusal), exec i s ≠ .refused r)

/-- R25, R26, R28, R29: a legal access gets OKAY; a read changes nothing but the answer and the command index; a write to any
offset but CMD's always completes, and one to CMD is answered OKAY whenever its command gives a next state. -/
def Obligations.LegalAccessesGetOkay : Prop :=
  ∀ (s : State) (rest : List HostOp) (off : Byte) (w : Word), s.rstLow = false → off.toNat % 4 = 0 →
    (s.pending = .regRead (s.cfg.base + off.toNat) 32 :: rest →
      ∃ v, step s = .next { s with pending := rest, ci := s.ci + 1, answer := some (.readData .okay v), lost := false }) ∧
    (s.pending = .regWrite (s.cfg.base + off.toNat) 32 w :: rest →
      (off ≠ 0x10 → ∃ t, step s = .next t) ∧ ∀ t, step s = .next t → t.answer = some (.written .okay))

/-- R23: only a command writes RES; besides, reset restores it (R178), in the model already when rst_n falls (log 23). -/
def Obligations.OnlyCommandsAndResetChangeRes : Prop :=
  ∀ s t : State, step s = .next t → t.res ≠ s.res →
    (∃ addr w rest i, s.pending = .regWrite addr 32 w :: rest ∧ windowOffset s.cfg addr = some 0x10 ∧
      decode s.cfg.hasPacked w = .ok i) ∨
    ∃ op rest, s.pending = op :: rest ∧ (op = .assertReset ∨ op = .releaseReset ∨ op = .multiplyCutByReset)

/-- R51: of the commands only MULTIPLY changes memory; besides, only the host's own stores do, which a clean brings to memory
where COHERENT = false (log 14). -/
def Obligations.OnlyMultiplyAndTheHostChangeMemory : Prop :=
  ∀ s t : State, step s = .next t → t.mem ≠ s.mem → ∃ op rest, s.pending = op :: rest ∧
    ((∃ addr, op = .regWrite addr 32 0x00000010 ∧ windowOffset s.cfg addr = some 0x10) ∨ op = .multiplyCutByReset ∨
      (∃ a b, op = .memStore a b) ∨ ∃ base size, op = .cacheClean base size ∧ s.cfg.coherent = false)

/-- R6: no step changes a parameter of the implementation. -/
def Obligations.StepKeepsTheConfiguration : Prop :=
  ∀ s t : State, step s = .next t → t.cfg = s.cfg

/-- Log 13: the model refuses a register access, read or write, whose host address is not in the block's window. -/
def Obligations.AccessOutsideTheWindowIsRefused : Prop :=
  ∀ (s : State) (rest : List HostOp) (addr width : Nat) (w : Word),
    s.pending = .regRead addr width :: rest ∨ s.pending = .regWrite addr width w :: rest →
    addr < s.cfg.base ∨ s.cfg.base + 256 ≤ addr → step s = .refused (.notThisBlock addr)

/-! Reset and the invariant -/

/-- R45: the registers after reset, in every configuration; the reset parameters are legal, and a MULTIPLY straight after
reset does nothing; State.reset is the reset of one configuration, the reference parameters of R6, which is the model's choice
(log 1). -/
def Obligations.ResetRegisterValues : Prop :=
  (∀ (c : Config) (r : RegName), readReg (State.resetOf c) r = resetValue c r) ∧
    (∀ c : Config, paramViolation (State.resetOf c).params = none ∧ exec .multiply (State.resetOf c) = .next (State.resetOf c)) ∧
    State.reset = State.resetOf State.reset.cfg ∧ State.reset.cfg.hasPacked = true ∧ State.reset.cfg.addrW = 32 ∧
    State.reset.cfg.coherent = true

/-- R178: when reset is released every register holds its reset value and memory is untouched; while rst_n is 0 the block
answers no access. That an unanswered access is dropped is the model's choice (log 9). -/
def Obligations.ReleasedResetLeavesResetValues : Prop :=
  (∀ (s : State) (rest : List HostOp), s.rstLow = true → s.pending = .releaseReset :: rest →
    ∃ t, step s = .next t ∧ t.rstLow = false ∧ t.mem = s.mem ∧ t.pending = rest ∧ ∀ r, readReg t r = resetValue s.cfg r) ∧
  (∀ (s : State) (rest : List HostOp), s.pending = .assertReset :: rest →
    ∃ t, step s = .next t ∧ t.rstLow = true ∧ t.mem = s.mem ∧ t.pending = rest) ∧
  (∀ (s : State) (rest : List HostOp) (off : Byte) (width : Nat) (w : Word), s.rstLow = true →
    (s.pending = .regRead (s.cfg.base + off.toNat) width :: rest ∨ s.pending = .regWrite (s.cfg.base + off.toNat) width w :: rest) →
    step s = .next { s with pending := rest, answer := none, lost := true })

/-- R179: a reset during a MULTIPLY gives no answer, restores the reset values, records ResetDuringCommand, and leaves every
byte outside the output range; the bytes of the output range are free (log 7, log 8). That the registers hold their reset values
already while rst_n is 0, before it rises, is the model's choice (log 23). -/
def Obligations.ResetDuringMultiply : Prop :=
  ∀ (s : State) (rest : List HostOp), s.rstLow = false → s.pending = .multiplyCutByReset :: rest →
    (∀ r, bulkResult s ≠ .error (.contract r)) →
    ∃ t, step s = .next t ∧ t.answer = none ∧ t.rstLow = true ∧ t.faults = s.faults ++ [.resetDuringCommand] ∧ t.ci = s.ci ∧
      (∀ r, readReg t r = resetValue s.cfg r) ∧
      ∀ a, a < dstOf s ∨ dstOf s + countOf s ≤ a → Memory.read t.mem a = Memory.read s.mem a

/-- The invariant holds after reset, in every legal configuration (R6, R45). -/
def Obligations.ResetMeetsTheInvariant : Prop :=
  State.reset.Inv ∧ ∀ c : Config, Config.wf c = true → (State.resetOf c).Inv

/-- R28, R30, R33, R40, R50, R60: from every state that meets the invariant, every step leads to one: memory stays canonical
and inside its `2^ADDR_W` bytes, and the RAZ/WI bits of CTRL, STATUS, SRC1, SRC2 and DST stay zero. -/
def Obligations.StepKeepsTheInvariant : Prop :=
  ∀ s t : State, s.Inv → step s = .next t → t.Inv

/-! Frames -/

/-- R21, R42, R51: every command but MULTIPLY that completes changes RES and nothing else: no operand, parameter,
descriptor, control or status register, no byte of memory, no record. NOP does not change RES either. -/
def Obligations.OperandCommandsChangeOnlyRes : Prop :=
  ∀ (i : Instr) (s t : State), i ≠ .multiply → i.wellFormed s.cfg.hasPacked = true → exec i s = .next t →
    t = { s with res := t.res } ∧ (i = .nop → t.res = s.res)

/-- R51, R140, R168: a MULTIPLY that gives a next state either completes, with RES = 0 and only memory changed besides, or is
aborted, with RES kept, STATUS bit 1 set and the error recorded; either way every byte outside `[DST, DST + COUNT)` reads as
before, and no operand, parameter, descriptor or control register changes. The stale ranges and the draw counter are the model's own
(log 7, log 14). -/
def Obligations.MultiplyFrame : Prop :=
  ∀ s t : State, exec .multiply s = .next t →
    (t = { s with mem := t.mem, res := 0, stale := staleAfter s (dstOf s) (countOf s) } ∨
      ∃ addr, t = { s with
        mem := t.mem, status := s.status ||| 2, faults := s.faults ++ [.memError addr], fresh := s.fresh + 1,
        stale := staleAfter s (dstOf s) (countOf s) }) ∧
    ∀ a, a < dstOf s ∨ dstOf s + countOf s ≤ a → Memory.read t.mem a = Memory.read s.mem a

/-! NOP and the rescaler -/

/-- R148: the zero word is NOP, which changes nothing; a word with OP = 0x00 and a reserved bit set is illegal. -/
def Obligations.NopChangesNothing : Prop :=
  (∀ s : State, exec .nop s = .next s) ∧ (∀ hp, decode hp 0x00000000 = .ok .nop) ∧
    ∀ (hp : Bool) (w : Word), w.extractLsb' 0 8 = 0 → w ≠ 0 → ∃ e, decode hp w = .error e

/-- R100, R103: DHMUL always completes; its result is the integer nearest to `a * b / 2^31`, ties away from zero, except for
the one pair that saturates to INT32_MAX. -/
def Obligations.DhmulRoundsToNearestTiesAway : Prop :=
  ∀ s : State, ∃ q : Int, exec .dhmul s = .next { s with res := BitVec.ofInt 32 q } ∧ -2 ^ 31 ≤ q ∧ q ≤ 2 ^ 31 - 1 ∧
    (s.opa = 0x80000000 ∧ s.opb = 0x80000000 → q = 2 ^ 31 - 1) ∧
    (¬ (s.opa = 0x80000000 ∧ s.opb = 0x80000000) →
      |2 ^ 31 * q - s.opa.toInt * s.opb.toInt| ≤ 2 ^ 30 ∧
      (2 ^ 31 * q - s.opa.toInt * s.opb.toInt = 2 ^ 30 → 0 < s.opa.toInt * s.opb.toInt) ∧
      (2 ^ 31 * q - s.opa.toInt * s.opb.toInt = -2 ^ 30 → s.opa.toInt * s.opb.toInt < 0))

/-- R101: the rounded quotient leaves the signed 32-bit range for exactly one pair of 32-bit operands. -/
def Obligations.DhmulSaturatesForExactlyOnePair : Prop :=
  ∀ a b : Word,
    (¬ (-2 ^ 31 ≤ rhaz (a.toInt * b.toInt) 31 ∧ rhaz (a.toInt * b.toInt) 31 ≤ 2 ^ 31 - 1) ↔ a = 0x80000000 ∧ b = 0x80000000) ∧
    (¬ (a = 0x80000000 ∧ b = 0x80000000) →
      -2 ^ 31 + 1 ≤ dhmul a.toInt b.toInt ∧ dhmul a.toInt b.toInt = rhaz (a.toInt * b.toInt) 31)

/-- R102: the nudge datapath, a floor division after adding 2^30, or 2^30 - 1 for a negative product, is the rounding of
R100 for every product. -/
def Obligations.NudgeDatapathIsTheRounding : Prop :=
  ∀ P : Int, rhaz P 31 = (P + (if 0 ≤ P then 2 ^ 30 else 2 ^ 30 - 1)) / 2 ^ 31

/-- R104, R107: RDPOT completes for every shift in [0, 31] with the nearest integer to `x / 2^s`, ties away from zero, and for
a shift in [-31, -1] with the exact left shift where that fits 32 bits. -/
def Obligations.RdpotShifts : Prop :=
  ∀ s : State,
    (0 ≤ s.opb.toInt → s.opb.toInt ≤ 31 →
      ∃ q : Int, exec .rdpot s = .next { s with res := BitVec.ofInt 32 q } ∧ -2 ^ 31 ≤ q ∧ q ≤ 2 ^ 31 - 1 ∧
        2 * |2 ^ s.opb.toInt.toNat * q - s.opa.toInt| ≤ 2 ^ s.opb.toInt.toNat ∧
        (2 * (2 ^ s.opb.toInt.toNat * q - s.opa.toInt) = 2 ^ s.opb.toInt.toNat → 0 < s.opa.toInt) ∧
        (2 * (2 ^ s.opb.toInt.toNat * q - s.opa.toInt) = -2 ^ s.opb.toInt.toNat → s.opa.toInt < 0)) ∧
    (-31 ≤ s.opb.toInt → s.opb.toInt < 0 →
      -2 ^ 31 ≤ s.opa.toInt * 2 ^ (-s.opb.toInt).toNat → s.opa.toInt * 2 ^ (-s.opb.toInt).toNat ≤ 2 ^ 31 - 1 →
      exec .rdpot s = .next { s with res := BitVec.ofInt 32 (s.opa.toInt * 2 ^ (-s.opb.toInt).toNat) })

/-- R105, R106: RDPOT stops with ShiftRange exactly for a shift outside [-31, 31], and with ShiftOverflow exactly for a
negative shift in range whose exact result does not fit 32 bits; in every other case it completes. -/
def Obligations.RdpotContractViolations : Prop :=
  ∀ s : State,
    (exec .rdpot s = .fault (.contractViolation .shiftRange) ↔ s.opb.toInt < -31 ∨ 31 < s.opb.toInt) ∧
    (exec .rdpot s = .fault (.contractViolation .shiftOverflow) ↔
      -31 ≤ s.opb.toInt ∧ s.opb.toInt < 0 ∧
        (s.opa.toInt * 2 ^ (-s.opb.toInt).toNat < -2 ^ 31 ∨ 2 ^ 31 - 1 < s.opa.toInt * 2 ^ (-s.opb.toInt).toNat)) ∧
    (exec .rdpot s ≠ .fault (.contractViolation .shiftRange) → exec .rdpot s ≠ .fault (.contractViolation .shiftOverflow) →
      ∃ v, exec .rdpot s = .next { s with res := v })

/-- R108, R109: RESCALE is DHMUL followed by RDPOT on its result with OPC as the shift, in result and in faults. -/
def Obligations.RescaleIsDhmulThenRdpot : Prop :=
  ∀ (s : State) (d : Word), exec .dhmul s = .next { s with res := d } →
    exec .rescale s =
      (match exec .rdpot { s with opa := d, opb := s.opc } with
       | .next u => .next { s with res := u.res }
       | .fault f => .fault f
       | .refused r => .refused r)

/-- R104, R108, R109: RESCALE completes for every shift in [0, 31], and for one in [-31, -1] where the shifted DHMUL value
fits, with RDPOT of DHMUL. -/
def Obligations.RescaleCompletes : Prop :=
  ∀ s : State, -31 ≤ s.opc.toInt → s.opc.toInt ≤ 31 →
    (s.opc.toInt < 0 → -2 ^ 31 ≤ dhmul s.opa.toInt s.opb.toInt * 2 ^ (-s.opc.toInt).toNat ∧
      dhmul s.opa.toInt s.opb.toInt * 2 ^ (-s.opc.toInt).toNat ≤ 2 ^ 31 - 1) →
    exec .rescale s = .next { s with
      res := if s.opc.toInt < 0 then BitVec.ofInt 32 (dhmul s.opa.toInt s.opb.toInt * 2 ^ (-s.opc.toInt).toNat)
        else BitVec.ofInt 32 (rhaz (dhmul s.opa.toInt s.opb.toInt) s.opc.toInt.toNat) }

/-- R111: the multiplier 0x7FFFFFFF with shift 0 is exact for every value of magnitude at most 2^30, and first fails at
2^30 + 1 on both sides. -/
def Obligations.UnityMultiplierIsExact : Prop :=
  (∀ s : State, s.opb = 0x7FFFFFFF → s.opc = 0 → |s.opa.toInt| ≤ 2 ^ 30 → exec .rescale s = .next { s with res := s.opa }) ∧
    rescale (2 ^ 30 + 1) (2 ^ 31 - 1) 0 = .ok (2 ^ 30) ∧ rescale (-2 ^ 30 - 1) (2 ^ 31 - 1) 0 = .ok (-2 ^ 30)

/-- R110: the error of the whole rescaler, both sides multiplied out to integers. -/
def Obligations.RescaleAccuracy : Prop :=
  ∀ (v m : Word) (sh r : Int), ¬ (v = 0x80000000 ∧ m = 0x80000000) → rescale v.toInt m.toInt sh = .ok r →
    (0 ≤ sh → |r * 2 ^ (31 + sh.toNat) - v.toInt * m.toInt| ≤ 2 ^ (30 + sh.toNat) + 2 ^ 30) ∧
    (sh < 0 → |r * 2 ^ 31 - v.toInt * m.toInt * 2 ^ (-sh).toNat| ≤ 2 ^ (30 + (-sh).toNat))

/-! The element unit -/

/-- R120, R121: CORRECT adds the offset to the sample in OPA[7:0]; it stops with CorrectOverflow exactly when the sum leaves
32 bits, which only an offset below INT32_MIN + 128 or above INT32_MAX - 127 can bring about. -/
def Obligations.CorrectAddsTheOffset : Prop :=
  ∀ s : State,
    (-2 ^ 31 ≤ (s.opa.setWidth 8).toInt + s.opb.toInt → (s.opa.setWidth 8).toInt + s.opb.toInt ≤ 2 ^ 31 - 1 →
      exec .correct s = .next { s with res := BitVec.ofInt 32 ((s.opa.setWidth 8).toInt + s.opb.toInt) }) ∧
    ((s.opa.setWidth 8).toInt + s.opb.toInt < -2 ^ 31 ∨ 2 ^ 31 - 1 < (s.opa.setWidth 8).toInt + s.opb.toInt →
      exec .correct s = .fault (.contractViolation .correctOverflow)) ∧
    (exec .correct s = .fault (.contractViolation .correctOverflow) → s.opb.toInt < -2 ^ 31 + 128 ∨ 2 ^ 31 - 1 - 127 < s.opb.toInt)

/-- R122, R123: CLAMP bounds OPA to [OPB, OPC], both inclusive, and stops with ClampBounds exactly when `lo > hi`. -/
def Obligations.ClampBoundsTheValue : Prop :=
  ∀ s : State,
    (s.opb.toInt ≤ s.opc.toInt →
      exec .clamp s = .next { s with res :=
        if s.opa.toInt < s.opb.toInt then s.opb else if s.opc.toInt < s.opa.toInt then s.opc else s.opa }) ∧
    (s.opc.toInt < s.opb.toInt → exec .clamp s = .fault (.contractViolation .clampBounds))

/-- R125: NARROW, the word 0x00000006, keeps bits 7:0 as a signed sample and drops the rest, so a value of the sample range
passes unchanged; inside the transform the narrowing is exact. -/
def Obligations.NarrowKeepsTheLowByte : Prop :=
  (∀ s : State, ∃ w : Word, exec .narrow s = .next { s with res := w } ∧ w.toInt = (s.opa.setWidth 8).toInt ∧
    (-128 ≤ s.opa.toInt → s.opa.toInt ≤ 127 → w = s.opa)) ∧
  (∀ (p : Params) (x y : Byte) (c : Int), transform p x y = .ok c → (bits8 c).toInt = c) ∧
  ∀ hp, decode hp 0x00000006 = .ok .narrow

/-- R124, R127: where the preconditions (a) to (g) of R126 hold, XFORM completes with correct, multiply, rescale, offset and
clamp in that order. -/
def Obligations.XformComputesTheTransform : Prop :=
  ∀ (s : State) (t : Int),
    -128 ≤ s.params.in1Off.toInt → s.params.in1Off.toInt ≤ 127 → -128 ≤ s.params.in2Off.toInt → s.params.in2Off.toInt ≤ 127 →
    s.params.outMin.toInt ≤ s.params.outMax.toInt → -128 ≤ s.params.outMin.toInt → s.params.outMax.toInt ≤ 127 →
    rescale (((s.opa.setWidth 8).toInt + s.params.in1Off.toInt) * ((s.opb.setWidth 8).toInt + s.params.in2Off.toInt))
      s.params.outMult.toInt s.params.outShift.toInt = .ok t →
    -2 ^ 31 ≤ t + s.params.outOff.toInt → t + s.params.outOff.toInt ≤ 2 ^ 31 - 1 →
    exec .xform s = .next { s with
      res := BitVec.ofInt 32 (min (max (t + s.params.outOff.toInt) s.params.outMin.toInt) s.params.outMax.toInt) }

/-- R126: the preconditions of the transform are looked at in the order (a) to (g), and XFORM stops with the reason of the
first that fails; where all hold no error is possible. -/
def Obligations.XformReportsTheFirstFailingPrecondition : Prop :=
  ∀ s : State,
    let i1 := s.params.in1Off.toInt
    let i2 := s.params.in2Off.toInt
    let lo := s.params.outMin.toInt
    let hi := s.params.outMax.toInt
    let sh := s.params.outShift.toInt
    let q := dhmul (((s.opa.setWidth 8).toInt + i1) * ((s.opb.setWidth 8).toInt + i2)) s.params.outMult.toInt
    let stops (r : Violation) : Prop := exec .xform s = .fault (.contractViolation r)
    let a := -128 ≤ i1 ∧ i1 ≤ 127
    let b := -128 ≤ i2 ∧ i2 ≤ 127
    let c := lo ≤ hi
    let d := -128 ≤ lo ∧ hi ≤ 127
    let e := -31 ≤ sh ∧ sh ≤ 31
    let f := sh < 0 → -2 ^ 31 ≤ q * 2 ^ (-sh).toNat ∧ q * 2 ^ (-sh).toNat ≤ 2 ^ 31 - 1
    let g := ∀ t, rdpot q sh = .ok t → -2 ^ 31 ≤ t + s.params.outOff.toInt ∧ t + s.params.outOff.toInt ≤ 2 ^ 31 - 1
    (¬ a → stops .offsetRange) ∧ (a → ¬ b → stops .offsetRange) ∧ (a → b → ¬ c → stops .clampBounds) ∧
      (a → b → c → ¬ d → stops .clampRange) ∧ (a → b → c → d → ¬ e → stops .shiftRange) ∧
      (a → b → c → d → e → ¬ f → stops .shiftOverflow) ∧ (a → b → c → d → e → f → ¬ g → stops .outOffsetOverflow) ∧
      (a → b → c → d → e → f → g → ∃ v, exec .xform s = .next { s with res := v })

/-- R128: every result of the transform lies between OUT_MIN and OUT_MAX. -/
def Obligations.TransformStaysInTheClampRange : Prop :=
  (∀ (p : Params) (x y : Byte) (c : Int), transform p x y = .ok c → p.outMin.toInt ≤ c ∧ c ≤ p.outMax.toInt) ∧
    ∀ s t : State, exec .xform s = .next t → s.params.outMin.toInt ≤ t.res.toInt ∧ t.res.toInt ≤ s.params.outMax.toInt

/-- R45, R127: with the reset parameters XFORM, and XFORM4 where it exists, give 0 for every operand. -/
def Obligations.ResetParametersTransformToZero : Prop :=
  ∀ s : State, s.params = { in1Off := 0, in2Off := 0, outOff := 0, outMult := 0, outShift := 0, outMin := 0, outMax := 0 } →
    exec .xform s = .next { s with res := 0 } ∧ (s.cfg.hasPacked = true → exec .xform4 s = .next { s with res := 0 })

/-! The packed datapath -/

/-- R132, R129: with an offset of the sample range the dual 16-bit add is exact in every lane: no lane wraps, and no lane
sees its neighbour. -/
def Obligations.PackedOffsetAddIsExact : Prop :=
  ∀ (w k : Word) (j : Nat), j < 4 → -128 ≤ k.toInt → k.toInt ≤ 127 →
    (laneSum w k j).toInt = (w.extractLsb' (8 * j) 8).toInt + k.toInt

/-- R135, R136: where each of the four lanes meets the preconditions, XFORM4 completes, and byte j of RES is the scalar
transform of byte j of OPA and byte j of OPB, bit for bit. -/
def Obligations.PackedPathEqualsScalarPath : Prop :=
  ∀ (s : State) (c : Nat → Int), s.cfg.hasPacked = true →
    (∀ j, j < 4 → transform s.params (s.opa.extractLsb' (8 * j) 8) (s.opb.extractLsb' (8 * j) 8) = .ok (c j)) →
    ∃ w : Word, exec .xform4 s = .next { s with res := w } ∧ ∀ j, j < 4 → w.extractLsb' (8 * j) 8 = BitVec.ofInt 8 (c j)

/-- R135: XFORM4 stops with the violation of the first lane, in the order 0 to 3, whose scalar transform is one. -/
def Obligations.Xform4ReportsTheFirstFailingLane : Prop :=
  ∀ (s : State) (j : Nat) (r : Violation), s.cfg.hasPacked = true → j < 4 →
    (∀ k, k < j → ∃ c, transform s.params (s.opa.extractLsb' (8 * k) 8) (s.opb.extractLsb' (8 * k) 8) = .ok c) →
    transform s.params (s.opa.extractLsb' (8 * j) 8) (s.opb.extractLsb' (8 * j) 8) = .error r →
    exec .xform4 s = .fault (.contractViolation r)

/-- R76, R137: without the packed datapath XFORM4's word is illegal, PACKED_EN reads 0 and ignores writes, CAP.PACKED reads 0,
and MULTIPLY has no packed group. -/
def Obligations.WithoutPackedDatapath : Prop :=
  ∀ s : State, s.cfg.hasPacked = false →
    decode s.cfg.hasPacked 0x00000009 = .error .noPackedDatapath ∧
    exec .xform4 s = .next { s with status := s.status ||| 1, faults := s.faults ++ [.illegalCommand 0x00000009] } ∧
    readReg s .ctrl = 0 ∧ (∀ w, readReg (writeReg s w .ctrl) .ctrl = 0) ∧ (readReg s .cap).getLsbD 0 = false ∧ groupsOf s = 0

/-! MULTIPLY -/

/-- R144: with COUNT = 0 MULTIPLY checks nothing, accesses nothing and sets RES to 0. -/
def Obligations.MultiplyOfNothing : Prop :=
  ∀ s : State, s.count = 0 → exec .multiply s = .next { s with res := 0 }

/-- R60, R61, with the order of R140: for COUNT > 0 MULTIPLY stops with AddressOverflow exactly when a buffer passes the top of
memory, and with OutputAliasesInput exactly when none does and the output shares an address with an input; the inputs may
share any. It can stop for other reasons too, of which this says nothing. -/
def Obligations.MultiplyAddressChecks : Prop :=
  ∀ s : State,
    let n := s.count.toNat
    let a1 := s.src1.toNat % 2 ^ s.cfg.addrW
    let a2 := s.src2.toNat % 2 ^ s.cfg.addrW
    let d := s.dst.toNat % 2 ^ s.cfg.addrW
    let overflows := 2 ^ s.cfg.addrW < a1 + n ∨ 2 ^ s.cfg.addrW < a2 + n ∨ 2 ^ s.cfg.addrW < d + n
    (exec .multiply s = .fault (.contractViolation .addressOverflow) ↔ 0 < n ∧ overflows) ∧
    (exec .multiply s = .fault (.contractViolation .outputAliasesInput) ↔
      0 < n ∧ ¬ overflows ∧ ∃ x, d ≤ x ∧ x < d + n ∧ (a1 ≤ x ∧ x < a1 + n ∨ a2 ≤ x ∧ x < a2 + n))

/-- R59, R140: after the address checks MULTIPLY stops with DeviceBuffer when a byte of a buffer is not plain memory in the
platform's map (log 11), and after that with the first failing parameter precondition of R126 (a) to (e). -/
def Obligations.MultiplyDeviceAndParameterChecks : Prop :=
  ∀ s : State, s.count ≠ 0 →
    src1Of s + countOf s ≤ memSize s.cfg → src2Of s + countOf s ≤ memSize s.cfg → dstOf s + countOf s ≤ memSize s.cfg →
    (∀ x, dstOf s ≤ x → x < dstOf s + countOf s → ¬ (src1Of s ≤ x ∧ x < src1Of s + countOf s) ∧ ¬ (src2Of s ≤ x ∧ x < src2Of s + countOf s)) →
    ((∃ x, plainMem s.cfg x 1 = false ∧ (src1Of s ≤ x ∧ x < src1Of s + countOf s ∨ src2Of s ≤ x ∧ x < src2Of s + countOf s ∨
        dstOf s ≤ x ∧ x < dstOf s + countOf s)) →
      exec .multiply s = .fault (.contractViolation .deviceBuffer)) ∧
    ((∀ x, src1Of s ≤ x ∧ x < src1Of s + countOf s ∨ src2Of s ≤ x ∧ x < src2Of s + countOf s ∨
        dstOf s ≤ x ∧ x < dstOf s + countOf s → plainMem s.cfg x 1 = true) →
      ∀ r, paramViolation s.params = some r → exec .multiply s = .fault (.contractViolation r))

/-- R145: where MULTIPLY's preconditions hold for every element and the port refuses no access, it completes: each output
byte is the transform of the input bytes as they stood before, every other byte of memory is unchanged, RES is 0, and nothing
else changes but the model's own stale ranges (log 14). -/
def Obligations.MultiplyTransformsEveryElement : Prop :=
  ∀ (s : State) (c : Nat → Int), Memory.wf s.mem = true → s.count ≠ 0 → bulkViolation s = none → portOpen s = true →
    (∀ i, i < countOf s → elementTransform s i = .ok (c i)) →
    ∃ m, exec .multiply s = .next { s with mem := m, res := 0, stale := staleAfter s (dstOf s) (countOf s) } ∧ Memory.wf m = true ∧
      (∀ i, i < countOf s → Memory.read m (dstOf s + i) = BitVec.ofInt 8 (c i)) ∧
      ∀ a, a < dstOf s ∨ dstOf s + countOf s ≤ a → Memory.read m a = Memory.read s.mem a

/-- R126, R140, R163: where MULTIPLY's checks pass and the port refuses no access, it stops with the violation of the first
element, in ascending order, whose transform is one, on either path; and where the port refuses accesses, still so, if every
packed group or element before that element's own completes and the reads of its own are not refused. -/
def Obligations.MultiplyReportsTheFirstFailingElement : Prop :=
  ∀ (s : State) (i : Nat) (r : Violation), s.count ≠ 0 → bulkViolation s = none → elementTransform s i = .error r →
    (portOpen s = true → i < countOf s → (∀ k, k < i → ∃ c, elementTransform s k = .ok c) →
      exec .multiply s = .fault (.contractViolation r)) ∧
    ∀ j, j < unitsOf s → (∀ k, k < j → unitCompletes s k) → unitReads s j →
      unitStart s j ≤ i → i < unitStart s j + unitSize s j →
      (∀ k, unitStart s j ≤ k → k < i → ∃ c, elementTransform s k = .ok c) →
      exec .multiply s = .fault (.contractViolation r)

/-- R52, R53: a packed 4-byte write leaves the bytes that four 1-byte writes of its lanes leave, and a packed read holds the
byte at `a + j` in lane j. -/
def Obligations.PackedAccessesAreFourScalarAccesses : Prop :=
  ∀ (m : Memory) (a : Nat) (v : Word),
    memWrite m a v 4 = memWrite (memWrite (memWrite (memWrite m a (v.extractLsb' 0 8) 1) (a + 1) (v.extractLsb' 8 8) 1)
      (a + 2) (v.extractLsb' 16 8) 1) (a + 3) (v.extractLsb' 24 8) 1 ∧
    (Memory.wf m = true → memRead (memWrite m a v 4) a 4 = v) ∧
    ∀ j, j < 4 → (memRead m a 4).extractLsb' (8 * j) 8 = memRead m (a + j) 1

/-- R30, R136, R137, R145: whether the packed datapath is present and enabled changes nothing a MULTIPLY that completes leaves: if
it completes without a fault with one setting it completes with every other, with the same memory and RES. That it completes
with the other setting rests on the model's choice that an ERROR response depends on the address and the direction of an
access and not on its width (log 11). Of a MULTIPLY that is aborted or violates its contract this says nothing. -/
def Obligations.PackedEnableChangesNoResult : Prop :=
  ∀ (s t : State) (c : Word) (hp : Bool), Memory.wf s.mem = true → exec .multiply s = .next t → t.faults = s.faults →
    exec .multiply { s with ctrl := c, cfg := { s.cfg with hasPacked := hp } } =
      .next { t with ctrl := c, cfg := { t.cfg with hasPacked := hp } }

/-- R55, R163, R165, R168: an ERROR response to any access of a MULTIPLY whose checks pass aborts it. Unit j is its j-th packed
group or element in the order of R140, and every unit before it completes. A refused read of SRC1, a refused read of SRC2
where SRC1's is not, and a refused write of DST where neither read is and every element of the unit has a result, each end
the command: STATUS bit 1 is set, RES keeps its value, MemError is recorded with the access's address (log 12), every byte
outside the output range is unchanged; the bytes of the output range are free (log 6, log 7, log 14). -/
def Obligations.MemErrorAbortsMultiply : Prop :=
  ∀ (s : State) (j : Nat), s.count ≠ 0 → bulkViolation s = none → j < unitsOf s → (∀ k, k < j → unitCompletes s k) →
    let aborts (addr : Nat) : Prop := ∃ m, exec .multiply s = .next { s with
        mem := m, status := s.status ||| 2, fresh := s.fresh + 1, stale := staleAfter s (dstOf s) (countOf s),
        faults := s.faults ++ [.memError (BitVec.ofNat 32 addr)] } ∧
      ∀ a, a < dstOf s ∨ dstOf s + countOf s ≤ a → Memory.read m a = Memory.read s.mem a
    (readRefused s.cfg (src1Of s + unitStart s j) (unitSize s j) = true → aborts (src1Of s + unitStart s j)) ∧
    (readRefused s.cfg (src1Of s + unitStart s j) (unitSize s j) = false →
      readRefused s.cfg (src2Of s + unitStart s j) (unitSize s j) = true → aborts (src2Of s + unitStart s j)) ∧
    (unitReads s j → unitComputes s j → writeRefused s.cfg (dstOf s + unitStart s j) (unitSize s j) = true →
      aborts (dstOf s + unitStart s j))

/-! The host's memory -/

/-- R63, R65: with COHERENT = true a completed host store is what memory holds at the port and what the host's next load
returns. -/
def Obligations.CoherentStoreIsSeen : Prop :=
  ∀ (s : State) (rest : List HostOp) (a : Nat) (b : Byte), s.Inv → s.cfg.coherent = true → a < 2 ^ s.cfg.addrW →
    plainMem s.cfg a 1 = true → s.pending = .memStore a b :: .memLoad a :: rest →
    ∃ t u, step s = .next t ∧ Memory.read t.mem a = b ∧ (∀ x, x ≠ a → Memory.read t.mem x = Memory.read s.mem x) ∧
      step t = .next u ∧ u.answer = some (.loaded b) ∧ u.mem = t.mem

/-- R51, R65, R185, with the model's byte-wise cache (log 14). With COHERENT = false: a host store reaches the port's memory when
the host cleans a range that holds it, and a load after that returns it; after an invalidate a load returns what the port's
memory holds; so does a load of a byte that no MULTIPLY made stale and no uncleaned store covers; and only a MULTIPLY, cut
by reset or not, makes a byte stale, one of its output range. -/
def Obligations.CacheMaintenanceMakesMemoryAgree : Prop :=
  (∀ (s : State) (rest : List HostOp) (a base size : Nat) (b : Byte), s.Inv → s.cfg.coherent = false → a < 2 ^ s.cfg.addrW →
    plainMem s.cfg a 1 = true → base ≤ a → a < base + size → s.pending = .memStore a b :: .cacheClean base size :: rest →
    ∃ t u, step s = .next t ∧ step t = .next u ∧ Memory.read u.mem a = b ∧
      ∀ rest', rest = .memLoad a :: rest' → ∃ v, step u = .next v ∧ v.answer = some (.loaded b)) ∧
  (∀ (s : State) (rest : List HostOp) (a base size : Nat), s.cfg.coherent = false → a < 2 ^ s.cfg.addrW →
    plainMem s.cfg a 1 = true → base ≤ a → a < base + size → s.pending = .cacheInvalidate base size :: .memLoad a :: rest →
    ∃ t u, step s = .next t ∧ step t = .next u ∧ u.answer = some (.loaded (Memory.read s.mem a))) ∧
  (∀ (s : State) (rest : List HostOp) (a : Nat), s.cfg.coherent = false → a < 2 ^ s.cfg.addrW → plainMem s.cfg a 1 = true →
    isStale s a = false → (∀ c ∈ s.unclean, c.1 ≠ a) → s.pending = .memLoad a :: rest →
    ∃ t, step s = .next t ∧ t.answer = some (.loaded (Memory.read s.mem a))) ∧
  (∀ (s t : State) (a : Nat), step s = .next t → isStale s a = false → isStale t a = true →
    dstOf s ≤ a ∧ a < dstOf s + countOf s ∧ ∃ op rest, s.pending = op :: rest ∧
      (op = .multiplyCutByReset ∨ ∃ addr, op = .regWrite addr 32 0x00000010 ∧ windowOffset s.cfg addr = some 0x10))

/-! The end of a run -/

/-- R187: after the host's last operation the run has ended exactly when its last access to the register port was answered: an
access while rst_n is 0 and a MULTIPLY cut by reset are not (log 9, log 22); an operation on memory or rst_n leaves that as
it was. A run is good when it has ended with no fault recorded. -/
def Obligations.RunEndsWhenItsLastAccessIsAnswered : Prop :=
  ∀ (s t : State) (op : HostOp), s.pending = [op] → step s = .next t →
    (isAccess op = true → (t.ended = true ↔ ∃ a, t.answer = some a) ∧
      (t.ended = true ↔ s.rstLow = false ∧ op ≠ .multiplyCutByReset)) ∧
    (isAccess op = false → t.ended = !s.lost) ∧ (t.endedGood = true ↔ t.ended = true ∧ t.faults = [])
end

