-- ==== Sys2Proof/Laws/Arith.lean ====
section
/-!
SUPPORT. What each arithmetic primitive does, said once: ranges, rounding, and reading back a narrowed value.
-/
namespace Sys2Proof.Machine
open Sys2Proof

theorem fits32_iff (v : Int) : fits32 v = true ↔ -2147483648 ≤ v ∧ v ≤ 2147483647 := by
  simp only [fits32, Bool.and_eq_true, decide_eq_true_eq]

theorem fits8_iff (v : Int) : fits8 v = true ↔ -128 ≤ v ∧ v ≤ 127 := by
  simp only [fits8, Bool.and_eq_true, decide_eq_true_eq]

/-- A register read as a signed integer lies in the signed 32-bit range. -/
theorem sintOf_fits (w : Word) : fits32 (sintOf w) = true := by
  rw [fits32_iff]
  have h1 := BitVec.le_toInt w
  have h2 := BitVec.toInt_lt (x := w)
  norm_num at h1 h2
  unfold sintOf
  omega

/-- A sample read as a signed integer lies in the range of the sample type. -/
theorem sample_fits (b : Byte) : fits8 b.toInt = true := by
  rw [fits8_iff]
  have h1 := BitVec.le_toInt b
  have h2 := BitVec.toInt_lt (x := b)
  norm_num at h1 h2
  omega

/-- Narrowing a value that fits 32 bits loses nothing. -/
theorem sintOf_bits32 {v : Int} (h : fits32 v = true) : sintOf (bits32 v) = v := by
  rw [fits32_iff] at h
  unfold sintOf bits32
  exact BitVec.toInt_ofInt_eq_self (by omega) (by norm_num; omega) (by norm_num; omega)

/-- Narrowing a value that fits 8 bits loses nothing. -/
theorem toInt_bits8 {v : Int} (h : fits8 v = true) : (bits8 v).toInt = v := by
  rw [fits8_iff] at h
  unfold bits8
  exact BitVec.toInt_ofInt_eq_self (by omega) (by norm_num; omega) (by norm_num; omega)

/-- `sext_32(bits8(c)) = bits32(c)` for a value of the sample range (R127). -/
theorem signExtend_bits8 {c : Int} (h : fits8 c = true) : (bits8 c).signExtend 32 = bits32 c := by
  apply BitVec.eq_of_toInt_eq
  rw [BitVec.toInt_signExtend_of_le (by omega), toInt_bits8 h]
  have h32 : fits32 c = true := by rw [fits8_iff] at h; rw [fits32_iff]; omega
  exact (sintOf_bits32 h32).symm

/-- Saturation leaves a value that fits alone. -/
theorem sat32_of_fits {v : Int} (h : fits32 v = true) : sat32 v = v := by
  rw [fits32_iff] at h
  unfold sat32 int32Min int32Max
  omega

/-- Whatever is saturated fits. -/
theorem sat32_fits (v : Int) : fits32 (sat32 v) = true := by
  rw [fits32_iff]
  unfold sat32 int32Min int32Max
  omega

theorem rhaz_zero (n : Int) : rhaz n 0 = n := rfl

/-- For a non-negative integer rounding adds half and takes the floor (R104). -/
theorem rhaz_nonneg {n : Int} (hn : 0 ≤ n) {k : Nat} (hk : 0 < k) : rhaz n k = (n + 2 ^ (k - 1)) / 2 ^ k := by
  obtain ⟨m, rfl⟩ := Int.eq_ofNat_of_zero_le hn
  unfold rhaz signOf
  rw [if_neg (by omega), if_neg (by omega)]
  simp

/-- Rounding away from zero is odd. -/
theorem rhaz_neg (n : Int) (k : Nat) : rhaz (-n) k = -rhaz n k := by
  unfold rhaz signOf
  rcases Nat.eq_zero_or_pos k with rfl | hk
  · simp
  · have hk0 : ¬ k = 0 := by omega
    rw [if_neg hk0, if_neg hk0, Int.natAbs_neg]
    rcases Int.lt_trichotomy n 0 with h | h | h
    · rw [if_neg (show ¬ -n < 0 by omega), if_pos h]; ring
    · subst h
      have : (2 ^ (k - 1)) / 2 ^ k = 0 := Nat.div_eq_of_lt (Nat.pow_lt_pow_right (by omega) (by omega))
      simp [this]
    · rw [if_pos (show -n < 0 by omega), if_neg (show ¬ n < 0 by omega)]; ring

/-- The clamp lies between its bounds. -/
theorem clampTo_bounds {v lo hi : Int} (h : lo ≤ hi) : lo ≤ clampTo v lo hi ∧ clampTo v lo hi ≤ hi := by
  unfold clampTo
  omega

/-- What a clamp that answers gives (R122). -/
theorem clamp_ok {v lo hi c : Int} : clamp v lo hi = .ok c ↔ lo ≤ hi ∧ c = clampTo v lo hi := by
  unfold clamp
  split
  · next h => simp only [reduceCtorEq, false_iff]; omega
  · next h =>
    simp only [Except.ok.injEq]
    exact ⟨fun e => ⟨by omega, e.symm⟩, fun e => e.2.symm⟩

/-- What the corrector that answers gives (R120). -/
theorem correct_ok {x k a : Int} : correct x k = .ok a ↔ fits32 (x + k) = true ∧ a = x + k := by
  unfold correct
  split
  · next h => simp only [Except.ok.injEq]; exact ⟨fun e => ⟨h, e.symm⟩, fun e => e.2.symm⟩
  · next h => simp [h]

/-- The parameter-only preconditions hold exactly when R126 (a) to (e) do. -/
theorem paramViolation_none (p : Params) :
    paramViolation p = none ↔
      fits8 (sintOf p.in1Off) = true ∧ fits8 (sintOf p.in2Off) = true ∧ sintOf p.outMin ≤ sintOf p.outMax ∧
        -128 ≤ sintOf p.outMin ∧ sintOf p.outMax ≤ 127 ∧ -31 ≤ sintOf p.outShift ∧ sintOf p.outShift ≤ 31 := by
  have h8 : int8Min = -128 := rfl
  have h8' : int8Max = 127 := rfl
  unfold paramViolation
  split
  · next h => simp [h]
  · next h1 =>
    split
    · next h => simp [h]
    · next h2 =>
      simp only [Bool.not_eq_false] at h1 h2
      split
      · simp only [reduceCtorEq, false_iff]; omega
      · split
        · simp only [reduceCtorEq, false_iff]; omega
        · split
          · simp only [reduceCtorEq, false_iff]; omega
          · simp only [h1, h2, true_and, true_iff]; omega

/-! Rounding to nearest (R9) -/

theorem rhaz_of_zero (k : Nat) : rhaz 0 k = 0 := by
  have := rhaz_neg 0 k
  rw [neg_zero] at this
  omega

theorem rhaz_near_nonneg {n : Int} (hn : 0 ≤ n) {k : Nat} (hk : 0 < k) :
    2 * (2 ^ k * rhaz n k - n) ≤ 2 ^ k ∧ -2 ^ k < 2 * (2 ^ k * rhaz n k - n) := by
  rw [rhaz_nonneg hn hk]
  obtain ⟨j, rfl⟩ : ∃ j, k = j + 1 := ⟨k - 1, by omega⟩
  have hp : (0 : Int) < 2 ^ j := by positivity
  rw [Nat.add_sub_cancel, show (2 : Int) ^ (j + 1) = 2 * 2 ^ j by ring]
  generalize (2 : Int) ^ j = h at *
  have h1 := Int.mul_ediv_add_emod (n + h) (2 * h)
  have h2 := Int.emod_nonneg (n + h) (show 2 * h ≠ 0 by omega)
  have h3 := Int.emod_lt_of_pos (n + h) (show 0 < 2 * h by omega)
  generalize (n + h) / (2 * h) = q at *
  generalize 2 * h * q = z at *
  omega

/-- Rounding is to the nearest integer, and a tie goes away from zero. -/
theorem rhaz_near (n : Int) {k : Nat} (hk : 0 < k) :
    2 * (2 ^ k * rhaz n k - n) ≤ 2 ^ k ∧ -2 ^ k ≤ 2 * (2 ^ k * rhaz n k - n) ∧
      (2 * (2 ^ k * rhaz n k - n) = 2 ^ k → 0 < n) ∧ (2 * (2 ^ k * rhaz n k - n) = -2 ^ k → n < 0) := by
  have hp : (0 : Int) < 2 ^ k := by positivity
  rcases Int.lt_trichotomy n 0 with h | h | h
  · have h1 := rhaz_near_nonneg (n := -n) (by omega) hk
    rw [rhaz_neg, mul_neg] at h1
    omega
  · subst h
    rw [rhaz_of_zero, mul_zero]
    omega
  · have h1 := rhaz_near_nonneg (n := n) (by omega) hk
    omega

/-- Rounding a value that fits 32 bits gives one that fits (R104). -/
theorem rhaz_fits {x : Int} (h : fits32 x = true) (k : Nat) : fits32 (rhaz x k) = true := by
  rw [fits32_iff] at *
  rcases Nat.eq_zero_or_pos k with rfl | hk
  · exact h
  · have hr := rhaz_near x hk
    have hp : (2 : Int) ≤ 2 ^ k := by
      calc (2 : Int) = 2 ^ 1 := by norm_num
        _ ≤ 2 ^ k := by gcongr <;> omega
    generalize (2 : Int) ^ k = d at *
    constructor <;> nlinarith

/-- A register holds INT32_MIN exactly when it is the word 0x80000000. -/
theorem eq_int32Min_iff (w : Word) : w = 0x80000000 ↔ w.toInt = -2147483648 := by
  rw [← BitVec.toInt_inj]
  rfl

/-- The product of two registers: its bounds, with the one pair that exceeds `2^62 - 2^31` (R101). -/
theorem product_bounds (a b : Word) :
    -4611686016279904256 ≤ a.toInt * b.toInt ∧
      (a.toInt * b.toInt ≤ 4611686016279904256 ∨ a = 0x80000000 ∧ b = 0x80000000) := by
  have ha := (fits32_iff _).mp (sintOf_fits a)
  have hb := (fits32_iff _).mp (sintOf_fits b)
  rw [eq_int32Min_iff, eq_int32Min_iff]
  unfold sintOf at ha hb
  generalize a.toInt = x at *
  generalize b.toInt = y at *
  refine ⟨by nlinarith, ?_⟩
  by_contra hh
  rw [not_or, not_and_or] at hh
  rcases lt_or_ge 0 x with hx | hx
  · nlinarith
  · rcases lt_or_ge 0 y with hy | hy
    · nlinarith
    · rcases eq_or_lt_of_le ha.1 with h1 | h1
      · subst h1
        omega
      · nlinarith

/-! The shift of the rescaler, case by case (R104-R106) -/

theorem rdpot_shiftRange {x s : Int} (h : s < -31 ∨ 31 < s) : rdpot x s = .error .shiftRange := if_pos h

theorem rdpot_zero (x : Int) : rdpot x 0 = .ok x := rfl

theorem rdpot_right {x s : Int} (h0 : 0 < s) (h1 : s ≤ 31) : rdpot x s = .ok (rhaz x s.toNat) := by
  unfold rdpot
  rw [if_neg (by omega), if_neg (by omega), if_pos h0]

theorem rdpot_left {x s : Int} (h0 : s < 0) (h1 : -31 ≤ s) (h : fits32 (x * 2 ^ (-s).toNat) = true) :
    rdpot x s = .ok (x * 2 ^ (-s).toNat) := by
  unfold rdpot
  rw [if_neg (by omega), if_neg (by omega), if_neg (by omega), if_pos h]

theorem rdpot_shiftOverflow {x s : Int} (h0 : s < 0) (h1 : -31 ≤ s) (h : fits32 (x * 2 ^ (-s).toNat) = false) :
    rdpot x s = .error .shiftOverflow := by
  unfold rdpot
  rw [if_neg (by omega), if_neg (by omega), if_neg (by omega), if_neg (by simp [h])]

/-- What the shared tail of the transform gives when it answers (R124, R133). -/
theorem scaleAndClamp_ok {p : Params} {a b c : Int} :
    scaleAndClamp p a b = .ok c ↔
      ∃ t, rescale (a * b) (sintOf p.outMult) (sintOf p.outShift) = .ok t ∧ fits32 (t + sintOf p.outOff) = true ∧
        sintOf p.outMin ≤ sintOf p.outMax ∧ c = clampTo (t + sintOf p.outOff) (sintOf p.outMin) (sintOf p.outMax) := by
  unfold scaleAndClamp
  cases rescale (a * b) (sintOf p.outMult) (sintOf p.outShift) with
  | error r => simp
  | ok t =>
    cases h : fits32 (t + sintOf p.outOff) <;> simp [h, clamp_ok]

/-- Under R126 (a) and (b) the corrector does not overflow: the transform is its tail on the two corrected samples. -/
theorem transform_of_params {p : Params} (h : paramViolation p = none) (x y : Byte) :
    transform p x y = scaleAndClamp p (x.toInt + sintOf p.in1Off) (y.toInt + sintOf p.in2Off) := by
  have hp := (paramViolation_none p).mp h
  rw [fits8_iff, fits8_iff] at hp
  have hx := (fits8_iff _).mp (sample_fits x)
  have hy := (fits8_iff _).mp (sample_fits y)
  unfold transform
  rw [h, correct_ok.mpr ⟨(fits32_iff _).mpr (by omega), rfl⟩, correct_ok.mpr ⟨(fits32_iff _).mpr (by omega), rfl⟩]

/-- What the transform gives when it answers lies in the range of the sample type (R125). -/
theorem transform_fits {p : Params} {x y : Byte} {c : Int} (h : transform p x y = .ok c) : fits8 c = true := by
  cases hp : paramViolation p with
  | some r => simp [transform, hp] at h
  | none =>
    rw [transform_of_params hp] at h
    obtain ⟨t, _, _, hle, rfl⟩ := scaleAndClamp_ok.mp h
    have hb := clampTo_bounds (v := t + sintOf p.outOff) hle
    have := (paramViolation_none p).mp hp
    rw [fits8_iff]
    omega

end Sys2Proof.Machine
end

