-- ==== Sys2Proof/Laws/Memory.lean ====
section
/-!
SUPPORT. The laws of memory: reading after writing, and that every memory operation keeps the canonical form and the bounds.
-/
namespace Sys2Proof.Machine
open Sys2Proof

theorem Memory.read_nil (a : Nat) : Memory.read [] a = Memory.unlisted := rfl

theorem Memory.read_cons (x a : Nat) (v : Byte) (m : Memory) :
    Memory.read ((x, v) :: m) a = if x = a then v else Memory.read m a := rfl

theorem Memory.wfFrom_cons (lo x : Nat) (v : Byte) (m : Memory) :
    Memory.wfFrom lo ((x, v) :: m) = true ↔ lo ≤ x ∧ v ≠ Memory.unlisted ∧ Memory.wfFrom (x + 1) m = true := by
  simp [Memory.wfFrom, and_assoc]

/-- The canonical form from a higher address is one from a lower address. -/
theorem Memory.wfFrom_mono {lo lo' : Nat} (h : lo' ≤ lo) {m : Memory} (hm : Memory.wfFrom lo m = true) :
    Memory.wfFrom lo' m = true := by
  cases m with
  | nil => rfl
  | cons c m =>
    obtain ⟨x, v⟩ := c
    rw [Memory.wfFrom_cons] at hm ⊢
    exact ⟨by omega, hm.2⟩

/-- Below its first address a canonical memory lists nothing. -/
theorem Memory.read_below {m : Memory} {lo a : Nat} (hm : Memory.wfFrom lo m = true) (h : a < lo) :
    Memory.read m a = Memory.unlisted := by
  induction m generalizing lo with
  | nil => rfl
  | cons c m ih =>
    obtain ⟨x, v⟩ := c
    rw [Memory.wfFrom_cons] at hm
    rw [Memory.read_cons, if_neg (by omega)]
    exact ih hm.2.2 (by omega)

theorem Memory.read_put_same {m : Memory} {a : Nat} {b : Byte} (h : Memory.read m a = Memory.unlisted) :
    Memory.read (Memory.put a b m) a = b := by
  unfold Memory.put
  split
  · next hb => rw [h, hb]
  · simp [Memory.read_cons]

theorem Memory.read_put_other {m : Memory} {a x : Nat} {b : Byte} (h : x ≠ a) :
    Memory.read (Memory.put a b m) x = Memory.read m x := by
  unfold Memory.put
  split
  · rfl
  · rw [Memory.read_cons, if_neg (Ne.symm h)]

theorem Memory.read_write_same_from {m : Memory} {lo : Nat} (hm : Memory.wfFrom lo m = true) (a : Nat) (b : Byte) :
    Memory.read (Memory.write m a b) a = b := by
  induction m generalizing lo with
  | nil => exact Memory.read_put_same rfl
  | cons c m ih =>
    obtain ⟨x, v⟩ := c
    have h := (Memory.wfFrom_cons lo x v m).mp hm
    simp only [Memory.write]
    split
    · next hlt => exact Memory.read_put_same (Memory.read_below (lo := x) (m := (x, v) :: m)
        ((Memory.wfFrom_cons x x v m).mpr ⟨le_refl x, h.2⟩) hlt)
    · split
      · next heq => exact Memory.read_put_same (Memory.read_below h.2.2 (by omega))
      · next hne => rw [Memory.read_cons, if_neg (Ne.symm hne)]; exact ih h.2.2

/-- A read after a write to the same address gives the byte written. -/
theorem Memory.read_write_same {m : Memory} (hm : Memory.wf m = true) (a : Nat) (b : Byte) :
    Memory.read (Memory.write m a b) a = b :=
  Memory.read_write_same_from hm a b

/-- A write leaves every other address alone. -/
theorem Memory.read_write_other (m : Memory) {a x : Nat} (b : Byte) (h : x ≠ a) :
    Memory.read (Memory.write m a b) x = Memory.read m x := by
  induction m with
  | nil => exact Memory.read_put_other h
  | cons c m ih =>
    obtain ⟨y, v⟩ := c
    simp only [Memory.write]
    split
    · exact Memory.read_put_other h
    · split
      · next heq => rw [Memory.read_put_other h, Memory.read_cons, if_neg (by omega)]
      · rw [Memory.read_cons, Memory.read_cons, ih]

theorem Memory.wfFrom_put {m : Memory} {lo a : Nat} {b : Byte} (h : lo ≤ a) (hm : Memory.wfFrom (a + 1) m = true) :
    Memory.wfFrom lo (Memory.put a b m) = true := by
  unfold Memory.put
  split
  · exact Memory.wfFrom_mono (by omega) hm
  · next hb => exact (Memory.wfFrom_cons lo a b m).mpr ⟨h, hb, hm⟩

theorem Memory.wfFrom_write {m : Memory} {lo : Nat} (hm : Memory.wfFrom lo m = true) {a : Nat} (h : lo ≤ a) (b : Byte) :
    Memory.wfFrom lo (Memory.write m a b) = true := by
  induction m generalizing lo with
  | nil => exact Memory.wfFrom_put h rfl
  | cons c m ih =>
    obtain ⟨x, v⟩ := c
    have h' := (Memory.wfFrom_cons lo x v m).mp hm
    simp only [Memory.write]
    split
    · next hlt => exact Memory.wfFrom_put h ((Memory.wfFrom_cons _ x v m).mpr ⟨by omega, h'.2⟩)
    · split
      · next heq => exact Memory.wfFrom_put h (heq ▸ h'.2.2)
      · next hne => exact (Memory.wfFrom_cons _ x v _).mpr ⟨h'.1, h'.2.1, ih h'.2.2 (by omega)⟩

/-- A write keeps the canonical form. -/
theorem Memory.wf_write {m : Memory} (hm : Memory.wf m = true) (a : Nat) (b : Byte) :
    Memory.wf (Memory.write m a b) = true :=
  Memory.wfFrom_write hm (Nat.zero_le a) b

/-- In a canonical memory a listed address does not read as an unlisted one. -/
theorem Memory.read_head_ne {x : Nat} {v : Byte} {m : Memory} {lo : Nat} (h : Memory.wfFrom lo ((x, v) :: m) = true) :
    Memory.read ((x, v) :: m) x ≠ Memory.unlisted := by
  rw [Memory.read_cons, if_pos rfl]
  exact ((Memory.wfFrom_cons lo x v m).mp h).2.1

theorem Memory.ext_from {m m' : Memory} {lo lo' : Nat} (hm : Memory.wfFrom lo m = true) (hm' : Memory.wfFrom lo' m' = true)
    (h : ∀ a, Memory.read m a = Memory.read m' a) : m = m' := by
  induction m generalizing lo lo' m' with
  | nil =>
    cases m' with
    | nil => rfl
    | cons c m' => obtain ⟨x, v⟩ := c; exact absurd (h x).symm (Memory.read_head_ne hm')
  | cons c m ih =>
    obtain ⟨x, v⟩ := c
    cases m' with
    | nil => exact absurd (h x) (Memory.read_head_ne hm)
    | cons c' m' =>
      obtain ⟨x', v'⟩ := c'
      have h1 := (Memory.wfFrom_cons lo x v m).mp hm
      have h2 := (Memory.wfFrom_cons lo' x' v' m').mp hm'
      have hx : x = x' := by
        rcases Nat.lt_trichotomy x x' with hlt | heq | hgt
        · have := h x
          rw [Memory.read_below (lo := x') ((Memory.wfFrom_cons x' x' v' m').mpr ⟨le_refl _, h2.2⟩) hlt] at this
          exact absurd this (Memory.read_head_ne hm)
        · exact heq
        · have := (h x').symm
          rw [Memory.read_below (lo := x) ((Memory.wfFrom_cons x x v m).mpr ⟨le_refl _, h1.2⟩) hgt] at this
          exact absurd this (Memory.read_head_ne hm')
      subst hx
      have hv : v = v' := by simpa [Memory.read_cons] using h x
      subst hv
      have : m = m' := ih h1.2.2 h2.2.2 fun a => by
        by_cases ha : x = a
        · subst ha
          rw [Memory.read_below h1.2.2 (by omega), Memory.read_below h2.2.2 (by omega)]
        · simpa [Memory.read_cons, ha] using h a
      rw [this]

/-- Canonical memories that read alike everywhere are equal. -/
theorem Memory.ext {m m' : Memory} (hm : Memory.wf m = true) (hm' : Memory.wf m' = true)
    (h : ∀ a, Memory.read m a = Memory.read m' a) : m = m' :=
  Memory.ext_from hm hm' h

/-! Bounds -/

theorem cellsInside_cons (c : Config) (x : Host.Cell) (m : List Host.Cell) :
    cellsInside c (x :: m) = true ↔ x.1 < memSize c ∧ cellsInside c m = true := by
  simp [cellsInside]

theorem Memory.put_inside {c : Config} {m : Memory} {a : Nat} {b : Byte} (ha : a < memSize c)
    (hm : cellsInside c m = true) : cellsInside c (Memory.put a b m) = true := by
  unfold Memory.put
  split
  · exact hm
  · exact (cellsInside_cons c _ m).mpr ⟨ha, hm⟩

/-- A write inside the memory space keeps every listed cell inside it. -/
theorem Memory.write_inside {c : Config} {m : Memory} {a : Nat} {b : Byte} (ha : a < memSize c)
    (hm : cellsInside c m = true) : cellsInside c (Memory.write m a b) = true := by
  induction m with
  | nil => exact Memory.put_inside ha rfl
  | cons x m ih =>
    obtain ⟨y, v⟩ := x
    have h := (cellsInside_cons c (y, v) m).mp hm
    simp only [Memory.write]
    split
    · exact Memory.put_inside ha hm
    · split
      · exact Memory.put_inside ha h.2
      · exact (cellsInside_cons c _ _).mpr ⟨h.1, ih h.2⟩

theorem cellsInside_filter {c : Config} {m : List Host.Cell} (p : Host.Cell → Bool) (hm : cellsInside c m = true) :
    cellsInside c (m.filter p) = true := by
  simp only [cellsInside, List.all_eq_true] at hm ⊢
  exact fun x hx => hm x (List.mem_filter.mp hx).1

/-! The multi-byte operations -/

theorem memWrite_wf {w : Nat} {m : Memory} (hm : Memory.wf m = true) (a : Nat) (v : BitVec w) (n : Nat) :
    Memory.wf (memWrite m a v n) = true := by
  induction n with
  | zero => exact hm
  | succ n ih => exact Memory.wf_write ih _ _

theorem memWrite_inside {w : Nat} {c : Config} {m : Memory} {a n : Nat} (v : BitVec w) (h : a + n ≤ memSize c)
    (hm : cellsInside c m = true) : cellsInside c (memWrite m a v n) = true := by
  induction n with
  | zero => exact hm
  | succ n ih => exact Memory.write_inside (by omega) (ih (by omega))

/-- Outside `[a, a + n)` a multi-byte write changes nothing. -/
theorem memWrite_read_outside {w : Nat} (m : Memory) (a : Nat) (v : BitVec w) (n : Nat) {x : Nat}
    (h : x < a ∨ a + n ≤ x) : Memory.read (memWrite m a v n) x = Memory.read m x := by
  induction n with
  | zero => rfl
  | succ n ih => rw [memWrite, Memory.read_write_other _ _ (by omega), ih (by omega)]

/-- Byte `j` of a multi-byte write stands at address `a + j` (R52). -/
theorem memWrite_read_inside {w : Nat} {m : Memory} (hm : Memory.wf m = true) (a : Nat) (v : BitVec w) {n j : Nat}
    (h : j < n) : Memory.read (memWrite m a v n) (a + j) = v.extractLsb' (8 * j) 8 := by
  induction n with
  | zero => omega
  | succ n ih =>
    by_cases hj : j = n
    · subst hj
      rw [memWrite, Memory.read_write_same (memWrite_wf hm a v j)]
    · rw [memWrite, Memory.read_write_other _ _ (by omega), ih (by omega)]

/-- Byte `j` of a multi-byte read is the byte at address `a + j` (R52). -/
theorem memRead_byte (m : Memory) (a : Nat) {n j : Nat} (h : j < n) :
    (memRead m a n).extractLsb' (8 * j) 8 = Memory.read m (a + j) := by
  induction n generalizing a j with
  | zero => omega
  | succ n ih =>
    show (memRead m (a + 1) n ++ Memory.read m a).extractLsb' (8 * j) 8 = _
    cases j with
    | zero =>
      ext i hi
      simp [BitVec.getElem_extractLsb', BitVec.getLsbD_append, hi]
    | succ j =>
      have := ih (a + 1) (j := j) (by omega)
      rw [show a + (j + 1) = a + 1 + j by omega, ← this]
      ext i hi
      have h8 : ¬ 8 * (j + 1) + i < 8 := by omega
      simp only [BitVec.getElem_extractLsb', BitVec.getLsbD_append, h8, if_false]
      congr 1
      omega

/-- A 1-byte read is the byte. -/
theorem memRead_one (m : Memory) (a : Nat) : memRead m a 1 = Memory.read m a := by
  have h := memRead_byte m a (n := 1) (j := 0) (by omega)
  rw [Nat.add_zero] at h
  rw [← h]
  simp

theorem memFree_wf {m : Memory} (hm : Memory.wf m = true) (a draw n : Nat) : Memory.wf (memFree m a draw n) = true := by
  induction n with
  | zero => exact hm
  | succ n ih => exact Memory.wf_write ih _ _

theorem memFree_inside {c : Config} {m : Memory} {a n : Nat} (draw : Nat) (h : a + n ≤ memSize c)
    (hm : cellsInside c m = true) : cellsInside c (memFree m a draw n) = true := by
  induction n with
  | zero => exact hm
  | succ n ih => exact Memory.write_inside (by omega) (ih (by omega))

/-- Outside the range a free range changes nothing. -/
theorem memFree_read_outside (m : Memory) (a draw n : Nat) {x : Nat} (h : x < a ∨ a + n ≤ x) :
    Memory.read (memFree m a draw n) x = Memory.read m x := by
  induction n with
  | zero => rfl
  | succ n ih => rw [memFree, Memory.read_write_other _ _ (by omega), ih (by omega)]

/-- Inside the range each byte is the free byte of the draw. -/
theorem memFree_read_inside {m : Memory} (hm : Memory.wf m = true) (a draw : Nat) {n j : Nat} (h : j < n) :
    Memory.read (memFree m a draw n) (a + j) = Config.freeByte draw (a + j) := by
  induction n with
  | zero => omega
  | succ n ih =>
    by_cases hj : j = n
    · subst hj
      rw [memFree, Memory.read_write_same (memFree_wf hm a draw j)]
    · rw [memFree, Memory.read_write_other _ _ (by omega), ih (by omega)]

theorem writeBack_wf {m : Memory} (hm : Memory.wf m = true) (cs : List Host.Cell) : Memory.wf (writeBack m cs) = true := by
  induction cs with
  | nil => exact hm
  | cons c cs ih => exact Memory.wf_write ih _ _

theorem writeBack_inside {c : Config} {m : Memory} (hm : cellsInside c m = true) {cs : List Host.Cell}
    (hcs : cellsInside c cs = true) : cellsInside c (writeBack m cs) = true := by
  induction cs with
  | nil => exact hm
  | cons x cs ih =>
    have h := (cellsInside_cons c x cs).mp hcs
    exact Memory.write_inside h.1 (ih h.2)

end Sys2Proof.Machine
end

