-- ==== Sys2Proof/Laws/State.lean ====
section
/-!
SUPPORT. One lemma per field of State per named update, true by rfl, so that no proof unfolds a record update.
-/
namespace Sys2Proof.Machine
open Sys2Proof

/-! setRes -/

@[simp] theorem setRes_cfg (s : State) (v : Word) : (setRes s v).cfg = s.cfg := rfl
@[simp] theorem setRes_ctrl (s : State) (v : Word) : (setRes s v).ctrl = s.ctrl := rfl
@[simp] theorem setRes_status (s : State) (v : Word) : (setRes s v).status = s.status := rfl
@[simp] theorem setRes_res (s : State) (v : Word) : (setRes s v).res = v := rfl
@[simp] theorem setRes_opa (s : State) (v : Word) : (setRes s v).opa = s.opa := rfl
@[simp] theorem setRes_opb (s : State) (v : Word) : (setRes s v).opb = s.opb := rfl
@[simp] theorem setRes_opc (s : State) (v : Word) : (setRes s v).opc = s.opc := rfl
@[simp] theorem setRes_params (s : State) (v : Word) : (setRes s v).params = s.params := rfl
@[simp] theorem setRes_src1 (s : State) (v : Word) : (setRes s v).src1 = s.src1 := rfl
@[simp] theorem setRes_src2 (s : State) (v : Word) : (setRes s v).src2 = s.src2 := rfl
@[simp] theorem setRes_dst (s : State) (v : Word) : (setRes s v).dst = s.dst := rfl
@[simp] theorem setRes_count (s : State) (v : Word) : (setRes s v).count = s.count := rfl
@[simp] theorem setRes_mem (s : State) (v : Word) : (setRes s v).mem = s.mem := rfl
@[simp] theorem setRes_rstLow (s : State) (v : Word) : (setRes s v).rstLow = s.rstLow := rfl
@[simp] theorem setRes_pending (s : State) (v : Word) : (setRes s v).pending = s.pending := rfl
@[simp] theorem setRes_ci (s : State) (v : Word) : (setRes s v).ci = s.ci := rfl
@[simp] theorem setRes_answer (s : State) (v : Word) : (setRes s v).answer = s.answer := rfl
@[simp] theorem setRes_lost (s : State) (v : Word) : (setRes s v).lost = s.lost := rfl
@[simp] theorem setRes_faults (s : State) (v : Word) : (setRes s v).faults = s.faults := rfl
@[simp] theorem setRes_unclean (s : State) (v : Word) : (setRes s v).unclean = s.unclean := rfl
@[simp] theorem setRes_stale (s : State) (v : Word) : (setRes s v).stale = s.stale := rfl
@[simp] theorem setRes_fresh (s : State) (v : Word) : (setRes s v).fresh = s.fresh := rfl

/-! setMem -/

@[simp] theorem setMem_cfg (s : State) (m : Memory) : (setMem s m).cfg = s.cfg := rfl
@[simp] theorem setMem_ctrl (s : State) (m : Memory) : (setMem s m).ctrl = s.ctrl := rfl
@[simp] theorem setMem_status (s : State) (m : Memory) : (setMem s m).status = s.status := rfl
@[simp] theorem setMem_res (s : State) (m : Memory) : (setMem s m).res = s.res := rfl
@[simp] theorem setMem_opa (s : State) (m : Memory) : (setMem s m).opa = s.opa := rfl
@[simp] theorem setMem_opb (s : State) (m : Memory) : (setMem s m).opb = s.opb := rfl
@[simp] theorem setMem_opc (s : State) (m : Memory) : (setMem s m).opc = s.opc := rfl
@[simp] theorem setMem_params (s : State) (m : Memory) : (setMem s m).params = s.params := rfl
@[simp] theorem setMem_src1 (s : State) (m : Memory) : (setMem s m).src1 = s.src1 := rfl
@[simp] theorem setMem_src2 (s : State) (m : Memory) : (setMem s m).src2 = s.src2 := rfl
@[simp] theorem setMem_dst (s : State) (m : Memory) : (setMem s m).dst = s.dst := rfl
@[simp] theorem setMem_count (s : State) (m : Memory) : (setMem s m).count = s.count := rfl
@[simp] theorem setMem_mem (s : State) (m : Memory) : (setMem s m).mem = m := rfl
@[simp] theorem setMem_rstLow (s : State) (m : Memory) : (setMem s m).rstLow = s.rstLow := rfl
@[simp] theorem setMem_pending (s : State) (m : Memory) : (setMem s m).pending = s.pending := rfl
@[simp] theorem setMem_ci (s : State) (m : Memory) : (setMem s m).ci = s.ci := rfl
@[simp] theorem setMem_answer (s : State) (m : Memory) : (setMem s m).answer = s.answer := rfl
@[simp] theorem setMem_lost (s : State) (m : Memory) : (setMem s m).lost = s.lost := rfl
@[simp] theorem setMem_faults (s : State) (m : Memory) : (setMem s m).faults = s.faults := rfl
@[simp] theorem setMem_unclean (s : State) (m : Memory) : (setMem s m).unclean = s.unclean := rfl
@[simp] theorem setMem_stale (s : State) (m : Memory) : (setMem s m).stale = s.stale := rfl
@[simp] theorem setMem_fresh (s : State) (m : Memory) : (setMem s m).fresh = s.fresh := rfl

/-! setAnswer -/

@[simp] theorem setAnswer_cfg (s : State) (a : Option Answer) : (setAnswer s a).cfg = s.cfg := rfl
@[simp] theorem setAnswer_ctrl (s : State) (a : Option Answer) : (setAnswer s a).ctrl = s.ctrl := rfl
@[simp] theorem setAnswer_status (s : State) (a : Option Answer) : (setAnswer s a).status = s.status := rfl
@[simp] theorem setAnswer_res (s : State) (a : Option Answer) : (setAnswer s a).res = s.res := rfl
@[simp] theorem setAnswer_opa (s : State) (a : Option Answer) : (setAnswer s a).opa = s.opa := rfl
@[simp] theorem setAnswer_opb (s : State) (a : Option Answer) : (setAnswer s a).opb = s.opb := rfl
@[simp] theorem setAnswer_opc (s : State) (a : Option Answer) : (setAnswer s a).opc = s.opc := rfl
@[simp] theorem setAnswer_params (s : State) (a : Option Answer) : (setAnswer s a).params = s.params := rfl
@[simp] theorem setAnswer_src1 (s : State) (a : Option Answer) : (setAnswer s a).src1 = s.src1 := rfl
@[simp] theorem setAnswer_src2 (s : State) (a : Option Answer) : (setAnswer s a).src2 = s.src2 := rfl
@[simp] theorem setAnswer_dst (s : State) (a : Option Answer) : (setAnswer s a).dst = s.dst := rfl
@[simp] theorem setAnswer_count (s : State) (a : Option Answer) : (setAnswer s a).count = s.count := rfl
@[simp] theorem setAnswer_mem (s : State) (a : Option Answer) : (setAnswer s a).mem = s.mem := rfl
@[simp] theorem setAnswer_rstLow (s : State) (a : Option Answer) : (setAnswer s a).rstLow = s.rstLow := rfl
@[simp] theorem setAnswer_pending (s : State) (a : Option Answer) : (setAnswer s a).pending = s.pending := rfl
@[simp] theorem setAnswer_ci (s : State) (a : Option Answer) : (setAnswer s a).ci = s.ci := rfl
@[simp] theorem setAnswer_answer (s : State) (a : Option Answer) : (setAnswer s a).answer = a := rfl
@[simp] theorem setAnswer_lost (s : State) (a : Option Answer) : (setAnswer s a).lost = s.lost := rfl
@[simp] theorem setAnswer_faults (s : State) (a : Option Answer) : (setAnswer s a).faults = s.faults := rfl
@[simp] theorem setAnswer_unclean (s : State) (a : Option Answer) : (setAnswer s a).unclean = s.unclean := rfl
@[simp] theorem setAnswer_stale (s : State) (a : Option Answer) : (setAnswer s a).stale = s.stale := rfl
@[simp] theorem setAnswer_fresh (s : State) (a : Option Answer) : (setAnswer s a).fresh = s.fresh := rfl

/-! enterError -/

@[simp] theorem enterError_cfg (s : State) (f : Fault) : (enterError s f).cfg = s.cfg := rfl
@[simp] theorem enterError_ctrl (s : State) (f : Fault) : (enterError s f).ctrl = s.ctrl := rfl
@[simp] theorem enterError_status (s : State) (f : Fault) : (enterError s f).status = s.status ||| statusBit f := rfl
@[simp] theorem enterError_res (s : State) (f : Fault) : (enterError s f).res = s.res := rfl
@[simp] theorem enterError_opa (s : State) (f : Fault) : (enterError s f).opa = s.opa := rfl
@[simp] theorem enterError_opb (s : State) (f : Fault) : (enterError s f).opb = s.opb := rfl
@[simp] theorem enterError_opc (s : State) (f : Fault) : (enterError s f).opc = s.opc := rfl
@[simp] theorem enterError_params (s : State) (f : Fault) : (enterError s f).params = s.params := rfl
@[simp] theorem enterError_src1 (s : State) (f : Fault) : (enterError s f).src1 = s.src1 := rfl
@[simp] theorem enterError_src2 (s : State) (f : Fault) : (enterError s f).src2 = s.src2 := rfl
@[simp] theorem enterError_dst (s : State) (f : Fault) : (enterError s f).dst = s.dst := rfl
@[simp] theorem enterError_count (s : State) (f : Fault) : (enterError s f).count = s.count := rfl
@[simp] theorem enterError_mem (s : State) (f : Fault) : (enterError s f).mem = s.mem := rfl
@[simp] theorem enterError_rstLow (s : State) (f : Fault) : (enterError s f).rstLow = s.rstLow := rfl
@[simp] theorem enterError_pending (s : State) (f : Fault) : (enterError s f).pending = s.pending := rfl
@[simp] theorem enterError_ci (s : State) (f : Fault) : (enterError s f).ci = s.ci := rfl
@[simp] theorem enterError_answer (s : State) (f : Fault) : (enterError s f).answer = s.answer := rfl
@[simp] theorem enterError_lost (s : State) (f : Fault) : (enterError s f).lost = s.lost := rfl
@[simp] theorem enterError_faults (s : State) (f : Fault) : (enterError s f).faults = s.faults ++ [f] := rfl
@[simp] theorem enterError_unclean (s : State) (f : Fault) : (enterError s f).unclean = s.unclean := rfl
@[simp] theorem enterError_stale (s : State) (f : Fault) : (enterError s f).stale = s.stale := rfl
@[simp] theorem enterError_fresh (s : State) (f : Fault) : (enterError s f).fresh = s.fresh := rfl

/-! freeRange -/

@[simp] theorem freeRange_cfg (s : State) (a n : Nat) : (freeRange s a n).cfg = s.cfg := rfl
@[simp] theorem freeRange_ctrl (s : State) (a n : Nat) : (freeRange s a n).ctrl = s.ctrl := rfl
@[simp] theorem freeRange_status (s : State) (a n : Nat) : (freeRange s a n).status = s.status := rfl
@[simp] theorem freeRange_res (s : State) (a n : Nat) : (freeRange s a n).res = s.res := rfl
@[simp] theorem freeRange_opa (s : State) (a n : Nat) : (freeRange s a n).opa = s.opa := rfl
@[simp] theorem freeRange_opb (s : State) (a n : Nat) : (freeRange s a n).opb = s.opb := rfl
@[simp] theorem freeRange_opc (s : State) (a n : Nat) : (freeRange s a n).opc = s.opc := rfl
@[simp] theorem freeRange_params (s : State) (a n : Nat) : (freeRange s a n).params = s.params := rfl
@[simp] theorem freeRange_src1 (s : State) (a n : Nat) : (freeRange s a n).src1 = s.src1 := rfl
@[simp] theorem freeRange_src2 (s : State) (a n : Nat) : (freeRange s a n).src2 = s.src2 := rfl
@[simp] theorem freeRange_dst (s : State) (a n : Nat) : (freeRange s a n).dst = s.dst := rfl
@[simp] theorem freeRange_count (s : State) (a n : Nat) : (freeRange s a n).count = s.count := rfl
@[simp] theorem freeRange_mem (s : State) (a n : Nat) : (freeRange s a n).mem = memFree s.mem a s.fresh n := rfl
@[simp] theorem freeRange_rstLow (s : State) (a n : Nat) : (freeRange s a n).rstLow = s.rstLow := rfl
@[simp] theorem freeRange_pending (s : State) (a n : Nat) : (freeRange s a n).pending = s.pending := rfl
@[simp] theorem freeRange_ci (s : State) (a n : Nat) : (freeRange s a n).ci = s.ci := rfl
@[simp] theorem freeRange_answer (s : State) (a n : Nat) : (freeRange s a n).answer = s.answer := rfl
@[simp] theorem freeRange_lost (s : State) (a n : Nat) : (freeRange s a n).lost = s.lost := rfl
@[simp] theorem freeRange_faults (s : State) (a n : Nat) : (freeRange s a n).faults = s.faults := rfl
@[simp] theorem freeRange_unclean (s : State) (a n : Nat) : (freeRange s a n).unclean = s.unclean := rfl
@[simp] theorem freeRange_stale (s : State) (a n : Nat) : (freeRange s a n).stale = staleAfter s a n := rfl
@[simp] theorem freeRange_fresh (s : State) (a n : Nat) : (freeRange s a n).fresh = s.fresh + 1 := rfl

/-! complete -/

@[simp] theorem complete_cfg (s : State) (a : Answer) : (complete s a).cfg = s.cfg := rfl
@[simp] theorem complete_ctrl (s : State) (a : Answer) : (complete s a).ctrl = s.ctrl := rfl
@[simp] theorem complete_status (s : State) (a : Answer) : (complete s a).status = s.status := rfl
@[simp] theorem complete_res (s : State) (a : Answer) : (complete s a).res = s.res := rfl
@[simp] theorem complete_opa (s : State) (a : Answer) : (complete s a).opa = s.opa := rfl
@[simp] theorem complete_opb (s : State) (a : Answer) : (complete s a).opb = s.opb := rfl
@[simp] theorem complete_opc (s : State) (a : Answer) : (complete s a).opc = s.opc := rfl
@[simp] theorem complete_params (s : State) (a : Answer) : (complete s a).params = s.params := rfl
@[simp] theorem complete_src1 (s : State) (a : Answer) : (complete s a).src1 = s.src1 := rfl
@[simp] theorem complete_src2 (s : State) (a : Answer) : (complete s a).src2 = s.src2 := rfl
@[simp] theorem complete_dst (s : State) (a : Answer) : (complete s a).dst = s.dst := rfl
@[simp] theorem complete_count (s : State) (a : Answer) : (complete s a).count = s.count := rfl
@[simp] theorem complete_mem (s : State) (a : Answer) : (complete s a).mem = s.mem := rfl
@[simp] theorem complete_rstLow (s : State) (a : Answer) : (complete s a).rstLow = s.rstLow := rfl
@[simp] theorem complete_pending (s : State) (a : Answer) : (complete s a).pending = s.pending := rfl
@[simp] theorem complete_ci (s : State) (a : Answer) : (complete s a).ci = s.ci + 1 := rfl
@[simp] theorem complete_answer (s : State) (a : Answer) : (complete s a).answer = some a := rfl
@[simp] theorem complete_lost (s : State) (a : Answer) : (complete s a).lost = false := rfl
@[simp] theorem complete_faults (s : State) (a : Answer) : (complete s a).faults = s.faults := rfl
@[simp] theorem complete_unclean (s : State) (a : Answer) : (complete s a).unclean = s.unclean := rfl
@[simp] theorem complete_stale (s : State) (a : Answer) : (complete s a).stale = s.stale := rfl
@[simp] theorem complete_fresh (s : State) (a : Answer) : (complete s a).fresh = s.fresh := rfl

/-! acceptCommand -/

@[simp] theorem acceptCommand_cfg (s : State) : (acceptCommand s).cfg = s.cfg := rfl
@[simp] theorem acceptCommand_ctrl (s : State) : (acceptCommand s).ctrl = s.ctrl := rfl
@[simp] theorem acceptCommand_status (s : State) : (acceptCommand s).status = s.status := rfl
@[simp] theorem acceptCommand_res (s : State) : (acceptCommand s).res = s.res := rfl
@[simp] theorem acceptCommand_opa (s : State) : (acceptCommand s).opa = s.opa := rfl
@[simp] theorem acceptCommand_opb (s : State) : (acceptCommand s).opb = s.opb := rfl
@[simp] theorem acceptCommand_opc (s : State) : (acceptCommand s).opc = s.opc := rfl
@[simp] theorem acceptCommand_params (s : State) : (acceptCommand s).params = s.params := rfl
@[simp] theorem acceptCommand_src1 (s : State) : (acceptCommand s).src1 = s.src1 := rfl
@[simp] theorem acceptCommand_src2 (s : State) : (acceptCommand s).src2 = s.src2 := rfl
@[simp] theorem acceptCommand_dst (s : State) : (acceptCommand s).dst = s.dst := rfl
@[simp] theorem acceptCommand_count (s : State) : (acceptCommand s).count = s.count := rfl
@[simp] theorem acceptCommand_mem (s : State) : (acceptCommand s).mem = s.mem := rfl
@[simp] theorem acceptCommand_rstLow (s : State) : (acceptCommand s).rstLow = s.rstLow := rfl
@[simp] theorem acceptCommand_pending (s : State) : (acceptCommand s).pending = s.pending := rfl
@[simp] theorem acceptCommand_ci (s : State) : (acceptCommand s).ci = s.ci + 1 := rfl
@[simp] theorem acceptCommand_answer (s : State) : (acceptCommand s).answer = some (.written .okay) := rfl
@[simp] theorem acceptCommand_lost (s : State) : (acceptCommand s).lost = false := rfl
@[simp] theorem acceptCommand_faults (s : State) : (acceptCommand s).faults = s.faults := rfl
@[simp] theorem acceptCommand_unclean (s : State) : (acceptCommand s).unclean = s.unclean := rfl
@[simp] theorem acceptCommand_stale (s : State) : (acceptCommand s).stale = s.stale := rfl
@[simp] theorem acceptCommand_fresh (s : State) : (acceptCommand s).fresh = s.fresh := rfl

/-! takeNext -/

@[simp] theorem takeNext_cfg (s : State) (rest : List HostOp) : (takeNext s rest).cfg = s.cfg := rfl
@[simp] theorem takeNext_ctrl (s : State) (rest : List HostOp) : (takeNext s rest).ctrl = s.ctrl := rfl
@[simp] theorem takeNext_status (s : State) (rest : List HostOp) : (takeNext s rest).status = s.status := rfl
@[simp] theorem takeNext_res (s : State) (rest : List HostOp) : (takeNext s rest).res = s.res := rfl
@[simp] theorem takeNext_opa (s : State) (rest : List HostOp) : (takeNext s rest).opa = s.opa := rfl
@[simp] theorem takeNext_opb (s : State) (rest : List HostOp) : (takeNext s rest).opb = s.opb := rfl
@[simp] theorem takeNext_opc (s : State) (rest : List HostOp) : (takeNext s rest).opc = s.opc := rfl
@[simp] theorem takeNext_params (s : State) (rest : List HostOp) : (takeNext s rest).params = s.params := rfl
@[simp] theorem takeNext_src1 (s : State) (rest : List HostOp) : (takeNext s rest).src1 = s.src1 := rfl
@[simp] theorem takeNext_src2 (s : State) (rest : List HostOp) : (takeNext s rest).src2 = s.src2 := rfl
@[simp] theorem takeNext_dst (s : State) (rest : List HostOp) : (takeNext s rest).dst = s.dst := rfl
@[simp] theorem takeNext_count (s : State) (rest : List HostOp) : (takeNext s rest).count = s.count := rfl
@[simp] theorem takeNext_mem (s : State) (rest : List HostOp) : (takeNext s rest).mem = s.mem := rfl
@[simp] theorem takeNext_rstLow (s : State) (rest : List HostOp) : (takeNext s rest).rstLow = s.rstLow := rfl
@[simp] theorem takeNext_pending (s : State) (rest : List HostOp) : (takeNext s rest).pending = rest := rfl
@[simp] theorem takeNext_ci (s : State) (rest : List HostOp) : (takeNext s rest).ci = s.ci := rfl
@[simp] theorem takeNext_answer (s : State) (rest : List HostOp) : (takeNext s rest).answer = s.answer := rfl
@[simp] theorem takeNext_lost (s : State) (rest : List HostOp) : (takeNext s rest).lost = s.lost := rfl
@[simp] theorem takeNext_faults (s : State) (rest : List HostOp) : (takeNext s rest).faults = s.faults := rfl
@[simp] theorem takeNext_unclean (s : State) (rest : List HostOp) : (takeNext s rest).unclean = s.unclean := rfl
@[simp] theorem takeNext_stale (s : State) (rest : List HostOp) : (takeNext s rest).stale = s.stale := rfl
@[simp] theorem takeNext_fresh (s : State) (rest : List HostOp) : (takeNext s rest).fresh = s.fresh := rfl

/-! unanswered -/

@[simp] theorem unanswered_cfg (s : State) : (unanswered s).cfg = s.cfg := rfl
@[simp] theorem unanswered_ctrl (s : State) : (unanswered s).ctrl = s.ctrl := rfl
@[simp] theorem unanswered_status (s : State) : (unanswered s).status = s.status := rfl
@[simp] theorem unanswered_res (s : State) : (unanswered s).res = s.res := rfl
@[simp] theorem unanswered_opa (s : State) : (unanswered s).opa = s.opa := rfl
@[simp] theorem unanswered_opb (s : State) : (unanswered s).opb = s.opb := rfl
@[simp] theorem unanswered_opc (s : State) : (unanswered s).opc = s.opc := rfl
@[simp] theorem unanswered_params (s : State) : (unanswered s).params = s.params := rfl
@[simp] theorem unanswered_src1 (s : State) : (unanswered s).src1 = s.src1 := rfl
@[simp] theorem unanswered_src2 (s : State) : (unanswered s).src2 = s.src2 := rfl
@[simp] theorem unanswered_dst (s : State) : (unanswered s).dst = s.dst := rfl
@[simp] theorem unanswered_count (s : State) : (unanswered s).count = s.count := rfl
@[simp] theorem unanswered_mem (s : State) : (unanswered s).mem = s.mem := rfl
@[simp] theorem unanswered_rstLow (s : State) : (unanswered s).rstLow = s.rstLow := rfl
@[simp] theorem unanswered_pending (s : State) : (unanswered s).pending = s.pending := rfl
@[simp] theorem unanswered_ci (s : State) : (unanswered s).ci = s.ci := rfl
@[simp] theorem unanswered_answer (s : State) : (unanswered s).answer = none := rfl
@[simp] theorem unanswered_lost (s : State) : (unanswered s).lost = true := rfl
@[simp] theorem unanswered_faults (s : State) : (unanswered s).faults = s.faults := rfl
@[simp] theorem unanswered_unclean (s : State) : (unanswered s).unclean = s.unclean := rfl
@[simp] theorem unanswered_stale (s : State) : (unanswered s).stale = s.stale := rfl
@[simp] theorem unanswered_fresh (s : State) : (unanswered s).fresh = s.fresh := rfl

/-! putOutput -/

@[simp] theorem putOutput_cfg (s : State) (m : Memory) : (putOutput s m).cfg = s.cfg := rfl
@[simp] theorem putOutput_ctrl (s : State) (m : Memory) : (putOutput s m).ctrl = s.ctrl := rfl
@[simp] theorem putOutput_status (s : State) (m : Memory) : (putOutput s m).status = s.status := rfl
@[simp] theorem putOutput_res (s : State) (m : Memory) : (putOutput s m).res = s.res := rfl
@[simp] theorem putOutput_opa (s : State) (m : Memory) : (putOutput s m).opa = s.opa := rfl
@[simp] theorem putOutput_opb (s : State) (m : Memory) : (putOutput s m).opb = s.opb := rfl
@[simp] theorem putOutput_opc (s : State) (m : Memory) : (putOutput s m).opc = s.opc := rfl
@[simp] theorem putOutput_params (s : State) (m : Memory) : (putOutput s m).params = s.params := rfl
@[simp] theorem putOutput_src1 (s : State) (m : Memory) : (putOutput s m).src1 = s.src1 := rfl
@[simp] theorem putOutput_src2 (s : State) (m : Memory) : (putOutput s m).src2 = s.src2 := rfl
@[simp] theorem putOutput_dst (s : State) (m : Memory) : (putOutput s m).dst = s.dst := rfl
@[simp] theorem putOutput_count (s : State) (m : Memory) : (putOutput s m).count = s.count := rfl
@[simp] theorem putOutput_mem (s : State) (m : Memory) : (putOutput s m).mem = m := rfl
@[simp] theorem putOutput_rstLow (s : State) (m : Memory) : (putOutput s m).rstLow = s.rstLow := rfl
@[simp] theorem putOutput_pending (s : State) (m : Memory) : (putOutput s m).pending = s.pending := rfl
@[simp] theorem putOutput_ci (s : State) (m : Memory) : (putOutput s m).ci = s.ci := rfl
@[simp] theorem putOutput_answer (s : State) (m : Memory) : (putOutput s m).answer = s.answer := rfl
@[simp] theorem putOutput_lost (s : State) (m : Memory) : (putOutput s m).lost = s.lost := rfl
@[simp] theorem putOutput_faults (s : State) (m : Memory) : (putOutput s m).faults = s.faults := rfl
@[simp] theorem putOutput_unclean (s : State) (m : Memory) : (putOutput s m).unclean = s.unclean := rfl
@[simp] theorem putOutput_stale (s : State) (m : Memory) : (putOutput s m).stale = staleAfter s (dstOf s) (countOf s) := rfl
@[simp] theorem putOutput_fresh (s : State) (m : Memory) : (putOutput s m).fresh = s.fresh := rfl

/-! resetRegs -/

@[simp] theorem resetRegs_cfg (s : State) : (resetRegs s).cfg = s.cfg := rfl
@[simp] theorem resetRegs_ctrl (s : State) : (resetRegs s).ctrl = Config.ctrlReset s.cfg := rfl
@[simp] theorem resetRegs_status (s : State) : (resetRegs s).status = 0 := rfl
@[simp] theorem resetRegs_res (s : State) : (resetRegs s).res = 0 := rfl
@[simp] theorem resetRegs_opa (s : State) : (resetRegs s).opa = 0 := rfl
@[simp] theorem resetRegs_opb (s : State) : (resetRegs s).opb = 0 := rfl
@[simp] theorem resetRegs_opc (s : State) : (resetRegs s).opc = 0 := rfl
@[simp] theorem resetRegs_params (s : State) : (resetRegs s).params = Params.reset := rfl
@[simp] theorem resetRegs_src1 (s : State) : (resetRegs s).src1 = 0 := rfl
@[simp] theorem resetRegs_src2 (s : State) : (resetRegs s).src2 = 0 := rfl
@[simp] theorem resetRegs_dst (s : State) : (resetRegs s).dst = 0 := rfl
@[simp] theorem resetRegs_count (s : State) : (resetRegs s).count = 0 := rfl
@[simp] theorem resetRegs_mem (s : State) : (resetRegs s).mem = s.mem := rfl
@[simp] theorem resetRegs_rstLow (s : State) : (resetRegs s).rstLow = s.rstLow := rfl
@[simp] theorem resetRegs_pending (s : State) : (resetRegs s).pending = s.pending := rfl
@[simp] theorem resetRegs_ci (s : State) : (resetRegs s).ci = s.ci := rfl
@[simp] theorem resetRegs_answer (s : State) : (resetRegs s).answer = s.answer := rfl
@[simp] theorem resetRegs_lost (s : State) : (resetRegs s).lost = s.lost := rfl
@[simp] theorem resetRegs_faults (s : State) : (resetRegs s).faults = s.faults := rfl
@[simp] theorem resetRegs_unclean (s : State) : (resetRegs s).unclean = s.unclean := rfl
@[simp] theorem resetRegs_stale (s : State) : (resetRegs s).stale = s.stale := rfl
@[simp] theorem resetRegs_fresh (s : State) : (resetRegs s).fresh = s.fresh := rfl

/-! storeByte: the fields it never changes -/

@[simp] theorem storeByte_cfg (s : State) (a : Nat) (b : Byte) : (storeByte s a b).cfg = s.cfg := by
  unfold storeByte; split <;> rfl
@[simp] theorem storeByte_ctrl (s : State) (a : Nat) (b : Byte) : (storeByte s a b).ctrl = s.ctrl := by
  unfold storeByte; split <;> rfl
@[simp] theorem storeByte_status (s : State) (a : Nat) (b : Byte) : (storeByte s a b).status = s.status := by
  unfold storeByte; split <;> rfl
@[simp] theorem storeByte_res (s : State) (a : Nat) (b : Byte) : (storeByte s a b).res = s.res := by
  unfold storeByte; split <;> rfl
@[simp] theorem storeByte_opa (s : State) (a : Nat) (b : Byte) : (storeByte s a b).opa = s.opa := by
  unfold storeByte; split <;> rfl
@[simp] theorem storeByte_opb (s : State) (a : Nat) (b : Byte) : (storeByte s a b).opb = s.opb := by
  unfold storeByte; split <;> rfl
@[simp] theorem storeByte_opc (s : State) (a : Nat) (b : Byte) : (storeByte s a b).opc = s.opc := by
  unfold storeByte; split <;> rfl
@[simp] theorem storeByte_params (s : State) (a : Nat) (b : Byte) : (storeByte s a b).params = s.params := by
  unfold storeByte; split <;> rfl
@[simp] theorem storeByte_src1 (s : State) (a : Nat) (b : Byte) : (storeByte s a b).src1 = s.src1 := by
  unfold storeByte; split <;> rfl
@[simp] theorem storeByte_src2 (s : State) (a : Nat) (b : Byte) : (storeByte s a b).src2 = s.src2 := by
  unfold storeByte; split <;> rfl
@[simp] theorem storeByte_dst (s : State) (a : Nat) (b : Byte) : (storeByte s a b).dst = s.dst := by
  unfold storeByte; split <;> rfl
@[simp] theorem storeByte_count (s : State) (a : Nat) (b : Byte) : (storeByte s a b).count = s.count := by
  unfold storeByte; split <;> rfl
@[simp] theorem storeByte_rstLow (s : State) (a : Nat) (b : Byte) : (storeByte s a b).rstLow = s.rstLow := by
  unfold storeByte; split <;> rfl
@[simp] theorem storeByte_pending (s : State) (a : Nat) (b : Byte) : (storeByte s a b).pending = s.pending := by
  unfold storeByte; split <;> rfl
@[simp] theorem storeByte_ci (s : State) (a : Nat) (b : Byte) : (storeByte s a b).ci = s.ci := by
  unfold storeByte; split <;> rfl
@[simp] theorem storeByte_answer (s : State) (a : Nat) (b : Byte) : (storeByte s a b).answer = s.answer := by
  unfold storeByte; split <;> rfl
@[simp] theorem storeByte_lost (s : State) (a : Nat) (b : Byte) : (storeByte s a b).lost = s.lost := by
  unfold storeByte; split <;> rfl
@[simp] theorem storeByte_faults (s : State) (a : Nat) (b : Byte) : (storeByte s a b).faults = s.faults := by
  unfold storeByte; split <;> rfl

/-! loadByte: the fields it never changes -/

@[simp] theorem loadByte_cfg (s : State) (a : Nat) : (loadByte s a).cfg = s.cfg := by
  unfold loadByte; split <;> rfl
@[simp] theorem loadByte_ctrl (s : State) (a : Nat) : (loadByte s a).ctrl = s.ctrl := by
  unfold loadByte; split <;> rfl
@[simp] theorem loadByte_status (s : State) (a : Nat) : (loadByte s a).status = s.status := by
  unfold loadByte; split <;> rfl
@[simp] theorem loadByte_res (s : State) (a : Nat) : (loadByte s a).res = s.res := by
  unfold loadByte; split <;> rfl
@[simp] theorem loadByte_opa (s : State) (a : Nat) : (loadByte s a).opa = s.opa := by
  unfold loadByte; split <;> rfl
@[simp] theorem loadByte_opb (s : State) (a : Nat) : (loadByte s a).opb = s.opb := by
  unfold loadByte; split <;> rfl
@[simp] theorem loadByte_opc (s : State) (a : Nat) : (loadByte s a).opc = s.opc := by
  unfold loadByte; split <;> rfl
@[simp] theorem loadByte_params (s : State) (a : Nat) : (loadByte s a).params = s.params := by
  unfold loadByte; split <;> rfl
@[simp] theorem loadByte_src1 (s : State) (a : Nat) : (loadByte s a).src1 = s.src1 := by
  unfold loadByte; split <;> rfl
@[simp] theorem loadByte_src2 (s : State) (a : Nat) : (loadByte s a).src2 = s.src2 := by
  unfold loadByte; split <;> rfl
@[simp] theorem loadByte_dst (s : State) (a : Nat) : (loadByte s a).dst = s.dst := by
  unfold loadByte; split <;> rfl
@[simp] theorem loadByte_count (s : State) (a : Nat) : (loadByte s a).count = s.count := by
  unfold loadByte; split <;> rfl
@[simp] theorem loadByte_mem (s : State) (a : Nat) : (loadByte s a).mem = s.mem := by
  unfold loadByte; split <;> rfl
@[simp] theorem loadByte_rstLow (s : State) (a : Nat) : (loadByte s a).rstLow = s.rstLow := by
  unfold loadByte; split <;> rfl
@[simp] theorem loadByte_pending (s : State) (a : Nat) : (loadByte s a).pending = s.pending := by
  unfold loadByte; split <;> rfl
@[simp] theorem loadByte_ci (s : State) (a : Nat) : (loadByte s a).ci = s.ci := by
  unfold loadByte; split <;> rfl
@[simp] theorem loadByte_lost (s : State) (a : Nat) : (loadByte s a).lost = s.lost := by
  unfold loadByte; split <;> rfl
@[simp] theorem loadByte_faults (s : State) (a : Nat) : (loadByte s a).faults = s.faults := by
  unfold loadByte; split <;> rfl
@[simp] theorem loadByte_unclean (s : State) (a : Nat) : (loadByte s a).unclean = s.unclean := by
  unfold loadByte; split <;> rfl
@[simp] theorem loadByte_stale (s : State) (a : Nat) : (loadByte s a).stale = s.stale := by
  unfold loadByte; split <;> rfl

/-! cleanRange: the fields it never changes -/

@[simp] theorem cleanRange_cfg (s : State) (r : Nat × Nat) : (cleanRange s r).cfg = s.cfg := by
  unfold cleanRange; split <;> rfl
@[simp] theorem cleanRange_ctrl (s : State) (r : Nat × Nat) : (cleanRange s r).ctrl = s.ctrl := by
  unfold cleanRange; split <;> rfl
@[simp] theorem cleanRange_status (s : State) (r : Nat × Nat) : (cleanRange s r).status = s.status := by
  unfold cleanRange; split <;> rfl
@[simp] theorem cleanRange_res (s : State) (r : Nat × Nat) : (cleanRange s r).res = s.res := by
  unfold cleanRange; split <;> rfl
@[simp] theorem cleanRange_opa (s : State) (r : Nat × Nat) : (cleanRange s r).opa = s.opa := by
  unfold cleanRange; split <;> rfl
@[simp] theorem cleanRange_opb (s : State) (r : Nat × Nat) : (cleanRange s r).opb = s.opb := by
  unfold cleanRange; split <;> rfl
@[simp] theorem cleanRange_opc (s : State) (r : Nat × Nat) : (cleanRange s r).opc = s.opc := by
  unfold cleanRange; split <;> rfl
@[simp] theorem cleanRange_params (s : State) (r : Nat × Nat) : (cleanRange s r).params = s.params := by
  unfold cleanRange; split <;> rfl
@[simp] theorem cleanRange_src1 (s : State) (r : Nat × Nat) : (cleanRange s r).src1 = s.src1 := by
  unfold cleanRange; split <;> rfl
@[simp] theorem cleanRange_src2 (s : State) (r : Nat × Nat) : (cleanRange s r).src2 = s.src2 := by
  unfold cleanRange; split <;> rfl
@[simp] theorem cleanRange_dst (s : State) (r : Nat × Nat) : (cleanRange s r).dst = s.dst := by
  unfold cleanRange; split <;> rfl
@[simp] theorem cleanRange_count (s : State) (r : Nat × Nat) : (cleanRange s r).count = s.count := by
  unfold cleanRange; split <;> rfl
@[simp] theorem cleanRange_rstLow (s : State) (r : Nat × Nat) : (cleanRange s r).rstLow = s.rstLow := by
  unfold cleanRange; split <;> rfl
@[simp] theorem cleanRange_pending (s : State) (r : Nat × Nat) : (cleanRange s r).pending = s.pending := by
  unfold cleanRange; split <;> rfl
@[simp] theorem cleanRange_ci (s : State) (r : Nat × Nat) : (cleanRange s r).ci = s.ci := by
  unfold cleanRange; split <;> rfl
@[simp] theorem cleanRange_answer (s : State) (r : Nat × Nat) : (cleanRange s r).answer = s.answer := by
  unfold cleanRange; split <;> rfl
@[simp] theorem cleanRange_lost (s : State) (r : Nat × Nat) : (cleanRange s r).lost = s.lost := by
  unfold cleanRange; split <;> rfl
@[simp] theorem cleanRange_faults (s : State) (r : Nat × Nat) : (cleanRange s r).faults = s.faults := by
  unfold cleanRange; split <;> rfl
@[simp] theorem cleanRange_stale (s : State) (r : Nat × Nat) : (cleanRange s r).stale = s.stale := by
  unfold cleanRange; split <;> rfl

/-! invalidateRange: the fields it never changes -/

@[simp] theorem invalidateRange_cfg (s : State) (r : Nat × Nat) : (invalidateRange s r).cfg = s.cfg := by
  unfold invalidateRange; split <;> rfl
@[simp] theorem invalidateRange_ctrl (s : State) (r : Nat × Nat) : (invalidateRange s r).ctrl = s.ctrl := by
  unfold invalidateRange; split <;> rfl
@[simp] theorem invalidateRange_status (s : State) (r : Nat × Nat) : (invalidateRange s r).status = s.status := by
  unfold invalidateRange; split <;> rfl
@[simp] theorem invalidateRange_res (s : State) (r : Nat × Nat) : (invalidateRange s r).res = s.res := by
  unfold invalidateRange; split <;> rfl
@[simp] theorem invalidateRange_opa (s : State) (r : Nat × Nat) : (invalidateRange s r).opa = s.opa := by
  unfold invalidateRange; split <;> rfl
@[simp] theorem invalidateRange_opb (s : State) (r : Nat × Nat) : (invalidateRange s r).opb = s.opb := by
  unfold invalidateRange; split <;> rfl
@[simp] theorem invalidateRange_opc (s : State) (r : Nat × Nat) : (invalidateRange s r).opc = s.opc := by
  unfold invalidateRange; split <;> rfl
@[simp] theorem invalidateRange_params (s : State) (r : Nat × Nat) : (invalidateRange s r).params = s.params := by
  unfold invalidateRange; split <;> rfl
@[simp] theorem invalidateRange_src1 (s : State) (r : Nat × Nat) : (invalidateRange s r).src1 = s.src1 := by
  unfold invalidateRange; split <;> rfl
@[simp] theorem invalidateRange_src2 (s : State) (r : Nat × Nat) : (invalidateRange s r).src2 = s.src2 := by
  unfold invalidateRange; split <;> rfl
@[simp] theorem invalidateRange_dst (s : State) (r : Nat × Nat) : (invalidateRange s r).dst = s.dst := by
  unfold invalidateRange; split <;> rfl
@[simp] theorem invalidateRange_count (s : State) (r : Nat × Nat) : (invalidateRange s r).count = s.count := by
  unfold invalidateRange; split <;> rfl
@[simp] theorem invalidateRange_mem (s : State) (r : Nat × Nat) : (invalidateRange s r).mem = s.mem := by
  unfold invalidateRange; split <;> rfl
@[simp] theorem invalidateRange_rstLow (s : State) (r : Nat × Nat) : (invalidateRange s r).rstLow = s.rstLow := by
  unfold invalidateRange; split <;> rfl
@[simp] theorem invalidateRange_pending (s : State) (r : Nat × Nat) : (invalidateRange s r).pending = s.pending := by
  unfold invalidateRange; split <;> rfl
@[simp] theorem invalidateRange_ci (s : State) (r : Nat × Nat) : (invalidateRange s r).ci = s.ci := by
  unfold invalidateRange; split <;> rfl
@[simp] theorem invalidateRange_answer (s : State) (r : Nat × Nat) : (invalidateRange s r).answer = s.answer := by
  unfold invalidateRange; split <;> rfl
@[simp] theorem invalidateRange_lost (s : State) (r : Nat × Nat) : (invalidateRange s r).lost = s.lost := by
  unfold invalidateRange; split <;> rfl
@[simp] theorem invalidateRange_faults (s : State) (r : Nat × Nat) : (invalidateRange s r).faults = s.faults := by
  unfold invalidateRange; split <;> rfl
@[simp] theorem invalidateRange_fresh (s : State) (r : Nat × Nat) : (invalidateRange s r).fresh = s.fresh := by
  unfold invalidateRange; split <;> rfl

/-! writeReg: the fields no register write changes -/

@[simp] theorem writeReg_cfg (s : State) (w : Word) (r : RegName) : (writeReg s w r).cfg = s.cfg := by
  cases r <;> rfl
@[simp] theorem writeReg_res (s : State) (w : Word) (r : RegName) : (writeReg s w r).res = s.res := by
  cases r <;> rfl
@[simp] theorem writeReg_mem (s : State) (w : Word) (r : RegName) : (writeReg s w r).mem = s.mem := by
  cases r <;> rfl
@[simp] theorem writeReg_rstLow (s : State) (w : Word) (r : RegName) : (writeReg s w r).rstLow = s.rstLow := by
  cases r <;> rfl
@[simp] theorem writeReg_pending (s : State) (w : Word) (r : RegName) : (writeReg s w r).pending = s.pending := by
  cases r <;> rfl
@[simp] theorem writeReg_ci (s : State) (w : Word) (r : RegName) : (writeReg s w r).ci = s.ci := by
  cases r <;> rfl
@[simp] theorem writeReg_answer (s : State) (w : Word) (r : RegName) : (writeReg s w r).answer = s.answer := by
  cases r <;> rfl
@[simp] theorem writeReg_lost (s : State) (w : Word) (r : RegName) : (writeReg s w r).lost = s.lost := by
  cases r <;> rfl
@[simp] theorem writeReg_faults (s : State) (w : Word) (r : RegName) : (writeReg s w r).faults = s.faults := by
  cases r <;> rfl
@[simp] theorem writeReg_unclean (s : State) (w : Word) (r : RegName) : (writeReg s w r).unclean = s.unclean := by
  cases r <;> rfl
@[simp] theorem writeReg_stale (s : State) (w : Word) (r : RegName) : (writeReg s w r).stale = s.stale := by
  cases r <;> rfl
@[simp] theorem writeReg_fresh (s : State) (w : Word) (r : RegName) : (writeReg s w r).fresh = s.fresh := by
  cases r <;> rfl

/-! abortBulk -/

@[simp] theorem abortBulk_cfg (s : State) (a : Nat) : (abortBulk s a).cfg = s.cfg := rfl
@[simp] theorem abortBulk_ctrl (s : State) (a : Nat) : (abortBulk s a).ctrl = s.ctrl := rfl
@[simp] theorem abortBulk_status (s : State) (a : Nat) : (abortBulk s a).status = s.status ||| statusMemErr := rfl
@[simp] theorem abortBulk_res (s : State) (a : Nat) : (abortBulk s a).res = s.res := rfl
@[simp] theorem abortBulk_opa (s : State) (a : Nat) : (abortBulk s a).opa = s.opa := rfl
@[simp] theorem abortBulk_opb (s : State) (a : Nat) : (abortBulk s a).opb = s.opb := rfl
@[simp] theorem abortBulk_opc (s : State) (a : Nat) : (abortBulk s a).opc = s.opc := rfl
@[simp] theorem abortBulk_params (s : State) (a : Nat) : (abortBulk s a).params = s.params := rfl
@[simp] theorem abortBulk_src1 (s : State) (a : Nat) : (abortBulk s a).src1 = s.src1 := rfl
@[simp] theorem abortBulk_src2 (s : State) (a : Nat) : (abortBulk s a).src2 = s.src2 := rfl
@[simp] theorem abortBulk_dst (s : State) (a : Nat) : (abortBulk s a).dst = s.dst := rfl
@[simp] theorem abortBulk_count (s : State) (a : Nat) : (abortBulk s a).count = s.count := rfl
@[simp] theorem abortBulk_mem (s : State) (a : Nat) : (abortBulk s a).mem = memFree s.mem (dstOf s) s.fresh (countOf s) := rfl
@[simp] theorem abortBulk_rstLow (s : State) (a : Nat) : (abortBulk s a).rstLow = s.rstLow := rfl
@[simp] theorem abortBulk_pending (s : State) (a : Nat) : (abortBulk s a).pending = s.pending := rfl
@[simp] theorem abortBulk_ci (s : State) (a : Nat) : (abortBulk s a).ci = s.ci := rfl
@[simp] theorem abortBulk_answer (s : State) (a : Nat) : (abortBulk s a).answer = s.answer := rfl
@[simp] theorem abortBulk_lost (s : State) (a : Nat) : (abortBulk s a).lost = s.lost := rfl
@[simp] theorem abortBulk_faults (s : State) (a : Nat) : (abortBulk s a).faults = s.faults ++ [.memError (BitVec.ofNat 32 a)] := rfl
@[simp] theorem abortBulk_unclean (s : State) (a : Nat) : (abortBulk s a).unclean = s.unclean := rfl
@[simp] theorem abortBulk_stale (s : State) (a : Nat) : (abortBulk s a).stale = staleAfter s (dstOf s) (countOf s) := rfl
@[simp] theorem abortBulk_fresh (s : State) (a : Nat) : (abortBulk s a).fresh = s.fresh + 1 := rfl

/-! fallReset -/

@[simp] theorem fallReset_cfg (s : State) : (fallReset s).cfg = s.cfg := rfl
@[simp] theorem fallReset_ctrl (s : State) : (fallReset s).ctrl = Config.ctrlReset s.cfg := rfl
@[simp] theorem fallReset_status (s : State) : (fallReset s).status = 0 := rfl
@[simp] theorem fallReset_res (s : State) : (fallReset s).res = 0 := rfl
@[simp] theorem fallReset_opa (s : State) : (fallReset s).opa = 0 := rfl
@[simp] theorem fallReset_opb (s : State) : (fallReset s).opb = 0 := rfl
@[simp] theorem fallReset_opc (s : State) : (fallReset s).opc = 0 := rfl
@[simp] theorem fallReset_params (s : State) : (fallReset s).params = Params.reset := rfl
@[simp] theorem fallReset_src1 (s : State) : (fallReset s).src1 = 0 := rfl
@[simp] theorem fallReset_src2 (s : State) : (fallReset s).src2 = 0 := rfl
@[simp] theorem fallReset_dst (s : State) : (fallReset s).dst = 0 := rfl
@[simp] theorem fallReset_count (s : State) : (fallReset s).count = 0 := rfl
@[simp] theorem fallReset_mem (s : State) : (fallReset s).mem = s.mem := rfl
@[simp] theorem fallReset_rstLow (s : State) : (fallReset s).rstLow = true := rfl
@[simp] theorem fallReset_pending (s : State) : (fallReset s).pending = s.pending := rfl
@[simp] theorem fallReset_ci (s : State) : (fallReset s).ci = s.ci := rfl
@[simp] theorem fallReset_answer (s : State) : (fallReset s).answer = none := rfl
@[simp] theorem fallReset_lost (s : State) : (fallReset s).lost = s.lost := rfl
@[simp] theorem fallReset_faults (s : State) : (fallReset s).faults = s.faults := rfl
@[simp] theorem fallReset_unclean (s : State) : (fallReset s).unclean = s.unclean := rfl
@[simp] theorem fallReset_stale (s : State) : (fallReset s).stale = s.stale := rfl
@[simp] theorem fallReset_fresh (s : State) : (fallReset s).fresh = s.fresh := rfl

/-! cutState -/

@[simp] theorem cutState_cfg (s : State) : (cutState s).cfg = s.cfg := rfl
@[simp] theorem cutState_ctrl (s : State) : (cutState s).ctrl = Config.ctrlReset s.cfg := rfl
@[simp] theorem cutState_status (s : State) : (cutState s).status = 0 := rfl
@[simp] theorem cutState_res (s : State) : (cutState s).res = 0 := rfl
@[simp] theorem cutState_opa (s : State) : (cutState s).opa = 0 := rfl
@[simp] theorem cutState_opb (s : State) : (cutState s).opb = 0 := rfl
@[simp] theorem cutState_opc (s : State) : (cutState s).opc = 0 := rfl
@[simp] theorem cutState_params (s : State) : (cutState s).params = Params.reset := rfl
@[simp] theorem cutState_src1 (s : State) : (cutState s).src1 = 0 := rfl
@[simp] theorem cutState_src2 (s : State) : (cutState s).src2 = 0 := rfl
@[simp] theorem cutState_dst (s : State) : (cutState s).dst = 0 := rfl
@[simp] theorem cutState_count (s : State) : (cutState s).count = 0 := rfl
@[simp] theorem cutState_mem (s : State) : (cutState s).mem = memFree s.mem (dstOf s) s.fresh (countOf s) := rfl
@[simp] theorem cutState_rstLow (s : State) : (cutState s).rstLow = true := rfl
@[simp] theorem cutState_pending (s : State) : (cutState s).pending = s.pending := rfl
@[simp] theorem cutState_ci (s : State) : (cutState s).ci = s.ci := rfl
@[simp] theorem cutState_answer (s : State) : (cutState s).answer = none := rfl
@[simp] theorem cutState_lost (s : State) : (cutState s).lost = true := rfl
@[simp] theorem cutState_faults (s : State) : (cutState s).faults = s.faults ++ [.resetDuringCommand] := rfl
@[simp] theorem cutState_unclean (s : State) : (cutState s).unclean = s.unclean := rfl
@[simp] theorem cutState_stale (s : State) : (cutState s).stale = staleAfter s (dstOf s) (countOf s) := rfl
@[simp] theorem cutState_fresh (s : State) : (cutState s).fresh = s.fresh + 1 := rfl

/-! riseReset: the fields it never changes -/

@[simp] theorem riseReset_cfg (s : State) : (riseReset s).cfg = s.cfg := by
  unfold riseReset; split <;> rfl
@[simp] theorem riseReset_mem (s : State) : (riseReset s).mem = s.mem := by
  unfold riseReset; split <;> rfl
@[simp] theorem riseReset_pending (s : State) : (riseReset s).pending = s.pending := by
  unfold riseReset; split <;> rfl
@[simp] theorem riseReset_ci (s : State) : (riseReset s).ci = s.ci := by
  unfold riseReset; split <;> rfl
@[simp] theorem riseReset_lost (s : State) : (riseReset s).lost = s.lost := by
  unfold riseReset; split <;> rfl
@[simp] theorem riseReset_faults (s : State) : (riseReset s).faults = s.faults := by
  unfold riseReset; split <;> rfl
@[simp] theorem riseReset_unclean (s : State) : (riseReset s).unclean = s.unclean := by
  unfold riseReset; split <;> rfl
@[simp] theorem riseReset_stale (s : State) : (riseReset s).stale = s.stale := by
  unfold riseReset; split <;> rfl
@[simp] theorem riseReset_fresh (s : State) : (riseReset s).fresh = s.fresh := by
  unfold riseReset; split <;> rfl

end Sys2Proof.Machine
end

