-- ==== Sys2Proof/Laws/Ops.lean ====
section
/-!
SUPPORT. For each shared operation, what it can do, said once.
-/
namespace Sys2Proof.Machine
open Sys2Proof

/-! The platform and the window -/

theorem rangesMeet_iff (a n b k : Nat) : rangesMeet a n b k = true ↔ ∃ x, a ≤ x ∧ x < a + n ∧ b ≤ x ∧ x < b + k := by
  simp only [rangesMeet, Bool.and_eq_true, decide_eq_true_eq]
  constructor
  · intro h
    refine ⟨max a b, ?_, ?_, ?_, ?_⟩ <;> omega
  · rintro ⟨x, h⟩
    omega

/-- A range inside another meets no more than it does. -/
theorem mapMeets_mono {c : Config} {kind : RegionKind} {a n a' n' : Nat} (h1 : a' ≤ a) (h2 : a + n ≤ a' + n')
    (h : mapMeets c kind a' n' = false) : mapMeets c kind a n = false := by
  simp only [mapMeets, List.any_eq_false, Bool.and_eq_true, decide_eq_true_eq, not_and, Bool.not_eq_true] at h ⊢
  intro r hr hk
  have := h r hr hk
  rw [← Bool.not_eq_true, rangesMeet_iff] at this ⊢
  exact fun ⟨x, hx⟩ => this ⟨x, by omega⟩

/-- A range meets a region of a kind exactly when one of its bytes does. -/
theorem mapMeets_iff (c : Config) (kind : RegionKind) (a n : Nat) :
    mapMeets c kind a n = true ↔ ∃ i, i < n ∧ mapMeets c kind (a + i) 1 = true := by
  simp only [mapMeets, List.any_eq_true, Bool.and_eq_true, decide_eq_true_eq, rangesMeet_iff]
  constructor
  · rintro ⟨r, hr, hk, x, hx⟩
    exact ⟨x - a, by omega, r, hr, hk, x, by omega⟩
  · rintro ⟨i, h1, r, hr, hk, y, hy⟩
    exact ⟨r, hr, hk, y, by omega⟩

/-- A register of the window is found at its own offset (R24). -/
theorem regAt_regOffset (r : RegName) : regAt (regOffset r) = some r := by
  cases r <;> rfl

/-- The window offset of `BASE + off` is `off` (R24). -/
theorem windowOffset_base (c : Config) (off : Byte) : windowOffset c (c.base + off.toNat) = some off := by
  have _h : off.toNat < 256 := off.isLt
  unfold windowOffset
  rw [if_pos (by omega), Nat.add_sub_cancel_left]
  simp

/-- Every register stands at a legal offset for a 32-bit access (R25). -/
theorem accessLegal_regOffset (r : RegName) : accessLegal 32 (regOffset r) = true := by
  cases r <;> rfl

theorem addrBits_toNat (c : Config) (w : Word) : (addrBits c w).toNat = w.toNat % memSize c := by
  unfold addrBits memSize
  rw [BitVec.toNat_ofNat]
  apply Nat.mod_eq_of_lt
  have : w.toNat < 2 ^ 32 := w.isLt
  exact lt_of_le_of_lt (Nat.mod_le _ _) this

theorem addrBits_idem (c : Config) (w : Word) : addrBits c (addrBits c w) = addrBits c w := by
  apply BitVec.eq_of_toNat_eq
  rw [addrBits_toNat, addrBits_toNat, Nat.mod_mod]

/-! Results -/

/-- A command that writes RES or violates its contract gives a next state exactly when its operation gives a word. -/
theorem finish_next {s t : State} {r : Except Violation Word} :
    finish s r = .next t ↔ ∃ v, r = .ok v ∧ t = setRes s v := by
  cases r with
  | ok v => simp [finish, eq_comm]
  | error e => simp [finish, violate]

/-- The bulk loop, one iteration taken apart. -/
theorem bulkLoop_succ_ok {body : Nat → Memory → Except BulkStop Memory} {count start : Nat} {m m' : Memory} :
    bulkLoop body (count + 1) start m = .ok m' ↔ ∃ m1, body start m = .ok m1 ∧ bulkLoop body count (start + 1) m1 = .ok m' := by
  simp only [bulkLoop]
  cases body start m <;> simp

/-- What every iteration keeps, the loop keeps. -/
theorem bulkLoop_keeps {body : Nat → Memory → Except BulkStop Memory} {P : Memory → Prop} {count start : Nat}
    (hb : ∀ k m m1, start ≤ k → k < start + count → P m → body k m = .ok m1 → P m1) {m m' : Memory} (hm : P m)
    (h : bulkLoop body count start m = .ok m') : P m' := by
  induction count generalizing start m with
  | zero => simp only [bulkLoop, Except.ok.injEq] at h; exact h ▸ hm
  | succ n ih =>
    obtain ⟨m1, h1, h2⟩ := bulkLoop_succ_ok.mp h
    exact ih (fun k m m1 _ _ => hb k m m1 (by omega) (by omega)) (hb start m m1 (le_refl _) (by omega) hm h1) h2

/-- What holds before the first iteration and is carried over by each one that completes holds after the loop. -/
theorem bulkLoop_invariant {body : Nat → Memory → Except BulkStop Memory} {P : Nat → Memory → Prop} {count start : Nat}
    (hb : ∀ k m m1, start ≤ k → k < start + count → P k m → body k m = .ok m1 → P (k + 1) m1) {m m' : Memory} (hm : P start m)
    (h : bulkLoop body count start m = .ok m') : P (start + count) m' := by
  induction count generalizing start m with
  | zero => simp only [bulkLoop, Except.ok.injEq] at h; exact h ▸ hm
  | succ n ih =>
    obtain ⟨m1, h1, h2⟩ := bulkLoop_succ_ok.mp h
    rw [← Nat.succ_add_eq_add_succ]
    exact ih (fun k m m1 _ _ => hb k m m1 (by omega) (by omega)) (hb start m m1 (le_refl _) (by omega) hm h1) h2

/-- A loop completes when each iteration does from what holds before it. -/
theorem bulkLoop_completes {body : Nat → Memory → Except BulkStop Memory} {P : Nat → Memory → Prop} {count start : Nat}
    (hb : ∀ k m, start ≤ k → k < start + count → P k m → ∃ m1, body k m = .ok m1 ∧ P (k + 1) m1) {m : Memory}
    (hm : P start m) : ∃ m', bulkLoop body count start m = .ok m' ∧ P (start + count) m' := by
  induction count generalizing start m with
  | zero => exact ⟨m, rfl, hm⟩
  | succ n ih =>
    obtain ⟨m1, h1, h2⟩ := hb start m (le_refl _) (by omega) hm
    obtain ⟨m2, h3, h4⟩ := ih (fun k m _ _ => hb k m (by omega) (by omega)) h2
    exact ⟨m2, bulkLoop_succ_ok.mpr ⟨m1, h1, h3⟩, Nat.succ_add_eq_add_succ start n ▸ h4⟩

/-- A loop whose iterations before `j` complete and whose iteration `j` stops, stops so. -/
theorem bulkLoop_stops {body : Nat → Memory → Except BulkStop Memory} {P : Memory → Prop} {count start j : Nat} {e : BulkStop}
    (h1 : start ≤ j) (h2 : j < start + count) (hb : ∀ k m, start ≤ k → k < j → P m → ∃ m1, body k m = .ok m1 ∧ P m1)
    (he : ∀ m, P m → body j m = .error e) {m : Memory} (hm : P m) : bulkLoop body count start m = .error e := by
  induction count generalizing start m with
  | zero => omega
  | succ n ih =>
    rw [bulkLoop]
    by_cases hj : start = j
    · subst hj
      rw [he m hm]
    · obtain ⟨m1, h3, h4⟩ := hb start m (le_refl _) (by omega) hm
      rw [h3]
      exact ih (by omega) (by omega) (fun k m hk => hb k m (by omega)) h4

/-- Loops whose bodies agree, iteration by iteration, agree. -/
theorem bulkLoop_congr {body body' : Nat → Memory → Except BulkStop Memory} {count start start' : Nat}
    (h : ∀ k m, k < count → body (start + k) m = body' (start' + k) m) (m : Memory) :
    bulkLoop body count start m = bulkLoop body' count start' m := by
  induction count generalizing start start' m with
  | zero => rfl
  | succ n ih =>
    have h0 := h 0 m (by omega)
    rw [Nat.add_zero, Nat.add_zero] at h0
    rw [bulkLoop, bulkLoop, h0]
    cases body' start' m with
    | error e => rfl
    | ok m1 =>
      refine ih (fun k m hk => ?_) m1
      rw [Nat.add_right_comm, Nat.add_right_comm start', Nat.add_assoc, Nat.add_assoc start']
      exact h (k + 1) m (by omega)

/-- A loop over a sum of counts is a loop after a loop. -/
theorem bulkLoop_add (body : Nat → Memory → Except BulkStop Memory) (c1 c2 start : Nat) (m : Memory) :
    bulkLoop body (c1 + c2) start m =
      (match bulkLoop body c1 start m with
       | .error e => .error e
       | .ok m' => bulkLoop body c2 (start + c1) m') := by
  induction c1 generalizing start m with
  | zero => simp [bulkLoop]
  | succ n ih =>
    rw [Nat.add_right_comm, bulkLoop, bulkLoop]
    cases body start m with
    | error e => rfl
    | ok m1 =>
      simp only [ih]
      rw [show start + 1 + n = start + (n + 1) by omega]

theorem portRead_ok {c : Config} {m : Memory} {a n : Nat} {v : BitVec (8 * n)} :
    portRead c m a n = .ok v ↔ readRefused c a n = false ∧ v = memRead m a n := by
  unfold portRead
  cases readRefused c a n <;> simp [eq_comm]

theorem portWrite_ok {w : Nat} {c : Config} {m m' : Memory} {a n : Nat} {v : BitVec w} :
    portWrite c m a n v = .ok m' ↔ writeRefused c a n = false ∧ m' = memWrite m a v n := by
  unfold portWrite
  cases writeRefused c a n <;> simp [eq_comm]

/-- A packed group that completes wrote the packed transform of the two words it read (R142). -/
theorem packedGroup_ok {s : State} {k : Nat} {m m' : Memory} :
    packedGroup s k m = .ok m' ↔
      readRefused s.cfg (src1Of s + 4 * k) 4 = false ∧ readRefused s.cfg (src2Of s + 4 * k) 4 = false ∧
        writeRefused s.cfg (dstOf s + 4 * k) 4 = false ∧
        ∃ r, packedTransform s.params (memRead m (src1Of s + 4 * k) 4) (memRead m (src2Of s + 4 * k) 4) = .ok r ∧
          m' = memWrite m (dstOf s + 4 * k) r 4 := by
  unfold packedGroup
  rcases ha : portRead s.cfg m (src1Of s + 4 * k) 4 with e | a
  · have : readRefused s.cfg (src1Of s + 4 * k) 4 = true := by
      by_contra hf
      simp [portRead, Bool.not_eq_true _ ▸ hf] at ha
    simp [this]
  · rw [portRead_ok] at ha
    rcases hb : portRead s.cfg m (src2Of s + 4 * k) 4 with e | b
    · have : readRefused s.cfg (src2Of s + 4 * k) 4 = true := by
        by_contra hf
        simp [portRead, Bool.not_eq_true _ ▸ hf] at hb
      simp [this]
    · rw [portRead_ok] at hb
      obtain ⟨ha1, rfl⟩ := ha
      obtain ⟨hb1, rfl⟩ := hb
      simp only [ha1, hb1, true_and]
      cases packedTransform s.params (memRead m (src1Of s + 4 * k) 4) (memRead m (src2Of s + 4 * k) 4) with
      | error r => simp
      | ok r => simp [portWrite_ok]

/-- A scalar element that completes wrote the transform of the two bytes it read (R143). -/
theorem scalarElement_ok {s : State} {i : Nat} {m m' : Memory} :
    scalarElement s i m = .ok m' ↔
      readRefused s.cfg (src1Of s + i) 1 = false ∧ readRefused s.cfg (src2Of s + i) 1 = false ∧
        writeRefused s.cfg (dstOf s + i) 1 = false ∧
        ∃ c, transform s.params (memRead m (src1Of s + i) 1) (memRead m (src2Of s + i) 1) = .ok c ∧
          m' = memWrite m (dstOf s + i) (bits8 c) 1 := by
  unfold scalarElement
  rcases ha : portRead s.cfg m (src1Of s + i) 1 with e | a
  · have : readRefused s.cfg (src1Of s + i) 1 = true := by
      by_contra hf
      simp [portRead, Bool.not_eq_true _ ▸ hf] at ha
    simp [this]
  · rw [portRead_ok] at ha
    rcases hb : portRead s.cfg m (src2Of s + i) 1 with e | b
    · have : readRefused s.cfg (src2Of s + i) 1 = true := by
        by_contra hf
        simp [portRead, Bool.not_eq_true _ ▸ hf] at hb
      simp [this]
    · rw [portRead_ok] at hb
      obtain ⟨ha1, rfl⟩ := ha
      obtain ⟨hb1, rfl⟩ := hb
      simp only [ha1, hb1, true_and]
      cases transform s.params (memRead m (src1Of s + i) 1) (memRead m (src2Of s + i) 1) with
      | error r => simp
      | ok c => simp [portWrite_ok]

/-- The three ways a MULTIPLY can end (R140). -/
theorem execMultiply_cases (s : State) :
    (∃ m, bulkResult s = .ok m ∧ execMultiply s = .next (setRes (putOutput s m) 0)) ∨
      (∃ r, bulkResult s = .error (.contract r) ∧ execMultiply s = .fault (.contractViolation r)) ∨
      (∃ a, bulkResult s = .error (.portError a) ∧ execMultiply s = .next (abortBulk s a)) := by
  unfold execMultiply
  rcases h : bulkResult s with e | m
  · cases e with
    | contract r => exact .inr (.inl ⟨r, rfl, rfl⟩)
    | portError a => exact .inr (.inr ⟨a, rfl, rfl⟩)
  · exact .inl ⟨m, rfl, rfl⟩

/-! The host's operations -/

/-- A legal write at a register's host address goes to that register (R24, R25). -/
theorem hostRegWrite_reg {s : State} (h : s.rstLow = false) (r : RegName) (w : Word) :
    hostRegWrite s (s.cfg.base + (regOffset r).toNat) 32 w = writeOffset s (regOffset r) w := by
  simp [hostRegWrite, windowOffset_base, h, accessLegal_regOffset]

/-- A legal read at a register's host address answers its value (R24, R25, R28). -/
theorem hostRegRead_reg {s : State} (h : s.rstLow = false) (r : RegName) :
    hostRegRead s (s.cfg.base + (regOffset r).toNat) 32 = .next (complete s (.readData .okay (readReg s r))) := by
  simp [hostRegRead, windowOffset_base, h, accessLegal_regOffset, readOffset, regAt_regOffset]

/-- A CMD write runs its word as a command (R29). -/
theorem perform_cmdWrite {s : State} (h : s.rstLow = false) (w : Word) :
    perform (cmdWrite s.cfg w) s = runCommand (acceptCommand s) w := by
  simp [perform, cmdWrite, hostRegWrite_reg h, writeOffset, regAt_regOffset]

/-- A write to a register other than CMD only writes the register (R27, R28). -/
theorem perform_regWrite {s : State} (h : s.rstLow = false) {r : RegName} (hr : r ≠ .cmd) (w : Word) :
    perform (.regWrite (s.cfg.base + (regOffset r).toNat) 32 w) s =
      .next (writeReg (complete s (.written .okay)) w r) := by
  simp only [perform, hostRegWrite_reg h, writeOffset, regAt_regOffset]

/-- The step is idle, or one operation of the host. -/
theorem step_cases (s : State) :
    (s.pending = [] ∧ step s = .next s) ∨
      ∃ op rest, s.pending = op :: rest ∧ step s = perform op (takeNext s rest) := by
  unfold step
  cases s.pending with
  | nil => exact .inl ⟨rfl, rfl⟩
  | cons op rest => exact .inr ⟨op, rest, rfl, rfl⟩

end Sys2Proof.Machine
end

