-- ==== Sys2Proof/Laws/Bulk.lean ====
section
/-!
SUPPORT. What a MULTIPLY does to memory, said once: where its loops write, and that they keep the canonical form and the bounds.
-/
namespace Sys2Proof.Machine
open Sys2Proof

/-- What holds of the memory inside and after MULTIPLY's loops: it is as before outside the output range, canonical if it
was, and inside the memory space if it was. -/
def BulkKeeps (s : State) (m m' : Memory) : Prop :=
  (∀ a, a < dstOf s ∨ dstOf s + countOf s ≤ a → Memory.read m' a = Memory.read m a) ∧
    (Memory.wf m = true → Memory.wf m' = true) ∧
    (dstOf s + countOf s ≤ memSize s.cfg → cellsInside s.cfg m = true → cellsInside s.cfg m' = true)

theorem BulkKeeps.refl (s : State) (m : Memory) : BulkKeeps s m m := ⟨fun _ _ => rfl, id, fun _ => id⟩

theorem BulkKeeps.trans {s : State} {m m1 m2 : Memory} (h1 : BulkKeeps s m m1) (h2 : BulkKeeps s m1 m2) : BulkKeeps s m m2 :=
  ⟨fun a ha => (h2.1 a ha).trans (h1.1 a ha), fun h => h2.2.1 (h1.2.1 h), fun hd h => h2.2.2 hd (h1.2.2 hd h)⟩

/-- A write inside the output range keeps what the loops keep. -/
theorem memWrite_keeps {w : Nat} {s : State} (m : Memory) (v : BitVec w) {a n : Nat} (h1 : dstOf s ≤ a)
    (h2 : a + n ≤ dstOf s + countOf s) : BulkKeeps s m (memWrite m a v n) :=
  ⟨fun x hx => memWrite_read_outside m a v n (by omega), fun h => memWrite_wf h a v n,
    fun hd h => memWrite_inside v (by omega) h⟩

/-- Four times the number of groups is at most the count (R141). -/
theorem groups_le (s : State) : 4 * groupsOf s ≤ countOf s := by
  unfold groupsOf
  split <;> omega

theorem packedGroup_keeps {s : State} {k : Nat} (hk : k < groupsOf s) {m m' : Memory} (h : packedGroup s k m = .ok m') :
    BulkKeeps s m m' := by
  obtain ⟨_, _, _, r, _, rfl⟩ := packedGroup_ok.mp h
  have := groups_le s
  exact memWrite_keeps m r (by omega) (by omega)

theorem scalarElement_keeps {s : State} {i : Nat} (hi : i < countOf s) {m m' : Memory} (h : scalarElement s i m = .ok m') :
    BulkKeeps s m m' := by
  obtain ⟨_, _, _, c, _, rfl⟩ := scalarElement_ok.mp h
  exact memWrite_keeps m _ (by omega) (by omega)

/-- The two loops write inside the output range alone. -/
theorem bulkLoops_keeps {s : State} {m : Memory} (h : bulkLoops s = .ok m) : BulkKeeps s s.mem m := by
  unfold bulkLoops at h
  cases h1 : bulkLoop (packedGroup s) (groupsOf s) 0 s.mem with
  | error e => simp [h1] at h
  | ok m1 =>
    simp only [h1] at h
    have hg := groups_le s
    exact BulkKeeps.trans
      (bulkLoop_keeps (P := BulkKeeps s s.mem)
        (fun k _ _ _ hk hp hb => hp.trans (packedGroup_keeps (by omega) hb)) (BulkKeeps.refl s _) h1)
      (bulkLoop_keeps (P := BulkKeeps s m1)
        (fun k _ _ _ hk hp hb => hp.trans (scalarElement_keeps (by omega) hb)) (BulkKeeps.refl s _) h)

/-- A MULTIPLY that completes did nothing, for COUNT = 0, or passed its checks and ran its loops. -/
theorem bulkResult_ok {s : State} {m : Memory} :
    bulkResult s = .ok m ↔ (countOf s = 0 ∧ m = s.mem) ∨ (countOf s ≠ 0 ∧ bulkViolation s = none ∧ bulkLoops s = .ok m) := by
  unfold bulkResult
  by_cases hn : countOf s = 0
  · simp [hn, eq_comm]
  · cases hv : bulkViolation s <;> simp [hn]

theorem bulkResult_keeps {s : State} {m : Memory} (h : bulkResult s = .ok m) : BulkKeeps s s.mem m := by
  rcases bulkResult_ok.mp h with ⟨_, rfl⟩ | ⟨_, _, hl⟩
  · exact BulkKeeps.refl s _
  · exact bulkLoops_keeps hl

/-- Past the first check the output range lies in memory (R60). -/
theorem dst_inside {s : State} (h : bulkViolation s = none ∨ countOf s = 0) :
    dstOf s + countOf s ≤ memSize s.cfg := by
  rcases h with h | h
  · unfold bulkViolation at h
    by_contra hd
    simp only [not_le] at hd
    simp [hd] at h
  · rw [h, dstOf, addrBits_toNat]
    exact le_of_lt (Nat.mod_lt _ (Nat.two_pow_pos _))

/-- Past the aliasing check no output byte is an input byte (R61). -/
theorem noAlias_of_checks {s : State} (h : bulkViolation s = none) {i j : Nat} (hi : i < countOf s) (hj : j < countOf s) :
    dstOf s + i ≠ src1Of s + j ∧ dstOf s + i ≠ src2Of s + j := by
  unfold bulkViolation at h
  simp only at h
  split_ifs at h with _ h2
  rw [Bool.or_eq_true, rangesMeet_iff, rangesMeet_iff] at h2
  exact ⟨fun e => h2 (.inl ⟨dstOf s + i, by omega⟩), fun e => h2 (.inr ⟨dstOf s + i, by omega⟩)⟩

/-- A MULTIPLY that ends other than in a contract violation has its output range in memory. -/
theorem dst_inside_of_result {s : State} (h : ∀ r, bulkResult s ≠ .error (.contract r)) :
    dstOf s + countOf s ≤ memSize s.cfg := by
  apply dst_inside
  by_cases hn : countOf s = 0
  · exact .inr hn
  · refine .inl ?_
    cases hv : bulkViolation s with
    | none => rfl
    | some r => exact absurd (by simp [bulkResult, hn, hv]) (h r)

/-- A MULTIPLY of no elements leaves the host's cache as it was (R144). -/
@[simp] theorem staleAfter_zero (s : State) (a : Nat) : staleAfter s a 0 = s.stale := by
  simp [staleAfter]

/-! The units of MULTIPLY: its packed groups, then its scalar elements -/

/-- Unit `j` of MULTIPLY as its loops perform it (R140, R142, R143). -/
def unitBody (s : State) (j : Nat) (m : Memory) : Except BulkStop Memory :=
  if j < groupsOf s then packedGroup s j m else scalarElement s (unitStart s j) m

/-- A unit lies inside the count. -/
theorem unit_inside {s : State} {j : Nat} (h : j < unitsOf s) : unitStart s j + unitSize s j ≤ countOf s := by
  have := groups_le s
  unfold unitsOf at h
  unfold unitStart unitSize
  split <;> omega

/-- The two loops are one loop over the units. -/
theorem bulkLoops_units (s : State) : bulkLoops s = bulkLoop (unitBody s) (unitsOf s) 0 s.mem := by
  have hg : ∀ m, bulkLoop (packedGroup s) (groupsOf s) 0 m = bulkLoop (unitBody s) (groupsOf s) 0 m :=
    bulkLoop_congr fun k m hk => by simp [unitBody, hk]
  have hs : ∀ m, bulkLoop (scalarElement s) (countOf s - 4 * groupsOf s) (4 * groupsOf s) m =
      bulkLoop (unitBody s) (countOf s - 4 * groupsOf s) (0 + groupsOf s) m :=
    bulkLoop_congr fun k m _ => by simp [unitBody, unitStart]
  unfold bulkLoops unitsOf
  rw [bulkLoop_add, hg]
  cases bulkLoop (unitBody s) (groupsOf s) 0 s.mem with
  | error e => rfl
  | ok m => exact hs m

/-- A MULTIPLY whose checks pass, whose units before `j` complete and whose unit `j` stops, stops so, if that holds from every
memory that agrees with the first outside the output range. -/
theorem bulkResult_stops {s : State} {j : Nat} {e : BulkStop} (hn : countOf s ≠ 0) (hv : bulkViolation s = none)
    (hj : j < unitsOf s) (hb : ∀ k m, k < j → BulkKeeps s s.mem m → ∃ m1, unitBody s k m = .ok m1)
    (he : ∀ m, BulkKeeps s s.mem m → unitBody s j m = .error e) : bulkResult s = .error e := by
  unfold bulkResult
  rw [if_neg hn, hv]
  dsimp only
  rw [bulkLoops_units]
  refine bulkLoop_stops (P := BulkKeeps s s.mem) (Nat.zero_le _) (by omega) (fun k m _ hk hm => ?_) he (BulkKeeps.refl s _)
  obtain ⟨m1, h1⟩ := hb k m hk hm
  refine ⟨m1, h1, hm.trans ?_⟩
  have hi := unit_inside (s := s) (j := k) (by omega)
  unfold unitBody at h1
  split at h1
  · next hg => exact packedGroup_keeps hg h1
  · next hg =>
    refine scalarElement_keeps ?_ h1
    simp only [unitSize, hg, if_false] at hi
    omega

/-- An input byte of a memory that agrees with the first outside the output range is the first's. -/
theorem inputs_kept {s : State} {m : Memory} (hv : bulkViolation s = none) (hm : BulkKeeps s s.mem m) {i : Nat}
    (hi : i < countOf s) :
    Memory.read m (src1Of s + i) = Memory.read s.mem (src1Of s + i) ∧
      Memory.read m (src2Of s + i) = Memory.read s.mem (src2Of s + i) := by
  constructor
  · refine hm.1 _ ?_
    by_contra h
    exact (noAlias_of_checks hv (i := src1Of s + i - dstOf s) (by omega) hi).1 (by omega)
  · refine hm.1 _ ?_
    by_contra h
    exact (noAlias_of_checks hv (i := src2Of s + i - dstOf s) (by omega) hi).2 (by omega)

/-- A refused first read stops a unit (R55). -/
theorem unitBody_read1 {s : State} {j : Nat} (m : Memory)
    (h : readRefused s.cfg (src1Of s + unitStart s j) (unitSize s j) = true) :
    unitBody s j m = .error (.portError (src1Of s + unitStart s j)) := by
  unfold unitBody
  unfold unitSize at h
  split
  · next hg =>
    have hu : unitStart s j = 4 * j := by simp [unitStart, hg]
    rw [if_pos hg, hu] at h
    rw [hu]
    simp [packedGroup, portRead, h]
  · next hg =>
    rw [if_neg hg] at h
    simp [scalarElement, portRead, h]

/-- A refused second read stops a unit whose first is not refused (R55). -/
theorem unitBody_read2 {s : State} {j : Nat} (m : Memory)
    (h1 : readRefused s.cfg (src1Of s + unitStart s j) (unitSize s j) = false)
    (h : readRefused s.cfg (src2Of s + unitStart s j) (unitSize s j) = true) :
    unitBody s j m = .error (.portError (src2Of s + unitStart s j)) := by
  unfold unitBody
  unfold unitSize at h1 h
  split
  · next hg =>
    have hu : unitStart s j = 4 * j := by simp [unitStart, hg]
    rw [if_pos hg, hu] at h1 h
    rw [hu]
    simp [packedGroup, portRead, h1, h]
  · next hg =>
    rw [if_neg hg] at h1 h
    simp [scalarElement, portRead, h1, h]

end Sys2Proof.Machine
end

