-- ==== Sys2Proof/Laws/Cache.lean ====
section
/-!
SUPPORT. The host's cache where COHERENT = false (20_memory.md R65, log 14): which bytes each operation makes stale or settles,
and what a load then returns.
-/
namespace Sys2Proof.Machine
open Sys2Proof

theorem inRange_iff (r : Nat × Nat) (a : Nat) : inRange r a = true ↔ r.1 ≤ a ∧ a < r.1 + r.2 := by
  simp [inRange]

/-- Cutting `r` out of `x` leaves the addresses of `x` that are not in `r`. -/
theorem cutRange_any (r x : Nat × Nat) (a : Nat) :
    (cutRange r x).any (fun y => inRange y a) = true ↔ inRange x a = true ∧ inRange r a = false := by
  rw [← Bool.not_eq_true (inRange r a)]
  simp only [cutRange, List.any_eq_true, List.mem_filter, List.mem_cons, List.not_mem_nil, or_false, decide_eq_true_eq,
    inRange_iff]
  constructor
  · rintro ⟨y, ⟨rfl | rfl, hy⟩, h⟩ <;> dsimp only at * <;> omega
  · rintro ⟨h, hn⟩
    by_cases hb : a < r.1
    · exact ⟨_, ⟨.inl rfl, by dsimp only; omega⟩, by dsimp only; omega⟩
    · exact ⟨_, ⟨.inr rfl, by dsimp only; omega⟩, by dsimp only; omega⟩

/-- Settling a range takes exactly its addresses out of the stale ones. -/
theorem settleRange_any (s : State) (r : Nat × Nat) (a : Nat) :
    (settleRange s r).any (fun y => inRange y a) = true ↔ isStale s a = true ∧ inRange r a = false := by
  simp only [settleRange, List.any_flatMap, isStale]
  rw [List.any_eq_true, List.any_eq_true]
  simp only [cutRange_any]
  exact ⟨fun ⟨x, hx, h1, h2⟩ => ⟨⟨x, hx, h1⟩, h2⟩, fun ⟨⟨x, hx, h1⟩, h2⟩ => ⟨x, hx, h1, h2⟩⟩

/-- A write of the block makes exactly the addresses of its range stale, and only where COHERENT = false. -/
theorem staleAfter_any (s : State) (b n a : Nat) :
    (staleAfter s b n).any (fun y => inRange y a) = true ↔
      isStale s a = true ∨ s.cfg.coherent = false ∧ b ≤ a ∧ a < b + n := by
  unfold staleAfter isStale
  by_cases hc : s.cfg.coherent = true
  · simp [hc]
  · by_cases hn : n = 0
    · subst hn
      simp
    · simp [hc, hn, inRange_iff, or_comm]

theorem storeByte_isStale {s : State} (hc : s.cfg.coherent = false) (a : Nat) (b : Byte) (x : Nat) :
    isStale (storeByte s a b) x = true ↔ isStale s x = true ∧ x ≠ a := by
  simp only [storeByte, hc, Bool.false_eq_true, if_false, isStale]
  rw [settleRange_any, ← Bool.not_eq_true, inRange_iff]
  dsimp only [isStale]
  refine and_congr_right fun _ => ?_
  omega

theorem invalidateRange_isStale {s : State} (hc : s.cfg.coherent = false) (r : Nat × Nat) (x : Nat) :
    isStale (invalidateRange s r) x = true ↔ isStale s x = true ∧ inRange r x = false := by
  simp only [invalidateRange, hc, Bool.false_eq_true, if_false]
  exact settleRange_any s r x

/-- A byte neither stale nor covered by an uncleaned store loads as memory holds it. -/
theorem settledByte_memory {s : State} {a : Nat} (hs : isStale s a = false) (hu : ∀ c ∈ s.unclean, c.1 ≠ a) :
    settledByte s a = some (Memory.read s.mem a) := by
  unfold settledByte
  have hf : s.unclean.find? (fun c => decide (c.1 = a)) = none := by simpa using hu
  rw [hs, hf]
  split <;> rfl

/-- After a store the host's own load returns the byte stored (R63). -/
theorem storeByte_settled {s : State} (hm : Memory.wf s.mem = true) (a : Nat) (b : Byte) :
    settledByte (storeByte s a b) a = some b := by
  by_cases hc : s.cfg.coherent = true
  · simp [settledByte, storeByte, hc, Memory.read_write_same hm]
  · have hc' : s.cfg.coherent = false := by simpa using hc
    have hs : isStale (storeByte s a b) a = false := by
      rw [← Bool.not_eq_true, storeByte_isStale hc']
      simp
    unfold settledByte
    rw [hs]
    simp [storeByte, hc']

/-- After an invalidate of a range a load in it returns what memory holds (R65, R185). -/
theorem invalidateRange_settled {s : State} {r : Nat × Nat} {a : Nat} (h : inRange r a = true) :
    settledByte (invalidateRange s r) a = some (Memory.read s.mem a) := by
  by_cases hc : s.cfg.coherent = true
  · simp [settledByte, invalidateRange, hc]
  · have hc' : s.cfg.coherent = false := by simpa using hc
    have hs : isStale (invalidateRange s r) a = false := by
      rw [← Bool.not_eq_true, invalidateRange_isStale hc']
      simp [h]
    rw [settledByte_memory hs]
    · simp [invalidateRange, hc']
    · intro c hmem
      simp only [invalidateRange, hc', Bool.false_eq_true, if_false, List.mem_filter, Bool.not_eq_true'] at hmem
      rintro rfl
      rw [h] at hmem
      cases hmem.2

/-- A clean of a range whose uncleaned stores cover the address `a` brings the newest of them to memory (R65, R185). -/
theorem cleanRange_read {s : State} {r : Nat × Nat} {a : Nat} {b : Byte} {cs : List Host.Cell} (hc : s.cfg.coherent = false)
    (hm : Memory.wf s.mem = true) (h : inRange r a = true) (hs : isStale s a = false) (hu : s.unclean = (a, b) :: cs) :
    Memory.read (cleanRange s r).mem a = b := by
  simp only [cleanRange, hc, Bool.false_eq_true, if_false, hu, List.filter_cons, h, if_true, List.map_cons, cleanedCell, hs,
    writeBack]
  exact Memory.read_write_same (writeBack_wf hm _) _ _

end Sys2Proof.Machine
end

