-- ==== Sys2Proof/Laws/PerInstr.lean ====
section
/-!
SUPPORT. One lemma per command about its word: the reserved bits are zero and the OP field holds its opcode (30_encoding.md R71, R73).
-/
namespace Sys2Proof.Laws.WordLayout
open Sys2Proof

/-- The fields of the word of a command. -/
def Statement (i : Instr) : Prop := rsvdField (encode i) = 0 ∧ opField (encode i) = i.opcode

theorem nop : Statement .nop := ⟨rfl, rfl⟩
theorem dhmul : Statement .dhmul := ⟨rfl, rfl⟩
theorem rdpot : Statement .rdpot := ⟨rfl, rfl⟩
theorem rescale : Statement .rescale := ⟨rfl, rfl⟩
theorem correct : Statement .correct := ⟨rfl, rfl⟩
theorem clamp : Statement .clamp := ⟨rfl, rfl⟩
theorem narrow : Statement .narrow := ⟨rfl, rfl⟩
theorem xform : Statement .xform := ⟨rfl, rfl⟩
theorem xform4 : Statement .xform4 := ⟨rfl, rfl⟩
theorem multiply : Statement .multiply := ⟨rfl, rfl⟩

end Sys2Proof.Laws.WordLayout
end

