-- ==== Sys2Proof/Laws/Decode.lean ====
section
/-!
SUPPORT. The fields of a command word and the case split of decoding, said once (30_encoding.md R71, R78).
-/
namespace Sys2Proof

/-- A word is its reserved bits and its OP field (R71). -/
theorem word_of_fields (w : Word) : w = rsvdField w ++ opField w := by
  apply BitVec.eq_of_getLsbD_eq
  intro i hi
  simp only [rsvdField, opField, BitVec.getLsbD_append, BitVec.getLsbD_extractLsb']
  by_cases h : i < 8
  · simp [h]
  · simp only [h, if_false, show i - 8 < 24 by omega, decide_true, Bool.true_and]
    rw [Nat.add_sub_cancel' (by omega)]

/-- A word whose reserved bits are zero decodes by its OP field, any other is illegal (R74, R78). -/
theorem decode_of_rsvd_zero {hp : Bool} {w : Word} (h : rsvdField w = 0) : decode hp w = decodeOp hp (opField w) := by
  simp [decode, h]

theorem decode_of_rsvd {hp : Bool} {w : Word} (h : rsvdField w ≠ 0) : decode hp w = .error .reservedBits := if_pos h

/-- A command is decoded from its own opcode alone, and only where the implementation has it (R73, R76). -/
theorem decodeOp_ok {hp : Bool} {op : Byte} {i : Instr} (h : decodeOp hp op = .ok i) : op = i.opcode ∧ i.wellFormed hp = true := by
  unfold decodeOp at h
  by_cases h0 : op = 0x00; · rw [if_pos h0] at h; cases h; exact ⟨h0, rfl⟩
  rw [if_neg h0] at h
  by_cases h1 : op = 0x01; · rw [if_pos h1] at h; cases h; exact ⟨h1, rfl⟩
  rw [if_neg h1] at h
  by_cases h2 : op = 0x02; · rw [if_pos h2] at h; cases h; exact ⟨h2, rfl⟩
  rw [if_neg h2] at h
  by_cases h3 : op = 0x03; · rw [if_pos h3] at h; cases h; exact ⟨h3, rfl⟩
  rw [if_neg h3] at h
  by_cases h4 : op = 0x04; · rw [if_pos h4] at h; cases h; exact ⟨h4, rfl⟩
  rw [if_neg h4] at h
  by_cases h5 : op = 0x05; · rw [if_pos h5] at h; cases h; exact ⟨h5, rfl⟩
  rw [if_neg h5] at h
  by_cases h6 : op = 0x06; · rw [if_pos h6] at h; cases h; exact ⟨h6, rfl⟩
  rw [if_neg h6] at h
  by_cases h8 : op = 0x08; · rw [if_pos h8] at h; cases h; exact ⟨h8, rfl⟩
  rw [if_neg h8] at h
  by_cases h9 : op = 0x09
  · rw [if_pos h9] at h
    by_cases hx : hp = true
    · rw [if_pos hx] at h; cases h; exact ⟨h9, hx⟩
    · rw [if_neg hx] at h; cases h
  rw [if_neg h9] at h
  by_cases h16 : op = 0x10; · rw [if_pos h16] at h; cases h; exact ⟨h16, rfl⟩
  rw [if_neg h16] at h
  cases h

end Sys2Proof
end

