-- ==== Sys2Proof/Laws/Step.lean ====
section
/-!
SUPPORT. What a command can do and what an operation of the host can do, said once: every lemma about the step goes by these
cases and never unfolds the step.
-/
namespace Sys2Proof.Machine
open Sys2Proof

/-- What a command that gives a next state did. -/
inductive Executed (s : State) : Instr → State → Prop where
  | nothing : Executed s .nop s
  | result (i : Instr) (v : Word) (hn : i ≠ .nop) (hm : i ≠ .multiply) (hx : i.wellFormed s.cfg.hasPacked = true) :
      Executed s i (setRes s v)
  | noDatapath (h : s.cfg.hasPacked = false) : Executed s .xform4 (enterError s (.illegalCommand 0x00000009))
  | completed (m : Memory) (h : bulkResult s = .ok m) : Executed s .multiply (setRes (putOutput s m) 0)
  | aborted (a : Nat) (h : bulkResult s = .error (.portError a)) : Executed s .multiply (abortBulk s a)

theorem finish_executed {s t : State} {i : Instr} {r : Except Violation Word} (hn : i ≠ .nop) (hm : i ≠ .multiply)
    (hx : i.wellFormed s.cfg.hasPacked = true) (h : finish s r = .next t) : Executed s i t := by
  obtain ⟨v, _, rfl⟩ := finish_next.mp h
  exact .result i v hn hm hx

theorem exec_cases {i : Instr} {s t : State} (h : exec i s = .next t) : Executed s i t := by
  cases i with
  | nop => cases h; exact .nothing
  | xform4 =>
    change execXform4 s = _ at h
    unfold execXform4 at h
    split at h
    · next hp => exact finish_executed (by simp) (by simp) hp h
    · next hp => cases h; exact .noDatapath (by simpa using hp)
  | multiply =>
    change execMultiply s = _ at h
    rcases execMultiply_cases s with ⟨m, hm, he⟩ | ⟨r, hm, he⟩ | ⟨a, hm, he⟩
    · rw [he] at h; cases h; exact .completed m hm
    · rw [he] at h; cases h
    · rw [he] at h; cases h; exact .aborted a hm
  | dhmul => exact finish_executed (r := .ok _) (by simp) (by simp) rfl h
  | rdpot => exact finish_executed (by simp) (by simp) rfl h
  | rescale => exact finish_executed (by simp) (by simp) rfl h
  | correct => exact finish_executed (by simp) (by simp) rfl h
  | clamp => exact finish_executed (by simp) (by simp) rfl h
  | narrow => exact finish_executed (r := .ok _) (by simp) (by simp) rfl h
  | xform => exact finish_executed (by simp) (by simp) rfl h

/-- What an operation of the host that gives a next state did. -/
inductive Performed (s : State) : HostOp → State → Prop where
  | readUnanswered (addr width : Nat) (h : s.rstLow = true) : Performed s (.regRead addr width) (unanswered s)
  | readOk (addr : Nat) (off : Byte) (h : s.rstLow = false) (ho : windowOffset s.cfg addr = some off)
      (hl : accessLegal 32 off = true) :
      Performed s (.regRead addr 32) (complete s (.readData .okay (readOffset s off)))
  | readError (addr width : Nat) (off : Byte) (h : s.rstLow = false) (ho : windowOffset s.cfg addr = some off)
      (hl : accessLegal width off = false) :
      Performed s (.regRead addr width) (enterError (complete s (.readData .error 0)) (.regAccessError off))
  | writeUnanswered (addr width : Nat) (w : Word) (h : s.rstLow = true) : Performed s (.regWrite addr width w) (unanswered s)
  | writeIgnored (addr : Nat) (w : Word) (off : Byte) (h : s.rstLow = false) (ho : windowOffset s.cfg addr = some off)
      (hl : accessLegal 32 off = true) (hr : regAt off = none) :
      Performed s (.regWrite addr 32 w) (complete s (.written .okay))
  | writeReg (addr : Nat) (w : Word) (off : Byte) (r : RegName) (h : s.rstLow = false) (ho : windowOffset s.cfg addr = some off)
      (hr : regAt off = some r) (hc : r ≠ .cmd) :
      Performed s (.regWrite addr 32 w) (writeReg (complete s (.written .okay)) w r)
  | command (addr : Nat) (w : Word) (i : Instr) (t : State) (h : s.rstLow = false) (ho : windowOffset s.cfg addr = some 0x10)
      (hd : decode s.cfg.hasPacked w = .ok i) (he : exec i (acceptCommand s) = .next t) : Performed s (.regWrite addr 32 w) t
  | illegal (addr : Nat) (w : Word) (e : DecodeError) (h : s.rstLow = false) (ho : windowOffset s.cfg addr = some 0x10)
      (hd : decode s.cfg.hasPacked w = .error e) :
      Performed s (.regWrite addr 32 w) (enterError (acceptCommand s) (.illegalCommand w))
  | writeError (addr width : Nat) (w : Word) (off : Byte) (h : s.rstLow = false) (ho : windowOffset s.cfg addr = some off)
      (hl : accessLegal width off = false) :
      Performed s (.regWrite addr width w) (enterError (complete s (.written .error)) (.regAccessError off))
  | store (a : Nat) (b : Byte) (ha : a < memSize s.cfg) (hp : plainMem s.cfg a 1 = true) :
      Performed s (.memStore a b) (setAnswer (storeByte s a b) (some .done))
  | load (a : Nat) (ha : a < memSize s.cfg) (hp : plainMem s.cfg a 1 = true) : Performed s (.memLoad a) (loadByte s a)
  | clean (base size : Nat) : Performed s (.cacheClean base size) (setAnswer (cleanRange s (base, size)) (some .done))
  | invalidate (base size : Nat) :
      Performed s (.cacheInvalidate base size) (setAnswer (invalidateRange s (base, size)) (some .done))
  | fall : Performed s .assertReset (fallReset s)
  | rise : Performed s .releaseReset (riseReset s)
  | cutUnanswered (h : s.rstLow = true) : Performed s .multiplyCutByReset (unanswered s)
  | cut (h : s.rstLow = false) (hv : ∀ r, bulkResult s ≠ .error (.contract r)) :
      Performed s .multiplyCutByReset (cutState s)

/-- The register found at an offset stands at that offset (R24). -/
theorem regAt_offset {off : Byte} {r : RegName} (h : regAt off = some r) : off = regOffset r := by
  have := List.find?_some h
  simp only [decide_eq_true_eq] at this
  exact this.symm

theorem accessLegal_width {width : Nat} {off : Byte} (h : accessLegal width off = true) : width = 32 := by
  simp only [accessLegal, Bool.and_eq_true, decide_eq_true_eq] at h
  exact h.1

theorem hostMayUse_ok {s : State} {a : Nat} {u : Unit} (h : hostMayUse s a = .ok u) :
    a < memSize s.cfg ∧ plainMem s.cfg a 1 = true := by
  unfold hostMayUse at h
  split at h
  · cases h
  · split at h
    · next h1 h2 => exact ⟨by omega, h2⟩
    · cases h

theorem writeOffset_cases {s t : State} {addr : Nat} {off : Byte} {w : Word} (hr : s.rstLow = false)
    (ho : windowOffset s.cfg addr = some off) (hl : accessLegal 32 off = true)
    (h : writeOffset s off w = .next t) : Performed s (.regWrite addr 32 w) t := by
  unfold writeOffset at h
  split at h
  · next hn => cases h; exact .writeIgnored addr w off hr ho hl hn
  · next hc =>
    have hoff : off = 0x10 := regAt_offset hc
    subst hoff
    unfold runCommand at h
    split at h
    · next i hd => exact .command addr w i t hr ho hd h
    · next e hd => cases h; exact .illegal addr w e hr ho hd
  · next r hc hs => cases h; exact .writeReg addr w off r hr ho hs (fun e => hc e)

theorem perform_cases {op : HostOp} {s t : State} (h : perform op s = .next t) : Performed s op t := by
  cases op with
  | regRead addr width =>
    change hostRegRead s addr width = _ at h
    unfold hostRegRead at h
    split at h
    · cases h
    · next off ho =>
      split at h
      · next hr => cases h; exact .readUnanswered addr width hr
      · next hr =>
        have hr' : s.rstLow = false := by simpa using hr
        split at h
        · next hl => have := accessLegal_width hl; subst this; cases h; exact .readOk addr off hr' ho hl
        · next hl => cases h; exact .readError addr width off hr' ho (by simpa using hl)
  | regWrite addr width w =>
    change hostRegWrite s addr width w = _ at h
    unfold hostRegWrite at h
    split at h
    · cases h
    · next off ho =>
      split at h
      · next hr => cases h; exact .writeUnanswered addr width w hr
      · next hr =>
        have hr' : s.rstLow = false := by simpa using hr
        split at h
        · next hl => have := accessLegal_width hl; subst this; exact writeOffset_cases hr' ho hl h
        · next hl => cases h; exact .writeError addr width w off hr' ho (by simpa using hl)
  | memStore a b =>
    change hostStore s a b = _ at h
    unfold hostStore at h
    split at h
    · cases h
    · next u hu => cases h; exact .store a b (hostMayUse_ok hu).1 (hostMayUse_ok hu).2
  | memLoad a =>
    change hostLoad s a = _ at h
    unfold hostLoad at h
    split at h
    · cases h
    · next u hu => cases h; exact .load a (hostMayUse_ok hu).1 (hostMayUse_ok hu).2
  | cacheClean base size => cases h; exact .clean base size
  | cacheInvalidate base size => cases h; exact .invalidate base size
  | assertReset => cases h; exact .fall
  | releaseReset => cases h; exact .rise
  | multiplyCutByReset =>
    simp only [perform] at h
    split at h
    · next hr => cases h; exact .cutUnanswered hr
    · next hr =>
      have hr' : s.rstLow = false := by simpa using hr
      unfold cutMultiply at h
      split at h
      · cases h
      · next a hb => cases h; exact .cut hr' (by simp [hb])
      · next m hb => cases h; exact .cut hr' (by simp [hb])

/-- A step that gives a next state was idle, or performed the host's next operation. -/
theorem step_next {s t : State} (h : step s = .next t) :
    (s.pending = [] ∧ t = s) ∨ ∃ op rest, s.pending = op :: rest ∧ Performed (takeNext s rest) op t := by
  rcases step_cases s with ⟨hp, hs⟩ | ⟨op, rest, hp, hs⟩
  · rw [hs] at h; cases h; exact .inl ⟨hp, rfl⟩
  · rw [hs] at h; exact .inr ⟨op, rest, hp, perform_cases h⟩

end Sys2Proof.Machine
end

