-- ==== Sys2Proof/Tests/Slice0.lean ====
section
/-!
SUPPORT. Tests with expected results from spec/95_test_vectors.md, each about one step, and for every statement of
Certificates/Slice0/Obligations.lean that has hypotheses a witness that meets them.
-/
namespace Sys2Proof.Machine.Tests
open Sys2Proof Sys2Proof.Machine

/-! Small states and outcomes -/

/-- Reset, with the three operand registers set. -/
def operands (a b c : Word) : State := { State.reset with opa := a, opb := b, opc := c }

/-- The unity parameters of 95_test_vectors.md. -/
def unity : Params :=
  { in1Off := 0, in2Off := 0, outOff := 0, outMult := 0x7FFFFFFF, outShift := 0, outMin := 0xFFFFFF80, outMax := 0x7F }

/-- Reset, with parameters and two operands. -/
def withParams (p : Params) (a b : Word) : State := { State.reset with params := p, opa := a, opb := b }

/-- Reset, with operations for the host to perform. -/
def withOps (ops : List HostOp) : State := loadProgram State.reset ops

/-- The buffers of program P2 of 95_test_vectors.md. -/
def p2Memory : Memory :=
  [(0x1000, 0x0A), (0x1001, 0xFB), (0x1002, 0x03), (0x1003, 0x04), (0x1004, 0x80), (0x1005, 0x7F),
    (0x1100, 0x03), (0x1101, 0x03), (0x1102, 0x02), (0x1103, 0x02), (0x1104, 0x80), (0x1105, 0x01)]

/-- Program P2 just before its MULTIPLY. -/
def p2 : State :=
  { State.reset with
    mem := p2Memory, params := { unity with outMult := 0x40000000 }
    src1 := 0x1000, src2 := 0x1100, dst := 0x1200, count := 6 }

/-- A MULTIPLY of `n` elements with unity parameters. -/
def buffers (s1 s2 d n : Word) : State := { State.reset with params := unity, src1 := s1, src2 := s2, dst := d, count := n }

/-- The configuration with `m` as the platform's map. -/
def mapped (m : List Region) : Config := { Config.reference with map := m }

/-- The outcome is a next state with `p`. -/
def next (o : Host.Outcome State Fault Refusal) (p : State → Bool) : Bool :=
  match o with
  | .next t => p t
  | .fault _ => false
  | .refused _ => false

theorem next_iff {o : Host.Outcome State Fault Refusal} {p : State → Bool} :
    next o p = true ↔ ∃ t, o = .next t ∧ p t = true := by
  cases o <;> simp [next]

/-- RES after the outcome. -/
def resOf (o : Host.Outcome State Fault Refusal) : Option Word :=
  match o with
  | .next t => some t.res
  | .fault _ => none
  | .refused _ => none

/-- The violation the outcome stops with. -/
def violationOf (o : Host.Outcome State Fault Refusal) : Option Violation :=
  match o with
  | .fault (.contractViolation r) => some r
  | _ => none

/-! Well-formedness -/

theorem test_xform4_needs_datapath : Instr.wellFormed false .xform4 = false := by decide
theorem test_xform4_wellFormed : Instr.wellFormed true .xform4 = true := by decide

/-! Decoding: RSVD in bits 31:8, OP in bits 7:0 (R71, R73) -/

theorem test_decode_nop : decode true 0b00000000000000000000000000000000 = .ok .nop := by decide
theorem test_decode_dhmul : decode true 0b00000000000000000000000000000001 = .ok .dhmul := by decide
theorem test_decode_rdpot : decode true 0b00000000000000000000000000000010 = .ok .rdpot := by decide
theorem test_decode_rescale : decode true 0b00000000000000000000000000000011 = .ok .rescale := by decide
theorem test_decode_correct : decode true 0b00000000000000000000000000000100 = .ok .correct := by decide
theorem test_decode_clamp : decode true 0b00000000000000000000000000000101 = .ok .clamp := by decide
theorem test_decode_narrow : decode true 0b00000000000000000000000000000110 = .ok .narrow := by decide
theorem test_decode_xform : decode true 0b00000000000000000000000000001000 = .ok .xform := by decide
theorem test_decode_xform4 : decode true 0b00000000000000000000000000001001 = .ok .xform4 := by decide
theorem test_decode_multiply : decode true 0b00000000000000000000000000010000 = .ok .multiply := by decide
/-- 95_test_vectors.md 2.10. -/
theorem test_decode_illegal :
    decode true 0x00000100 = .error .reservedBits ∧ decode true 0x00000007 = .error .unassignedOpcode ∧
      decode true 0x000000FF = .error .unassignedOpcode ∧ decode true 0x80000010 = .error .reservedBits ∧
      decode false 0x00000009 = .error .noPackedDatapath := by decide
theorem test_decodeTableWord : decodeTableWord 32 0x10 = some .multiply ∧ decodeTableWord 32 0x07 = none := by decide
theorem test_encode_multiply : encode .multiply = 0x00000010 := by decide

/-! The first step after reset -/

/-- The zero command is the first thing done: NOP, answered OKAY. -/
theorem test_fetch_nop :
    next (step (State.reset.withFetchWord 32 0)) (fun t => decide (t.answer = some (.written .okay) ∧ t.ci = 1 ∧ t.res = 0)) = true := by
  decide
/-- 95_test_vectors.md P5: MULTIPLY straight after reset has COUNT = 0. -/
theorem test_fetch_multiply :
    next (step (State.reset.withFetchWord 32 0x10)) (fun t => decide (t.res = 0 ∧ t.mem = [] ∧ t.faults = [])) = true := by
  decide

/-! The rescaler (95_test_vectors.md 2.1-2.3) -/

theorem test_dhmul_saturates : resOf (exec .dhmul (operands 0x80000000 0x80000000 0)) = some 0x7FFFFFFF := by decide
theorem test_dhmul_negative_tie : resOf (exec .dhmul (operands 0xFFFFFFFD 0x40000000 0)) = some 0xFFFFFFFE := by decide
theorem test_rdpot_negative_tie : resOf (exec .rdpot (operands 0xFFFFFFFD 1 0)) = some 0xFFFFFFFE := by decide
theorem test_rdpot_left_shift : resOf (exec .rdpot (operands 0xFFFFFFFF 0xFFFFFFE1 0)) = some 0x80000000 := by decide
theorem test_rescale_rounds_twice : resOf (exec .rescale (operands 1000 0x5A000000 3)) = some 0x00000058 := by decide
theorem test_rescale_overflow : violationOf (exec .rescale (operands 65536 0x7FFFFFFF 0xFFFFFFF1)) = some .shiftOverflow := by
  decide

/-! The element unit (95_test_vectors.md 2.4-2.7) -/

theorem test_correct_low_byte : resOf (exec .correct (operands 0x12345605 0xFFFFFFFD 0)) = some 0x00000002 := by decide
theorem test_correct_overflow : violationOf (exec .correct (operands 0x7F 0x7FFFFF81 0)) = some .correctOverflow := by decide
theorem test_clamp_low : resOf (exec .clamp (operands 0xFFFFFED4 0xFFFFFF80 0x7F)) = some 0xFFFFFF80 := by decide
theorem test_clamp_bounds : violationOf (exec .clamp (operands 0 6 5)) = some .clampBounds := by decide
theorem test_narrow_truncates : resOf (exec .narrow (operands 0x00000080 0 0)) = some 0xFFFFFF80 := by decide
theorem test_narrow_drops_sign : resOf (exec .narrow (operands 0xFFFFFF7F 0 0)) = some 0x0000007F := by decide
theorem test_xform_double_rounding :
    resOf (exec .xform (withParams { unity with outMult := 0x40000000, outShift := 1 } 0xFFFFFFF1 15)) = some 0xFFFFFFC7 := by
  decide
theorem test_xform_order :
    violationOf (exec .xform (withParams { unity with outMin := 200, outMax := 100 } 0 0)) = some .clampBounds := by decide

/-! The packed path (95_test_vectors.md 2.8, program P3) -/

theorem test_xform4_p3 :
    resOf (exec .xform4 (withParams
      { in1Off := 1, in2Off := 0xFFFFFFFE, outOff := 0xFFFFFFF6, outMult := 0x7FFFFFFF, outShift := 1, outMin := 0xFFFFFFF5,
        outMax := 20 } 0x7FFFFB0A 0x02800303)) = some 0xF6F6F5FC := by decide
theorem test_xform4_first_lane :
    violationOf (exec .xform4 (withParams { unity with outShift := 0xFFFFFFE1 } 0x00000100 0x00000101)) = some .shiftOverflow := by
  decide

/-! MULTIPLY (95_test_vectors.md program P2, 2.9) -/

theorem test_multiply_p2 :
    next (exec .multiply p2) (fun t => decide (t.res = 0 ∧ t.status = 0 ∧
      t.mem = p2Memory ++ [(0x1200, 0x0F), (0x1201, 0xF8), (0x1202, 0x03), (0x1203, 0x04), (0x1204, 0x7F), (0x1205, 0x40)])) =
      true := by decide
theorem test_multiply_aliases : violationOf (exec .multiply (buffers 0x1000 0x2000 0x1002 4)) = some .outputAliasesInput := by
  decide

/-! The register port (95_test_vectors.md 2.10) -/

theorem test_status_write_one_to_clear :
    next (step { withOps [wr Config.reference .status 1] with status := 3 }) (fun t => decide (t.status = 2)) = true := by decide
theorem test_cap_reads :
    next (step (withOps [rd Config.reference .cap])) (fun t => decide (t.answer = some (.readData .okay 0x00200401))) = true := by
  decide
theorem test_ctrl_keeps_bit_0 :
    next (step (withOps [.regWrite 0x08 32 0xFFFFFFFF])) (fun t => decide (t.ctrl = 1)) = true := by decide
theorem test_src1_keeps_ADDR_W_bits :
    next (step (loadProgram (State.resetOf { Config.reference with addrW := 16 }) [.regWrite 0x60 32 0xFFFFFFFF]))
      (fun t => decide (readReg t .src1 = 0x0000FFFF)) = true := by decide
theorem test_unaligned_access :
    next (step (withOps [.regRead 0x1A 32]))
      (fun t => decide (t.answer = some (.readData .error 0) ∧ t.faults = [.regAccessError 0x1A])) = true := by decide
theorem test_pseudo_op2 :
    op2 Config.reference .rdpot (-3) 1 = [.regWrite 0x18 32 0xFFFFFFFD, .regWrite 0x1C 32 1, .regWrite 0x10 32 2] := by decide
theorem test_pseudo_setq :
    setq Config.reference 1 (-2) (-10) 0x7FFFFFFF 1 (-11) 20 =
      [.regWrite 0x40 32 1, .regWrite 0x44 32 0xFFFFFFFE, .regWrite 0x48 32 0xFFFFFFF6, .regWrite 0x4C 32 0x7FFFFFFF,
        .regWrite 0x50 32 1, .regWrite 0x54 32 0xFFFFFFF5, .regWrite 0x58 32 0x14] := by decide
/-! Witnesses: for each statement with hypotheses, states and operands that meet them -/

theorem witness_ReservedAndUnassignedWordsAreIllegal_reserved : (0x00000100 : Word).extractLsb' 8 24 ≠ 0 := by decide
theorem witness_ReservedAndUnassignedWordsAreIllegal_unassigned :
    ([0x07, 0x0A, 0x0F, 0x11, 0xFF] : List Word).all (fun w => decide (w.extractLsb' 8 24 = 0 ∧
      (w.extractLsb' 0 8 = 0x07 ∨ (0x0A ≤ (w.extractLsb' 0 8).toNat ∧ (w.extractLsb' 0 8).toNat ≤ 0x0F) ∨
        0x11 ≤ (w.extractLsb' 0 8).toNat) ∧ decode true w = .error .unassignedOpcode)) = true := by decide
theorem witness_DecodeIsTheInverseOfEncode :
    decode true 0x09 = .ok .xform4 ∧ Instr.wellFormed true .xform4 = true ∧ encode .xform4 = 0x09 := by decide

/-- Operations that write a command word, and one that reads RES afterwards. -/
def commandState (w : Word) : State := withOps [.regWrite 0x10 32 w, .regRead 0x14 32]

theorem witness_StepRunsTheDecodedCommand :
    (commandState 0x10).pending = .regWrite ((commandState 0x10).cfg.base + 0x10) 32 0x10 :: [.regRead 0x14 32] ∧
      (commandState 0x10).rstLow = false ∧ decode (commandState 0x10).cfg.hasPacked 0x10 = .ok .multiply := by decide
theorem witness_IllegalWordOnlySetsStatusBit0_reserved :
    (commandState 0x80000010).pending = .regWrite ((commandState 0x80000010).cfg.base + 0x10) 32 0x80000010 :: [.regRead 0x14 32] ∧
      (commandState 0x80000010).rstLow = false ∧ (0x80000010 : Word).extractLsb' 8 24 ≠ 0 := by decide
theorem witness_IllegalWordOnlySetsStatusBit0_unassigned :
    (commandState 0x11).pending = .regWrite ((commandState 0x11).cfg.base + 0x10) 32 0x11 :: [.regRead 0x14 32] ∧
      (commandState 0x11).rstLow = false ∧ 0x11 ≤ ((0x11 : Word).extractLsb' 0 8).toNat := by decide
theorem witness_IllegalWordOnlySetsStatusBit0_noDatapath :
    let s := { commandState 0x09 with cfg := { Config.reference with hasPacked := false } }
    s.pending = .regWrite (s.cfg.base + 0x10) 32 0x09 :: [.regRead 0x14 32] ∧ s.rstLow = false ∧
      (0x09 : Word).extractLsb' 0 8 = 0x09 ∧ s.cfg.hasPacked = false := by decide
theorem witness_IdleStepChangesNothing : State.reset.pending = [] ∧ State.reset.ended = true := by decide
theorem witness_RunEndsWhenItsLastAccessIsAnswered_answered :
    ∃ t, step (withOps [.regRead 0x14 32]) = .next t ∧ t.ended = true ∧ t.endedGood = true := ⟨_, rfl, rfl, rfl⟩
theorem witness_RunEndsWhenItsLastAccessIsAnswered_dropped :
    ∃ t, step { withOps [.regRead 0x14 32] with rstLow := true } = .next t ∧ t.pending = [] ∧ t.ended = false := ⟨_, rfl, rfl, rfl⟩
theorem witness_RunEndsWhenItsLastAccessIsAnswered_cut :
    ∃ t, step (withOps [.multiplyCutByReset]) = .next t ∧ t.pending = [] ∧ t.ended = false := ⟨_, rfl, rfl, rfl⟩
theorem witness_RunEndsWhenItsLastAccessIsAnswered_reset :
    ∃ t, step { withOps [.releaseReset] with rstLow := true, lost := true } = .next t ∧ isAccess .releaseReset = false ∧
      t.ended = false := ⟨_, rfl, rfl, rfl⟩
theorem witness_MalformedAccessGetsError_write :
    let s := withOps [.regWrite 0x10 16 1]
    s.rstLow = false ∧ (16 ≠ 32 ∨ (0x10 : Byte).toNat % 4 ≠ 0) ∧
      s.pending = .regWrite (s.cfg.base + (0x10 : Byte).toNat) 16 1 :: [] := by decide
theorem witness_MalformedAccessGetsError_read :
    let s := withOps [.regRead 0x1A 32]
    s.rstLow = false ∧ (32 ≠ 32 ∨ (0x1A : Byte).toNat % 4 ≠ 0) ∧
      s.pending = .regRead (s.cfg.base + (0x1A : Byte).toNat) 32 :: [] := by decide
theorem witness_MalformedAccessGetsError_reserved :
    let s := withOps [.regRead 0xFC 32]
    s.rstLow = false ∧ (0xFC : Byte).toNat % 4 = 0 ∧ regAt 0xFC = none ∧
      s.pending = .regRead (s.cfg.base + (0xFC : Byte).toNat) 32 :: [] := by decide
theorem witness_MalformedAccessGetsError_reservedWrite :
    let s := withOps [.regWrite 0x24 32 1]
    s.rstLow = false ∧ (0x24 : Byte).toNat % 4 = 0 ∧ regAt 0x24 = none ∧
      s.pending = .regWrite (s.cfg.base + (0x24 : Byte).toNat) 32 1 :: [] := by decide
theorem witness_ReservedOffsetsReadZeroAndIgnoreWrites_read :
    ∀ off ∈ ([0x24, 0x3C, 0x5C, 0x70, 0xFC] : List Byte),
      (withOps [.regRead off.toNat 32]).rstLow = false ∧ off.toNat % 4 = 0 ∧
        ((0x24 ≤ off.toNat ∧ off.toNat ≤ 0x3C) ∨ off.toNat = 0x5C ∨ 0x70 ≤ off.toNat) ∧
        (withOps [.regRead off.toNat 32]).pending = .regRead (State.reset.cfg.base + off.toNat) 32 :: [] := by decide
theorem witness_ReservedOffsetsReadZeroAndIgnoreWrites_write :
    let s := withOps [.regWrite 0x5C 32 5]
    s.rstLow = false ∧ (0x5C : Byte).toNat % 4 = 0 ∧ (0x5C : Byte).toNat = 0x5C ∧
      s.pending = .regWrite (s.cfg.base + (0x5C : Byte).toNat) 32 5 :: [] := by decide
theorem witness_ReadOnlyRegistersIgnoreWrites_write :
    let s := withOps [.regWrite 0x14 32 0x12345678]
    s.rstLow = false ∧ s.pending = .regWrite (s.cfg.base + 0x14) 32 0x12345678 :: [] := by decide
theorem witness_ReadOnlyRegistersIgnoreWrites_read :
    let s := withOps [.regRead 0x10 32]
    s.rstLow = false ∧ s.pending = .regRead (s.cfg.base + 0x10) 32 :: [] := by decide
theorem witness_WriteThenReadOfRegisters :
    let s := withOps [.regWrite 0x60 32 7, .regRead 0x60 32]
    s.rstLow = false ∧ RegName.src1 ≠ .cmd ∧
      s.pending = .regWrite (s.cfg.base + (regOffset .src1).toNat) 32 7 :: .regRead (s.cfg.base + (regOffset .src1).toNat) 32 :: [] := by
  decide
theorem witness_StatusIsWriteOneToClear_write :
    let s := { withOps [.regWrite 0x0C 32 1] with status := 3 }
    s.rstLow = false ∧ s.pending = .regWrite (s.cfg.base + 0x0C) 32 1 :: [] := by decide
theorem witness_StatusIsWriteOneToClear_command : ∃ t, exec .dhmul { operands 100 0x40000000 0 with status := 1 } = .next t :=
  ⟨_, rfl⟩
theorem witness_IdAndCapRead_id :
    let s := withOps [.regRead 0x00 32]
    s.rstLow = false ∧ Config.wf s.cfg = true ∧ s.pending = .regRead (s.cfg.base + 0x00) 32 :: [] := by decide
theorem witness_IdAndCapRead_cap :
    let s := withOps [.regRead 0x04 32]
    s.rstLow = false ∧ Config.wf s.cfg = true ∧ s.pending = .regRead (s.cfg.base + 0x04) 32 :: [] := by decide

/-- A MULTIPLY whose first read gets ERROR (95_test_vectors.md 2.9, with the ERROR on SRC1). -/
def refused : State :=
  { buffers 0x100 0x200 0x300 4 with
    cfg := mapped [{ base := 0x100, size := 1, kind := .refusesReads }], pending := [.regWrite 0x10 32 0x10] }

theorem witness_OnlyTheTwoErrorsSetStatusBits_illegal :
    ∃ t, step (commandState 0x07) = .next t ∧ t.status.getLsbD 0 = true ∧ (commandState 0x07).status.getLsbD 0 = false :=
  ⟨_, rfl, by decide, by decide⟩
theorem witness_OnlyTheTwoErrorsSetStatusBits_memerr :
    ∃ t, step refused = .next t ∧ t.status.getLsbD 1 = true ∧ refused.status.getLsbD 1 = false := by
  have h : next (step refused) (fun t => t.status.getLsbD 1) = true := by decide
  obtain ⟨t, h1, h2⟩ := next_iff.mp h
  exact ⟨t, h1, h2, by decide⟩
theorem witness_OnlyTheTwoErrorsSetStatusBits_reserved :
    ∃ t, step { State.reset with status := 0x80000004 } = .next t ∧ t.status.getLsbD 2 = true ∧ t.status.getLsbD 31 = true :=
  ⟨_, rfl, by decide, by decide⟩
/-- One step that gives a next state: for the statements whose only hypothesis is that. -/
theorem witness_step_next : ∃ t, step (commandState 0x07) = .next t ∧ t.faults.length = 1 ∧ t.ci = 1 := ⟨_, rfl, rfl, rfl⟩
theorem witness_CommandIndexCountsAnsweredAccesses : ∃ t, step (commandState 0x01) = .next t := ⟨_, rfl⟩
theorem witness_FaultRecordOnlyGrows : ∃ t, step (commandState 0x07) = .next t ∧ t.good = false := ⟨_, rfl, rfl⟩
theorem witness_FaultRecordOnlyGrows_good : ∃ t, step (commandState 0x01) = .next t ∧ t.good = true := ⟨_, rfl, rfl⟩
theorem witness_StepKeepsTheConfiguration : ∃ t, step (commandState 0x08) = .next t := ⟨_, rfl⟩
theorem witness_OnlyContractViolationsStopTheMachine :
    step { commandState 0x05 with opb := 6, opc := 5 } = .fault (.contractViolation .clampBounds) := rfl
theorem witness_LegalAccessesGetOkay_read :
    let s := withOps [.regRead 0x14 32]
    s.rstLow = false ∧ (0x14 : Byte).toNat % 4 = 0 ∧ s.pending = .regRead (s.cfg.base + (0x14 : Byte).toNat) 32 :: [] := by decide
theorem witness_LegalAccessesGetOkay_write :
    let s := withOps [.regWrite 0x18 32 9]
    s.rstLow = false ∧ (0x18 : Byte).toNat % 4 = 0 ∧ (0x18 : Byte) ≠ 0x10 ∧
      s.pending = .regWrite (s.cfg.base + (0x18 : Byte).toNat) 32 9 :: [] := by decide
theorem witness_LegalAccessesGetOkay_command :
    (commandState 0x01).pending = .regWrite ((commandState 0x01).cfg.base + (0x10 : Byte).toNat) 32 0x01 :: [.regRead 0x14 32] ∧
      (commandState 0x01).rstLow = false ∧ ∃ t, step (commandState 0x01) = .next t := ⟨by decide, by decide, _, rfl⟩
theorem witness_OnlyCommandsAndResetChangeRes_command :
    ∃ t, step { commandState 0x06 with opa := 1 } = .next t ∧ t.res ≠ ({ commandState 0x06 with opa := 1 } : State).res :=
  ⟨_, rfl, by decide⟩
theorem witness_OnlyCommandsAndResetChangeRes_reset :
    ∃ t, step { withOps [.assertReset] with res := 5 } = .next t ∧ t.res ≠ 5 := ⟨_, rfl, by decide⟩
theorem witness_OnlyMultiplyAndTheHostChangeMemory :
    ∃ t, step (withOps [.memStore 4 9]) = .next t ∧ t.mem ≠ (withOps [.memStore 4 9]).mem := ⟨_, rfl, by decide⟩
theorem witness_OnlyMultiplyAndTheHostChangeMemory_multiply :
    next (step { p2 with pending := [.regWrite 0x10 32 0x10] }) (fun t => decide (t.mem ≠ p2.mem)) = true := by decide
theorem witness_AccessOutsideTheWindowIsRefused :
    let s := { withOps [.regRead 0x40 32] with cfg := { Config.reference with base := 0x1000 } }
    s.pending = .regRead 0x40 32 :: [] ∧ (0x40 < s.cfg.base ∨ s.cfg.base + 256 ≤ 0x40) := by decide
theorem witness_AccessOutsideTheWindowIsRefused_write :
    (withOps [.regWrite 256 32 0]).pending = .regWrite 256 32 0 :: [] ∧ (withOps [.regWrite 256 32 0]).cfg.base + 256 ≤ 256 := by
  decide
theorem witness_AccessOutsideTheWindowIsRefused_above :
    (withOps [.regRead 256 32]).pending = .regRead 256 32 :: [] ∧ (withOps [.regRead 256 32]).cfg.base + 256 ≤ 256 := by decide

theorem witness_ReleasedResetLeavesResetValues_release :
    let s := { withOps [.releaseReset] with rstLow := true, res := 5 }
    s.rstLow = true ∧ s.pending = .releaseReset :: [] := by decide
theorem witness_ReleasedResetLeavesResetValues_assert : (withOps [.assertReset]).pending = .assertReset :: [] := by decide
theorem witness_ReleasedResetLeavesResetValues_unanswered :
    let s := { withOps [.regRead 0x14 32] with rstLow := true }
    s.rstLow = true ∧ s.pending = .regRead (s.cfg.base + (0x14 : Byte).toNat) 32 :: [] := by decide
theorem witness_ResetDuringMultiply :
    let s := { p2 with pending := [.multiplyCutByReset] }
    s.rstLow = false ∧ s.pending = .multiplyCutByReset :: [] ∧ ∀ r, bulkResult s ≠ .error (.contract r) := by
  refine ⟨by decide, by decide, fun r => ?_⟩
  cases r <;> decide
theorem witness_ResetMeetsTheInvariant : Config.wf { Config.reference with addrW := 1, hasPacked := false } = true := by decide
theorem witness_StepKeepsTheInvariant : State.Inv (commandState 0x10) ∧ ∃ t, step (commandState 0x10) = .next t :=
  ⟨by decide, _, rfl⟩

theorem witness_OperandCommandsChangeOnlyRes :
    Instr.xform4 ≠ .multiply ∧ Instr.wellFormed (operands 1 2 3).cfg.hasPacked .xform4 = true ∧
      next (exec .xform4 (operands 1 2 3)) (fun _ => true) = true := by decide
theorem witness_MultiplyFrame_completes : next (exec .multiply p2) (fun t => decide (t.faults = [])) = true := by decide
theorem witness_MultiplyFrame_aborted : next (exec .multiply refused) (fun t => decide (t.status = 2)) = true := by decide

theorem witness_NopChangesNothing : (0x00000100 : Word).extractLsb' 0 8 = 0 ∧ (0x00000100 : Word) ≠ 0 := by decide
theorem witness_DhmulRoundsToNearestTiesAway_pair :
    (operands 0x80000000 0x80000000 0).opa = 0x80000000 ∧ (operands 0x80000000 0x80000000 0).opb = 0x80000000 := by decide
theorem witness_DhmulRoundsToNearestTiesAway_tie :
    let s := operands 0xFFFFFFFF 0x40000000 0
    ¬ (s.opa = 0x80000000 ∧ s.opb = 0x80000000) ∧ 2 ^ 31 * (-1) - s.opa.toInt * s.opb.toInt = -2 ^ 30 := by decide
theorem witness_DhmulSaturatesForExactlyOnePair : ¬ ((0x80000000 : Word) = 0x80000000 ∧ (0x7FFFFFFF : Word) = 0x80000000) := by
  decide
theorem witness_RdpotShifts_right :
    ([0, 1, 31] : List Word).all
      (fun sh => decide (0 ≤ (operands 0x80000000 sh 0).opb.toInt ∧ (operands 0x80000000 sh 0).opb.toInt ≤ 31)) = true := by
  decide
theorem witness_RdpotShifts_left :
    let s := operands 0xFFFFFFFF 0xFFFFFFE1 0;
    -31 ≤ s.opb.toInt ∧ s.opb.toInt < 0 ∧ -2 ^ 31 ≤ s.opa.toInt * 2 ^ (-s.opb.toInt).toNat ∧
      s.opa.toInt * 2 ^ (-s.opb.toInt).toNat ≤ 2 ^ 31 - 1 := by decide
theorem witness_RdpotContractViolations_range : 31 < (operands 0 32 0).opb.toInt := by decide
theorem witness_RdpotContractViolations_completes : violationOf (exec .rdpot (operands 0xC0000000 0xFFFFFFFF 0)) = none := by decide
theorem witness_RdpotContractViolations_overflow :
    let s := operands 0x40000000 0xFFFFFFFF 0;
    -31 ≤ s.opb.toInt ∧ s.opb.toInt < 0 ∧ 2 ^ 31 - 1 < s.opa.toInt * 2 ^ (-s.opb.toInt).toNat := by decide
theorem witness_RescaleIsDhmulThenRdpot :
    exec .dhmul (operands 1000 0x5A000000 3) = .next { operands 1000 0x5A000000 3 with res := 703 } := rfl
theorem witness_RescaleCompletes :
    let s := operands 65536 0x40000000 0xFFFFFFF1;
    -31 ≤ s.opc.toInt ∧ s.opc.toInt ≤ 31 ∧
      (s.opc.toInt < 0 → -2 ^ 31 ≤ dhmul s.opa.toInt s.opb.toInt * 2 ^ (-s.opc.toInt).toNat ∧
        dhmul s.opa.toInt s.opb.toInt * 2 ^ (-s.opc.toInt).toNat ≤ 2 ^ 31 - 1) := by decide
theorem witness_UnityMultiplierIsExact :
    let s := operands 0xC0000000 0x7FFFFFFF 0
    s.opb = 0x7FFFFFFF ∧ s.opc = 0 ∧ |s.opa.toInt| ≤ 2 ^ 30 := by decide
theorem witness_RescaleAccuracy_right :
    ¬ ((1000 : Word) = 0x80000000 ∧ (0x5A000000 : Word) = 0x80000000) ∧
      rescale (1000 : Word).toInt (0x5A000000 : Word).toInt 3 = .ok 88 ∧ (0 : Int) ≤ 3 := by decide
theorem witness_RescaleAccuracy_left :
    ¬ ((7 : Word) = 0x80000000 ∧ (0x40000000 : Word) = 0x80000000) ∧
      rescale (7 : Word).toInt (0x40000000 : Word).toInt (-1) = .ok 8 ∧ (-1 : Int) < 0 := by decide

theorem witness_CorrectAddsTheOffset_fits :
    let s := operands 0x7F 0x7FFFFF80 0;
    -2 ^ 31 ≤ (s.opa.setWidth 8).toInt + s.opb.toInt ∧ (s.opa.setWidth 8).toInt + s.opb.toInt ≤ 2 ^ 31 - 1 := by decide
theorem witness_CorrectAddsTheOffset_overflows :
    let s := operands 0x7F 0x7FFFFF81 0
    2 ^ 31 - 1 < (s.opa.setWidth 8).toInt + s.opb.toInt ∧ exec .correct s = .fault (.contractViolation .correctOverflow) :=
  ⟨by decide, rfl⟩
theorem witness_ClampBoundsTheValue_in : (operands 17 5 5).opb.toInt ≤ (operands 17 5 5).opc.toInt := by decide
theorem witness_ClampBoundsTheValue_out : (operands 0 6 5).opc.toInt < (operands 0 6 5).opb.toInt := by decide
theorem witness_NarrowKeepsTheLowByte_in :
    -128 ≤ (operands 0xFFFFFF80 0 0).opa.toInt ∧ (operands 0xFFFFFF80 0 0).opa.toInt ≤ 127 := by decide
theorem witness_NarrowKeepsTheLowByte_transform : transform unity 0xFB 0x03 = .ok (-15) := by decide
theorem witness_XformComputesTheTransform :
    let s := withParams { unity with in1Off := 0xFFFFFF80, in2Off := 0x7F } 0x80 0x7F;
    -128 ≤ s.params.in1Off.toInt ∧ s.params.in1Off.toInt ≤ 127 ∧ -128 ≤ s.params.in2Off.toInt ∧ s.params.in2Off.toInt ≤ 127 ∧
      s.params.outMin.toInt ≤ s.params.outMax.toInt ∧ -128 ≤ s.params.outMin.toInt ∧ s.params.outMax.toInt ≤ 127 ∧
      rescale (((s.opa.setWidth 8).toInt + s.params.in1Off.toInt) * ((s.opb.setWidth 8).toInt + s.params.in2Off.toInt))
        s.params.outMult.toInt s.params.outShift.toInt = .ok (-65024) ∧
      -2 ^ 31 ≤ -65024 + s.params.outOff.toInt ∧ -65024 + s.params.outOff.toInt ≤ 2 ^ 31 - 1 := by decide
/-- (a) to (g) of R126 failing one at a time (95_test_vectors.md 2.7). -/
theorem witness_XformReportsTheFirstFailingPrecondition :
    violationOf (exec .xform (withParams { unity with in1Off := 128 } 0 0)) = some .offsetRange ∧
    violationOf (exec .xform (withParams { unity with in2Off := 0xFFFFFF7F } 0 0)) = some .offsetRange ∧
    violationOf (exec .xform (withParams { unity with outMin := 5, outMax := 4 } 0 0)) = some .clampBounds ∧
    violationOf (exec .xform (withParams { unity with outMin := 0xFFFFFF7F } 0 0)) = some .clampRange ∧
    violationOf (exec .xform (withParams { unity with outShift := 32 } 0 0)) = some .shiftRange ∧
    violationOf (exec .xform (withParams { unity with outShift := 0xFFFFFFE1 } 1 1)) = some .shiftOverflow ∧
    violationOf (exec .xform (withParams { unity with outOff := 0x7FFFFFFF } 1 1)) = some .outOffsetOverflow := by decide
theorem witness_XformReportsTheFirstFailingPrecondition_none :
    violationOf (exec .xform (withParams { unity with outShift := 0xFFFFFFE1 } 0 5)) = none := by decide
theorem witness_TransformStaysInTheClampRange :
    transform { unity with outMin := 0, outMax := 6 } 5 7 = .ok 6 ∧
      next (exec .xform (withParams { unity with outMin := 0, outMax := 6 } 5 7)) (fun t => decide (t.res = 6)) = true := by decide
theorem witness_ResetParametersTransformToZero :
    State.reset.params = { in1Off := 0, in2Off := 0, outOff := 0, outMult := 0, outShift := 0, outMin := 0, outMax := 0 } ∧
      State.reset.cfg.hasPacked = true := by decide

theorem witness_PackedOffsetAddIsExact : 3 < 4 ∧ -128 ≤ (0xFFFFFF80 : Word).toInt ∧ (0xFFFFFF80 : Word).toInt ≤ 127 := by decide
theorem witness_PackedPathEqualsScalarPath :
    let s := withParams unity 0x0403FB0A 0x02020303
    s.cfg.hasPacked = true ∧ ∀ j, j < 4 →
      transform s.params (s.opa.extractLsb' (8 * j) 8) (s.opb.extractLsb' (8 * j) 8) = .ok ([30, -15, 6, 8].getD j 0) := by
  decide
theorem witness_Xform4ReportsTheFirstFailingLane :
    let s := withParams { unity with outOff := 0x7FFFFFFF } 0x01000000 0x01010101
    s.cfg.hasPacked = true ∧ 3 < 4 ∧
      (∀ k, k < 3 → transform s.params (s.opa.extractLsb' (8 * k) 8) (s.opb.extractLsb' (8 * k) 8) = .ok 127) ∧
      transform s.params (s.opa.extractLsb' (8 * 3) 8) (s.opb.extractLsb' (8 * 3) 8) = .error .outOffsetOverflow := by decide
theorem witness_WithoutPackedDatapath : (State.resetOf { Config.reference with hasPacked := false }).cfg.hasPacked = false := by
  decide

theorem witness_MultiplyOfNothing : { State.reset with params := { unity with outMin := 5, outMax := 4 } }.count = 0 := by decide
theorem witness_MultiplyAddressChecks_overflow :
    violationOf (exec .multiply (buffers 0x100 0x200 0xFFFFFFFE 3)) = some .addressOverflow ∧
      next (exec .multiply (buffers 0x100 0x200 0xFFFFFFFE 2)) (fun _ => true) = true := by decide
theorem witness_MultiplyAddressChecks_alias :
    violationOf (exec .multiply (buffers 0x100 0x100 0x100 1)) = some .outputAliasesInput ∧
      next (exec .multiply (buffers 0x100 0x102 0x104 2)) (fun _ => true) = true := by decide

/-- The checks of MULTIPLY before the map is looked at. -/
theorem checks_of_decide {s : State} (h1 : s.count ≠ 0)
    (h2 : src1Of s + countOf s ≤ memSize s.cfg ∧ src2Of s + countOf s ≤ memSize s.cfg ∧ dstOf s + countOf s ≤ memSize s.cfg)
    (h3 : src1Of s + countOf s ≤ dstOf s ∧ src2Of s + countOf s ≤ dstOf s) :
    s.count ≠ 0 ∧ src1Of s + countOf s ≤ memSize s.cfg ∧ src2Of s + countOf s ≤ memSize s.cfg ∧
      dstOf s + countOf s ≤ memSize s.cfg ∧
      ∀ x, dstOf s ≤ x → x < dstOf s + countOf s →
        ¬ (src1Of s ≤ x ∧ x < src1Of s + countOf s) ∧ ¬ (src2Of s ≤ x ∧ x < src2Of s + countOf s) :=
  ⟨h1, h2.1, h2.2.1, h2.2.2, fun x hx _ => ⟨fun h => by omega, fun h => by omega⟩⟩

theorem witness_MultiplyDeviceAndParameterChecks_device :
    let s := { buffers 0x100 0x200 0x300 4 with cfg := mapped [{ base := 0x203, size := 1, kind := .device }] }
    (s.count ≠ 0 ∧ src1Of s + countOf s ≤ memSize s.cfg ∧ src2Of s + countOf s ≤ memSize s.cfg ∧
      dstOf s + countOf s ≤ memSize s.cfg ∧
      ∀ x, dstOf s ≤ x → x < dstOf s + countOf s →
        ¬ (src1Of s ≤ x ∧ x < src1Of s + countOf s) ∧ ¬ (src2Of s ≤ x ∧ x < src2Of s + countOf s)) ∧
    plainMem s.cfg 0x203 1 = false ∧ src2Of s ≤ 0x203 ∧ 0x203 < src2Of s + countOf s :=
  ⟨checks_of_decide (by decide) (by decide) (by decide), by decide⟩
theorem witness_MultiplyDeviceAndParameterChecks_parameters :
    let s := { buffers 0x100 0x200 0x300 1 with params := { unity with in1Off := 128 } }
    (s.count ≠ 0 ∧ src1Of s + countOf s ≤ memSize s.cfg ∧ src2Of s + countOf s ≤ memSize s.cfg ∧
      dstOf s + countOf s ≤ memSize s.cfg ∧
      ∀ x, dstOf s ≤ x → x < dstOf s + countOf s →
        ¬ (src1Of s ≤ x ∧ x < src1Of s + countOf s) ∧ ¬ (src2Of s ≤ x ∧ x < src2Of s + countOf s)) ∧
    (∀ x, src1Of s ≤ x ∧ x < src1Of s + countOf s ∨ src2Of s ≤ x ∧ x < src2Of s + countOf s ∨
      dstOf s ≤ x ∧ x < dstOf s + countOf s → plainMem s.cfg x 1 = true) ∧
    paramViolation s.params = some .offsetRange :=
  ⟨checks_of_decide (by decide) (by decide) (by decide), fun _ _ => rfl, by decide⟩
theorem witness_MultiplyTransformsEveryElement :
    Memory.wf p2.mem = true ∧ p2.count ≠ 0 ∧ bulkViolation p2 = none ∧ portOpen p2 = true ∧
      ∀ i, i < countOf p2 → elementTransform p2 i = .ok ([15, -8, 3, 4, 127, 64].getD i 0) := by
  refine ⟨by decide, by decide, by decide, by decide, ?_⟩
  rw [show countOf p2 = 6 by decide]
  decide
theorem witness_MultiplyReportsTheFirstFailingElement :
    let s := { p2 with params := { p2.params with outOff := 0x7FFFFFF0 } }
    s.count ≠ 0 ∧ bulkViolation s = none ∧ portOpen s = true ∧ 4 < countOf s ∧
      (∀ k, k < 4 → elementTransform s k = .ok 127) ∧ elementTransform s 4 = .error .outOffsetOverflow := by decide
/-- Element 0 of a packed group violates its contract where a write of the group would be refused. -/
theorem witness_MultiplyReportsTheFirstFailingElement_unit :
    let s := { p2 with params := { p2.params with outOff := 0x7FFFFFF1 },
                       cfg := mapped [{ base := 0x1203, size := 1, kind := .refusesWrites }] }
    s.count ≠ 0 ∧ bulkViolation s = none ∧ elementTransform s 0 = .error .outOffsetOverflow ∧ portOpen s = false ∧
      0 < unitsOf s ∧ (∀ k, k < 0 → unitCompletes s k) ∧ unitReads s 0 ∧ unitStart s 0 ≤ 0 ∧ 0 < unitStart s 0 + unitSize s 0 ∧
      ∀ k, unitStart s 0 ≤ k → k < 0 → ∃ c, elementTransform s k = .ok c :=
  ⟨by decide, by decide, by decide, by decide, by decide, fun _ h => by omega, ⟨by decide, by decide⟩, by decide, by decide,
    fun _ _ h => by omega⟩
theorem witness_PackedAccessesAreFourScalarAccesses : Memory.wf p2Memory = true := by decide
theorem witness_PackedEnableChangesNoResult :
    Memory.wf p2.mem = true ∧ ∃ t, exec .multiply p2 = .next t ∧ t.faults = p2.faults := by
  refine ⟨by decide, ?_⟩
  have h : next (exec .multiply p2) (fun t => decide (t.faults = p2.faults)) = true := by decide
  obtain ⟨t, h1, h2⟩ := next_iff.mp h
  exact ⟨t, h1, of_decide_eq_true h2⟩
/-- MULTIPLY of 5 elements, a packed group and one more element, on a platform with `m` as its map. -/
def fiveOn (m : List Region) : State := { buffers 0x100 0x200 0x300 5 with cfg := mapped m }

/-- Unit 0, a packed group, completes when none of its accesses is refused and its four elements have results. -/
theorem unit0_completes {s : State} (hu : unitStart s 0 + unitSize s 0 = 4) (he : ∀ i, i < 4 → elementTransform s i = .ok 0)
    (h1 : readRefused s.cfg (src1Of s + unitStart s 0) (unitSize s 0) = false)
    (h2 : readRefused s.cfg (src2Of s + unitStart s 0) (unitSize s 0) = false)
    (h3 : writeRefused s.cfg (dstOf s + unitStart s 0) (unitSize s 0) = false) : ∀ k, k < 1 → unitCompletes s k := by
  intro k hk
  obtain rfl : k = 0 := by omega
  exact ⟨⟨h1, h2⟩, fun i _ hi => ⟨0, he i (by omega)⟩, h3⟩

theorem witness_MemErrorAbortsMultiply_src1 :
    let s := fiveOn [{ base := 0x103, size := 1, kind := .refusesReads }]
    s.count ≠ 0 ∧ bulkViolation s = none ∧ 0 < unitsOf s ∧ (∀ k, k < 0 → unitCompletes s k) ∧
      readRefused s.cfg (src1Of s + unitStart s 0) (unitSize s 0) = true :=
  ⟨by decide, by decide, by decide, fun _ h => by omega, by decide⟩
theorem witness_MemErrorAbortsMultiply_src2 :
    let s := fiveOn [{ base := 0x204, size := 1, kind := .refusesReads }]
    s.count ≠ 0 ∧ bulkViolation s = none ∧ 1 < unitsOf s ∧ (∀ k, k < 1 → unitCompletes s k) ∧
      readRefused s.cfg (src1Of s + unitStart s 1) (unitSize s 1) = false ∧
      readRefused s.cfg (src2Of s + unitStart s 1) (unitSize s 1) = true :=
  ⟨by decide, by decide, by decide, unit0_completes (by decide) (by decide) (by decide) (by decide) (by decide), by decide, by decide⟩
theorem witness_MemErrorAbortsMultiply_dst :
    let s := fiveOn [{ base := 0x304, size := 1, kind := .refusesWrites }]
    s.count ≠ 0 ∧ bulkViolation s = none ∧ 1 < unitsOf s ∧ (∀ k, k < 1 → unitCompletes s k) ∧ unitReads s 1 ∧ unitComputes s 1 ∧
      writeRefused s.cfg (dstOf s + unitStart s 1) (unitSize s 1) = true := by
  refine ⟨by decide, by decide, by decide, unit0_completes (by decide) (by decide) (by decide) (by decide) (by decide), ⟨by decide, by decide⟩, ?_, by decide⟩
  intro i h1 h2
  obtain rfl : i = 4 := Nat.le_antisymm (Nat.le_of_lt_succ h2) h1
  exact ⟨0, by decide⟩

theorem witness_CoherentStoreIsSeen :
    let s := withOps [.memStore 0xFFFFFFFF 7, .memLoad 0xFFFFFFFF]
    s.Inv ∧ s.cfg.coherent = true ∧ 0xFFFFFFFF < 2 ^ s.cfg.addrW ∧ plainMem s.cfg 0xFFFFFFFF 1 = true ∧
      s.pending = .memStore 0xFFFFFFFF 7 :: .memLoad 0xFFFFFFFF :: [] := by decide

/-- A machine whose port is not coherent with the host's cache. -/
def incoherent (ops : List HostOp) : State := loadProgram (State.resetOf { Config.reference with coherent := false }) ops

theorem witness_CacheMaintenanceMakesMemoryAgree_clean :
    let s := incoherent [.memStore 0x100 7, .cacheClean 0x100 1, .memLoad 0x100]
    s.Inv ∧ s.cfg.coherent = false ∧ 0x100 < 2 ^ s.cfg.addrW ∧ plainMem s.cfg 0x100 1 = true ∧ 0x100 ≤ 0x100 ∧ 0x100 < 0x100 + 1 ∧
      s.pending = .memStore 0x100 7 :: .cacheClean 0x100 1 :: [.memLoad 0x100] := by decide
theorem witness_CacheMaintenanceMakesMemoryAgree_invalidate :
    let s := incoherent [.cacheInvalidate 0x100 4, .memLoad 0x103]
    s.cfg.coherent = false ∧ 0x103 < 2 ^ s.cfg.addrW ∧ plainMem s.cfg 0x103 1 = true ∧ 0x100 ≤ 0x103 ∧ 0x103 < 0x100 + 4 ∧
      s.pending = .cacheInvalidate 0x100 4 :: .memLoad 0x103 :: [] := by decide
theorem witness_CacheMaintenanceMakesMemoryAgree_load :
    let s := { incoherent [.memLoad 0x101] with stale := [(0x102, 4)], unclean := [(0x100, 1)] }
    s.cfg.coherent = false ∧ 0x101 < 2 ^ s.cfg.addrW ∧ plainMem s.cfg 0x101 1 = true ∧ isStale s 0x101 = false ∧
      (∀ c ∈ s.unclean, c.1 ≠ 0x101) ∧ s.pending = .memLoad 0x101 :: [] := by decide
/-- MULTIPLY makes its last output byte stale. -/
theorem witness_CacheMaintenanceMakesMemoryAgree_stale :
    let s := { p2 with cfg := { Config.reference with coherent := false }, pending := [.regWrite 0x10 32 0x10] }
    isStale s 0x1205 = false ∧ next (step s) (fun t => isStale t 0x1205 && !isStale t 0x1206) = true := by decide

/-! The cache where COHERENT = false (R65, R185; log 14) -/

/-- A NOP after the invalidate leaves the output settled: the next load returns memory (R51, R185). -/
theorem test_invalidated_stays_settled :
    let s := { incoherent [.regWrite 0x10 32 0] with mem := [(0x1205, 0x40)] }
    next (step s) (fun t => decide (settledByte t 0x1205 = some 0x40)) = true := by decide
/-- What lies beside an invalidated range stays stale. -/
theorem test_invalidate_cuts_the_range :
    let s := { incoherent [.cacheInvalidate 0x101 2] with stale := [(0x100, 4)] }
    next (step s) (fun t => decide (t.stale = [(0x100, 1), (0x103, 1)])) = true := by decide

end Sys2Proof.Machine.Tests
end

section
/-!
SUPPORT. The statements of 00_scope.md: the state after reset, the step of a decodable CMD write, the parameters, and the
invariant of StepKeepsTheInvariant, each kept operation by operation.
-/
namespace Sys2Proof.Machine
open Sys2Proof

/-! The registers at reset and the RAZ/WI bits -/

/-- CTRL at reset has no bit that does not exist (R30). -/
theorem ctrlReset_and_ctrlMask (c : Config) : Config.ctrlReset c &&& ctrlMask c = Config.ctrlReset c :=
  BitVec.and_self

theorem addrBits_zero (c : Config) : addrBits c 0 = 0 := by
  simp [addrBits]

/-- A fault sets no STATUS bit that does not exist (R33). -/
theorem statusBit_and_statusMask (f : Fault) : statusBit f &&& statusMask = statusBit f := by
  cases f with
  | illegalCommand => exact (by decide : statusIllegal &&& statusMask = statusIllegal)
  | memError => exact (by decide : statusMemErr &&& statusMask = statusMemErr)
  | _ => exact BitVec.zero_and

theorem readReg_resetOf (c : Config) (r : RegName) : readReg (State.resetOf c) r = resetValue c r := by
  cases r with
  | ctrl => exact ctrlReset_and_ctrlMask c
  | status => exact BitVec.zero_and
  | src1 => exact addrBits_zero c
  | src2 => exact addrBits_zero c
  | dst => exact addrBits_zero c
  | _ => rfl

/-- The reset parameters meet R126 (a) to (e). -/
theorem paramViolation_reset : paramViolation Params.reset = none := by decide

/-- A MULTIPLY of no elements checks and accesses nothing, and clears RES (R144). -/
theorem execMultiply_of_count_zero {s : State} (h : countOf s = 0) : execMultiply s = .next (setRes s 0) := by
  have hput : putOutput s s.mem = s := by
    simp [putOutput, h]
  simp [execMultiply, bulkResult, h, hput]

/-! The step of a CMD write -/

theorem step_of_pending {s : State} {op : HostOp} {rest : List HostOp} (h : s.pending = op :: rest) :
    step s = perform op (takeNext s rest) := by
  simp [step, h]

theorem runCommand_of_decode {s : State} {w : Word} {i : Instr} (h : decode s.cfg.hasPacked w = .ok i) :
    runCommand s w = exec i s := by
  simp [runCommand, h]

/-! The parameters -/

theorem Executed.cfg_eq {s t : State} {i : Instr} (h : Executed s i t) : t.cfg = s.cfg := by
  cases h <;> rfl

theorem Performed.cfg_eq {s t : State} {op : HostOp} (h : Performed s op t) : t.cfg = s.cfg := by
  cases h with
  | command _ _ _ _ _ _ _ he => exact (exec_cases he).cfg_eq
  | _ => simp

/-! The invariant, operation by operation -/

theorem resetOf_inv {c : Config} (h : Config.wf c = true) : (State.resetOf c).Inv :=
  ⟨h, rfl, rfl, rfl, ctrlReset_and_ctrlMask c, BitVec.zero_and, addrBits_zero c, addrBits_zero c, addrBits_zero c⟩

theorem enterError_inv {s : State} (h : s.Inv) (f : Fault) : (enterError s f).Inv := by
  obtain ⟨hcfg, hwf, hin, hun, hctrl, hstatus, hsrc1, hsrc2, hdst⟩ := h
  have hbits : (s.status ||| statusBit f) &&& statusMask = s.status ||| statusBit f := by
    rw [BitVec.and_or_distrib_right, hstatus, statusBit_and_statusMask]
  exact ⟨hcfg, hwf, hin, hun, hctrl, hbits, hsrc1, hsrc2, hdst⟩

theorem resetRegs_inv {s : State} (h : s.Inv) : (resetRegs s).Inv := by
  obtain ⟨hcfg, hwf, hin, hun, _⟩ := h
  exact ⟨hcfg, hwf, hin, hun, ctrlReset_and_ctrlMask s.cfg, BitVec.zero_and, addrBits_zero _, addrBits_zero _,
    addrBits_zero _⟩

theorem fallReset_inv {s : State} (h : s.Inv) : (fallReset s).Inv := (resetRegs_inv h :)

/-- A register write stores no RAZ/WI bit (R30, R34, R40). -/
theorem writeReg_inv {s : State} (h : s.Inv) (w : Word) (r : RegName) : (writeReg s w r).Inv := by
  have ⟨hcfg, hwf, hin, hun, hctrl, hstatus, hsrc1, hsrc2, hdst⟩ := h
  cases r with
  | ctrl =>
    have hmask : w &&& ctrlMask s.cfg &&& ctrlMask s.cfg = w &&& ctrlMask s.cfg := by
      rw [BitVec.and_assoc, BitVec.and_self]
    exact ⟨hcfg, hwf, hin, hun, hmask, hstatus, hsrc1, hsrc2, hdst⟩
  | status =>
    have hmask : statusAfterWrite s.status w &&& statusMask = statusAfterWrite s.status w := by
      unfold statusAfterWrite
      rw [BitVec.and_assoc, BitVec.and_comm (~~~_), ← BitVec.and_assoc, hstatus]
    exact ⟨hcfg, hwf, hin, hun, hctrl, hmask, hsrc1, hsrc2, hdst⟩
  | src1 => exact ⟨hcfg, hwf, hin, hun, hctrl, hstatus, addrBits_idem s.cfg w, hsrc2, hdst⟩
  | src2 => exact ⟨hcfg, hwf, hin, hun, hctrl, hstatus, hsrc1, addrBits_idem s.cfg w, hdst⟩
  | dst => exact ⟨hcfg, hwf, hin, hun, hctrl, hstatus, hsrc1, hsrc2, addrBits_idem s.cfg w⟩
  | _ => exact h

/-- The invariant reads neither the stale ranges nor the count of draws, so a change of memory alone is judged by memory. -/
theorem memory_inv {s : State} {m : Memory} (h : s.Inv) (hwf : Memory.wf m = true) (hin : cellsInside s.cfg m = true)
    (stale : List (Nat × Nat)) (fresh : Nat) : { s with mem := m, stale := stale, fresh := fresh }.Inv := by
  obtain ⟨hcfg, _, _, hrest⟩ := h
  exact ⟨hcfg, hwf, hin, hrest⟩

theorem freeRange_inv {s : State} (h : s.Inv) {a n : Nat} (ha : a + n ≤ memSize s.cfg) : (freeRange s a n).Inv := by
  have ⟨_, hwf, hin, _⟩ := h
  exact memory_inv h (memFree_wf hwf a s.fresh n) (memFree_inside s.fresh ha hin) _ _

/-- The memory a MULTIPLY leaves is canonical and inside its space (R60). -/
theorem putOutput_inv {s : State} (h : s.Inv) {m : Memory} (hm : bulkResult s = .ok m) : (putOutput s m).Inv := by
  have ⟨_, hwf, hin, _⟩ := h
  obtain ⟨_, hkeepsWf, hkeepsIn⟩ := bulkResult_keeps hm
  have hdst : dstOf s + countOf s ≤ memSize s.cfg := dst_inside_of_result (by simp [hm])
  exact memory_inv h (hkeepsWf hwf) (hkeepsIn hdst hin) _ _

theorem storeByte_inv {s : State} (h : s.Inv) {a : Nat} (ha : a < memSize s.cfg) (b : Byte) : (storeByte s a b).Inv := by
  have ⟨hcfg, hwf, hin, hun, hregs⟩ := h
  unfold storeByte
  split
  · exact memory_inv h (Memory.wf_write hwf a b) (Memory.write_inside ha hin) _ _
  · have hun' : cellsInside s.cfg ((a, b) :: s.unclean.filter fun c => decide (c.1 ≠ a)) = true :=
      (cellsInside_cons _ _ _).mpr ⟨ha, cellsInside_filter _ hun⟩
    exact ⟨hcfg, Memory.wf_write hwf _ _, Memory.write_inside ha hin, hun', hregs⟩

theorem loadByte_inv {s : State} (h : s.Inv) (a : Nat) : (loadByte s a).Inv := by
  unfold loadByte
  split <;> exact h

/-- A clean changes the byte of an uncleaned store at most, never its address. -/
theorem cleanedCell_inside {s : State} {cs : List Host.Cell} (h : cellsInside s.cfg cs = true) :
    cellsInside s.cfg (cs.map (cleanedCell s)) = true := by
  have haddr : ∀ c, (cleanedCell s c).1 = c.1 := fun c => by unfold cleanedCell; split <;> rfl
  simpa [cellsInside, haddr] using h

theorem cleanRange_inv {s : State} (h : s.Inv) (r : Nat × Nat) : (cleanRange s r).Inv := by
  have ⟨hcfg, hwf, hin, hun, hregs⟩ := h
  unfold cleanRange
  split
  · exact h
  · exact ⟨hcfg, writeBack_wf hwf _, writeBack_inside hin (cleanedCell_inside (cellsInside_filter _ hun)),
      cellsInside_filter _ hun, hregs⟩

theorem invalidateRange_inv {s : State} (h : s.Inv) (r : Nat × Nat) : (invalidateRange s r).Inv := by
  have ⟨hcfg, hwf, hin, hun, hregs⟩ := h
  unfold invalidateRange
  split
  · exact h
  · exact ⟨hcfg, hwf, hin, cellsInside_filter _ hun, hregs⟩

theorem riseReset_inv {s : State} (h : s.Inv) : (riseReset s).Inv := by
  unfold riseReset
  split
  · exact (resetRegs_inv h :)
  · exact h

theorem cutState_inv {s : State} (h : s.Inv) (hv : ∀ r, bulkResult s ≠ .error (.contract r)) : (cutState s).Inv := by
  have hfree : (freeRange s (dstOf s) (countOf s)).Inv := freeRange_inv h (dst_inside_of_result hv)
  exact (fallReset_inv (enterError_inv hfree .resetDuringCommand) :)

theorem Executed.inv {s t : State} {i : Instr} (ht : Executed s i t) (h : s.Inv) : t.Inv := by
  cases ht with
  | nothing => exact h
  | result => exact h
  | noDatapath => exact enterError_inv h _
  | completed m hm => exact putOutput_inv h hm
  | aborted a ha => exact enterError_inv (freeRange_inv h (dst_inside_of_result (by simp [ha]))) _

theorem Performed.inv {s t : State} {op : HostOp} (ht : Performed s op t) (h : s.Inv) : t.Inv := by
  cases ht with
  | readUnanswered => exact h
  | readOk => exact h
  | readError => exact enterError_inv h _
  | writeUnanswered => exact h
  | writeIgnored => exact h
  | writeReg _ w _ r => exact writeReg_inv (s := complete s _) h w r
  | command _ _ _ _ _ _ _ he => exact (exec_cases he).inv h
  | illegal => exact enterError_inv h _
  | writeError => exact enterError_inv h _
  | store a b ha => exact storeByte_inv h ha b
  | load a => exact loadByte_inv h a
  | clean base size => exact cleanRange_inv h (base, size)
  | invalidate base size => exact invalidateRange_inv h (base, size)
  | fall => exact fallReset_inv h
  | rise => exact riseReset_inv h
  | cutUnanswered => exact h
  | cut _ hv => exact cutState_inv h hv

/-! The statements -/

/-- Settles O26: the step is idle or performs one operation, and each operation keeps the invariant. -/
theorem stepKeepsTheInvariant : Obligations.StepKeepsTheInvariant := by
  intro s t h hstep
  rcases step_next hstep with ⟨_, rfl⟩ | ⟨op, rest, _, ht⟩
  · exact h
  · exact ht.inv (s := takeNext s rest) h

/-- Settles O20: no operation of the host and no command changes a parameter. -/
theorem stepKeepsTheConfiguration : Obligations.StepKeepsTheConfiguration := by
  intro s t hstep
  rcases step_next hstep with ⟨_, rfl⟩ | ⟨op, rest, _, ht⟩
  · rfl
  · exact ht.cfg_eq

/-- Settles O4: a CMD write accepts the access and runs the word, and a word that decodes is executed. -/
theorem stepRunsTheDecodedCommand : Obligations.StepRunsTheDecodedCommand := by
  intro s rest w i hpending hrst hdecode
  calc step s
      = perform (cmdWrite s.cfg w) (takeNext s rest) := step_of_pending hpending
    _ = runCommand (acceptCommand (takeNext s rest)) w := perform_cmdWrite (s := takeNext s rest) hrst w
    _ = exec i (acceptCommand (takeNext s rest)) := runCommand_of_decode hdecode

/-- Settles O22: the registers by cases, the parameters by evaluation, MULTIPLY by its zero count. -/
theorem resetRegisterValues : Obligations.ResetRegisterValues :=
  ⟨readReg_resetOf, fun c => ⟨paramViolation_reset, execMultiply_of_count_zero (s := State.resetOf c) rfl⟩,
    rfl, rfl, rfl, rfl⟩

/-- Settles O25: the reference configuration is one of the legal ones. -/
theorem resetMeetsTheInvariant : Obligations.ResetMeetsTheInvariant :=
  ⟨resetOf_inv (by decide), fun _ h => resetOf_inv h⟩

end Sys2Proof.Machine
end

section
/-!
SUPPORT. The register port (10_state.md R24-R34): the step of a legal access, what a register reads after a write, and what an
operation of the host does to the command index, RES and STATUS.
-/
namespace Sys2Proof.Machine
open Sys2Proof

/-! Legal accesses to the register port -/

/-- An offset that is a multiple of 4 is legal for a 32-bit access (R25). -/
theorem accessLegal_of_aligned {off : Byte} (h : off.toNat % 4 = 0) : accessLegal 32 off = true := by
  have hlow : off.extractLsb' 0 2 = 0 := by
    apply BitVec.eq_of_toNat_eq
    simpa using h
  simp [accessLegal, hlow]

@[simp] theorem readReg_takeNext (s : State) (rest : List HostOp) (r : RegName) :
    readReg (takeNext s rest) r = readReg s r := by
  cases r <;> rfl

@[simp] theorem readReg_complete (s : State) (a : Answer) (r : RegName) : readReg (complete s a) r = readReg s r := by
  cases r <;> rfl

@[simp] theorem readOffset_takeNext (s : State) (rest : List HostOp) (off : Byte) :
    readOffset (takeNext s rest) off = readOffset s off := by
  simp [readOffset]

theorem readOffset_regOffset (s : State) (r : RegName) : readOffset s (regOffset r) = readReg s r := by
  simp [readOffset, regAt_regOffset]

theorem regOffset_aligned (r : RegName) : (regOffset r).toNat % 4 = 0 := by
  cases r <;> rfl

section
variable {s : State} {rest : List HostOp} {off : Byte} {w : Word} (hrst : s.rstLow = false)
include hrst

/-- The step of a legal read answers OKAY with the value at the offset and changes nothing else (R25, R28). -/
theorem step_legalRead (hoff : off.toNat % 4 = 0) (hpending : s.pending = .regRead (s.cfg.base + off.toNat) 32 :: rest) :
    step s = .next (complete (takeNext s rest) (.readData .okay (readOffset s off))) := by
  rw [step_of_pending hpending, ← takeNext_cfg s rest]
  simp only [perform, hostRegRead, windowOffset_base, takeNext_rstLow, hrst, Bool.false_eq_true, if_false,
    accessLegal_of_aligned hoff, if_true, readOffset_takeNext]

/-- The step of a legal write is the write at its offset (R25). -/
theorem step_legalWrite (hoff : off.toNat % 4 = 0) (hpending : s.pending = .regWrite (s.cfg.base + off.toNat) 32 w :: rest) :
    step s = writeOffset (takeNext s rest) off w := by
  rw [step_of_pending hpending, ← takeNext_cfg s rest]
  simp only [perform, hostRegWrite, windowOffset_base, takeNext_rstLow, hrst, Bool.false_eq_true, if_false,
    accessLegal_of_aligned hoff, if_true]

/-- The step of a legal read of a register answers its value (R28). -/
theorem step_readReg {r : RegName} (hpending : s.pending = .regRead (s.cfg.base + (regOffset r).toNat) 32 :: rest) :
    step s = .next (complete (takeNext s rest) (.readData .okay (readReg s r))) := by
  rw [step_legalRead hrst (regOffset_aligned r) hpending, readOffset_regOffset]

/-- The step of a legal write to a register other than CMD writes it and is answered OKAY (R27, R28). -/
theorem step_writeReg {r : RegName} (hr : r ≠ .cmd)
    (hpending : s.pending = .regWrite (s.cfg.base + (regOffset r).toNat) 32 w :: rest) :
    step s = .next (writeReg (complete (takeNext s rest) (.written .okay)) w r) := by
  rw [step_of_pending hpending]
  exact perform_regWrite (s := takeNext s rest) hrst hr w

end

/-- A legal write at an offset other than CMD's completes (R26-R28). -/
theorem writeOffset_completes {off : Byte} (h : off ≠ regOffset .cmd) (s : State) (w : Word) :
    ∃ t, writeOffset s off w = .next t := by
  unfold writeOffset
  split
  · exact ⟨_, rfl⟩
  · next hr => exact absurd (regAt_offset hr) h
  · exact ⟨_, rfl⟩

/-- A command answers nothing itself: the answer is the one its CMD write was accepted with (R29). -/
theorem Executed.answer_eq {s t : State} {i : Instr} (h : Executed s i t) : t.answer = s.answer := by
  cases h <;> rfl

/-- A command word, legal or not, keeps the answer its CMD write was accepted with (R29, R166). -/
theorem runCommand_answer {s t : State} {w : Word} (h : runCommand s w = .next t) : t.answer = s.answer := by
  unfold runCommand at h
  split at h
  · exact (exec_cases h).answer_eq
  · cases h
    rfl

/-- A legal write that gives a next state is answered OKAY (R25). -/
theorem writeOffset_answer {s t : State} {off : Byte} {w : Word} (h : writeOffset s off w = .next t) :
    t.answer = some (.written .okay) := by
  unfold writeOffset at h
  split at h
  · cases h
    rfl
  · exact runCommand_answer h
  · cases h
    exact writeReg_answer ..

/-- A reserved offset belongs to no register (R24, R26). -/
theorem regAt_reserved {off : Byte}
    (h : (0x24 ≤ off.toNat ∧ off.toNat ≤ 0x3C) ∨ off.toNat = 0x5C ∨ 0x70 ≤ off.toNat) : regAt off = none := by
  cases hr : regAt off with
  | none => rfl
  | some r =>
    obtain rfl := regAt_offset hr
    cases r <;> exact absurd h (by decide)

/-! Register reads after a register write -/

/-- A register written takes the word as the rules restrict it (R27, R28, R30, R34, R40). -/
theorem readReg_writeReg_same (s : State) (w : Word) (r : RegName) :
    readReg (writeReg s w r) r = writtenValue s.cfg r (readReg s r) w := by
  cases r with
  | ctrl =>
    change w &&& ctrlMask s.cfg &&& ctrlMask s.cfg = if s.cfg.hasPacked then w &&& 1 else 0
    rw [BitVec.and_assoc, BitVec.and_self]
    unfold ctrlMask
    split
    · rfl
    · exact BitVec.and_zero
  | status =>
    change s.status &&& ~~~(w &&& 3) &&& 3 = s.status &&& 3 &&& ~~~(w &&& 3)
    rw [BitVec.and_assoc, BitVec.and_assoc, BitVec.and_comm 3]
  | src1 => exact addrBits_idem s.cfg w
  | src2 => exact addrBits_idem s.cfg w
  | dst => exact addrBits_idem s.cfg w
  | _ => rfl

/-- A register write leaves what a read of any other register returns (R28): each of the pairs of different registers
evaluates. -/
theorem readReg_writeReg_other (s : State) (w : Word) {r r' : RegName} (h : r' ≠ r) :
    readReg (writeReg s w r) r' = readReg s r' := by
  cases r <;> cases r' <;> trivial

/-- A read after a register write: the word, as the rules restrict it, from the register written, and the old value from any
other (R28). -/
theorem readReg_writeReg (s : State) (w : Word) (r r' : RegName) :
    readReg (writeReg s w r) r' = if r' = r then writtenValue s.cfg r (readReg s r) w else readReg s r' := by
  split
  · next h => rw [h, readReg_writeReg_same]
  · next h => exact readReg_writeReg_other s w h

/-! ID and CAP -/

/-- The five fields of a word laid out as CAP is (R32). -/
theorem capLayout_fields (top aw lanes : BitVec 8) (mid : BitVec 7) (packed : BitVec 1) :
    let v : BitVec (8 + 8 + 8 + 7 + 1) := top ++ aw ++ lanes ++ mid ++ packed
    v.extractLsb' 0 1 = packed ∧ v.extractLsb' 1 7 = mid ∧ v.extractLsb' 8 8 = lanes ∧ v.extractLsb' 16 8 = aw ∧
      v.extractLsb' 24 8 = top := by
  intro v
  simp (disch := omega) only [v, BitVec.extractLsb'_append_eq_of_le, BitVec.extractLsb'_append_eq_of_add_le]
  simp

/-- The fields of CAP in a legal configuration, whose ADDR_W fits its eight bits (R6, R32). -/
theorem capWord_fields {c : Config} (h : Config.wf c = true) :
    ((capWord c).extractLsb' 0 1).toNat = (if c.hasPacked then 1 else 0) ∧ (capWord c).extractLsb' 1 7 = 0 ∧
      (capWord c).extractLsb' 8 8 = 4 ∧ ((capWord c).extractLsb' 16 8).toNat = c.addrW ∧
      (capWord c).extractLsb' 24 8 = 0 := by
  have hw : c.addrW < 256 := by
    simp only [Config.wf, Bool.and_eq_true, decide_eq_true_eq] at h
    omega
  obtain ⟨hpacked, hmid, hlanes, haw, htop⟩ :=
    capLayout_fields 0 (BitVec.ofNat 8 c.addrW) 4 0 (BitVec.ofBool c.hasPacked)
  refine ⟨?_, hmid, hlanes, ?_, htop⟩
  · refine (congrArg BitVec.toNat hpacked).trans ?_
    cases c.hasPacked <;> rfl
  · exact (congrArg BitVec.toNat haw).trans ((BitVec.toNat_ofNat ..).trans (Nat.mod_eq_of_lt hw))

/-- A host address outside the 256 bytes at BASE has no offset (R24). -/
theorem windowOffset_outside {c : Config} {addr : Nat} (h : addr < c.base ∨ c.base + 256 ≤ addr) :
    windowOffset c addr = none :=
  if_neg (by omega)

/-! What an operation does to the command index and to RES -/

/-- A word that decodes is the word of its command, and the implementation has the command (R73, R76, R78). -/
theorem decode_ok {hp : Bool} {w : Word} {i : Instr} (h : decode hp w = .ok i) :
    w = encode i ∧ i.wellFormed hp = true := by
  by_cases hr : rsvdField w = 0
  · rw [decode_of_rsvd_zero hr] at h
    obtain ⟨hop, hwf⟩ := decodeOp_ok h
    refine ⟨?_, hwf⟩
    rw [word_of_fields w, hr, hop]
    rfl
  · rw [decode_of_rsvd hr] at h
    cases h

/-- The operation is an access to the register port that the block answers: rst_n is high (R22, R178). -/
def isAnsweredAccess (s : State) (op : HostOp) : Prop :=
  ((∃ addr width, op = .regRead addr width) ∨ ∃ addr width w, op = .regWrite addr width w) ∧ s.rstLow = false

theorem Executed.ci_eq {s t : State} {i : Instr} (h : Executed s i t) : t.ci = s.ci := by
  cases h <;> rfl

/-- An answered access advances the command index by one, every other operation keeps it (R22). -/
theorem Performed.ci_cases {s t : State} {op : HostOp} (h : Performed s op t) :
    isAnsweredAccess s op ∧ t.ci = s.ci + 1 ∨ ¬ isAnsweredAccess s op ∧ t.ci = s.ci := by
  cases h with
  | command _ _ _ _ hrst _ _ he =>
    exact .inl ⟨⟨.inr ⟨_, _, _, rfl⟩, hrst⟩, (exec_cases he).ci_eq⟩
  | _ => simp [isAnsweredAccess, *]

/-- An operation of the host keeps RES, or is a CMD write of a command, or one of the three reset operations (R23). -/
theorem Performed.res_cases {s t : State} {op : HostOp} (h : Performed s op t) :
    t.res = s.res ∨
      (∃ addr w i, op = .regWrite addr 32 w ∧ windowOffset s.cfg addr = some 0x10 ∧ decode s.cfg.hasPacked w = .ok i) ∨
      op = .assertReset ∨ op = .releaseReset ∨ op = .multiplyCutByReset := by
  cases h with
  | command addr w i _ _ ho hd _ => exact .inr (.inl ⟨addr, w, i, rfl, ho, hd⟩)
  | _ => simp

/-! What an operation does to STATUS -/

/-- Every STATUS bit of `t` was set in `s`. -/
def KeepsStatusBits (s t : State) : Prop := ∀ k, t.status.getLsbD k = true → s.status.getLsbD k = true

theorem keepsStatusBits_of_eq {s t : State} (h : t.status = s.status) : KeepsStatusBits s t := fun _ hk => h ▸ hk

theorem keepsStatusBits_of_zero {s t : State} (h : t.status = 0) : KeepsStatusBits s t := fun k hk => by simp [h] at hk

/-- A register write sets no STATUS bit: STATUS itself only clears (R34). -/
theorem writeReg_keepsStatusBits (s : State) (w : Word) (r : RegName) : KeepsStatusBits s (writeReg s w r) := by
  cases r with
  | status =>
    intro k hk
    change (s.status &&& _).getLsbD k = true at hk
    rw [BitVec.getLsbD_and, Bool.and_eq_true] at hk
    exact hk.1
  | _ => exact keepsStatusBits_of_eq rfl

theorem riseReset_keepsStatusBits (s : State) : KeepsStatusBits s (riseReset s) := by
  unfold riseReset
  split
  · exact keepsStatusBits_of_zero rfl
  · exact keepsStatusBits_of_eq rfl

/-- A malformed access has no STATUS bit (R169). -/
theorem regAccessError_keepsStatusBits (s : State) (off : Byte) : KeepsStatusBits s (enterError s (.regAccessError off)) :=
  keepsStatusBits_of_eq BitVec.or_zero

/-- A command of the implementation leaves STATUS, but a MULTIPLY that got an ERROR response (R168). -/
theorem Executed.status_cases {s t : State} {i : Instr} (h : Executed s i t) (hwf : i.wellFormed s.cfg.hasPacked = true) :
    t.status = s.status ∨
      i = .multiply ∧ t.status = s.status ||| statusMemErr ∧ ∃ a, bulkResult s = .error (.portError a) := by
  cases h with
  | noDatapath hp => simp [Instr.wellFormed, hp] at hwf
  | aborted a ha => exact .inr ⟨rfl, rfl, a, ha⟩
  | _ => exact .inl rfl

/-- What an operation of the host does to STATUS: it sets no bit, or it is a CMD write that enters one of the two errors
with a STATUS bit (R33). -/
theorem Performed.status_cases {s t : State} {op : HostOp} (h : Performed s op t) :
    KeepsStatusBits s t ∨
      (t.status = s.status ||| statusIllegal ∧ ∃ addr w e, op = .regWrite addr 32 w ∧
        windowOffset s.cfg addr = some 0x10 ∧ decode s.cfg.hasPacked w = .error e) ∨
      (t.status = s.status ||| statusMemErr ∧ ∃ addr a, op = .regWrite addr 32 (encode .multiply) ∧
        windowOffset s.cfg addr = some 0x10 ∧ bulkResult s = .error (.portError a)) := by
  cases h with
  | readError => exact .inl (regAccessError_keepsStatusBits _ _)
  | writeError => exact .inl (regAccessError_keepsStatusBits _ _)
  | writeReg => exact .inl (writeReg_keepsStatusBits _ _ _)
  | rise => exact .inl (riseReset_keepsStatusBits s)
  | fall => exact .inl (keepsStatusBits_of_zero rfl)
  | cut => exact .inl (keepsStatusBits_of_zero rfl)
  | illegal addr w e _ ho hd => exact .inr (.inl ⟨rfl, addr, w, e, rfl, ho, hd⟩)
  | command addr w i _ _ ho hd he =>
    obtain ⟨rfl, hwf⟩ := decode_ok hd
    rcases (exec_cases he).status_cases hwf with hkept | ⟨rfl, hset, a, ha⟩
    · exact .inl (keepsStatusBits_of_eq hkept)
    · exact .inr (.inr ⟨hset, addr, a, rfl, ho, ha⟩)
  | _ => exact .inl (keepsStatusBits_of_eq (by simp))

theorem getLsbD_statusIllegal (k : Nat) : statusIllegal.getLsbD k = decide (k = 0) := by
  simp [statusIllegal]

theorem getLsbD_statusMemErr (k : Nat) : statusMemErr.getLsbD k = decide (k = 1) := by
  change (BitVec.twoPow 32 1).getLsbD k = decide (k = 1)
  rw [BitVec.getLsbD_twoPow]
  simp [eq_comm]

/-- Which operation sets a STATUS bit that was clear: bit 0 an illegal command word, bit 1 a MULTIPLY that got an ERROR
response, no operation another bit (R33). -/
theorem Performed.sets_statusBit {s t : State} {op : HostOp} (h : Performed s op t) {k : Nat}
    (ht : t.status.getLsbD k = true) (hs : s.status.getLsbD k = false) :
    (k = 0 ∧ ∃ addr w e, op = .regWrite addr 32 w ∧ windowOffset s.cfg addr = some 0x10 ∧
        decode s.cfg.hasPacked w = .error e) ∨
      (k = 1 ∧ ∃ addr a, op = .regWrite addr 32 (encode .multiply) ∧ windowOffset s.cfg addr = some 0x10 ∧
        bulkResult s = .error (.portError a)) := by
  rcases h.status_cases with hkept | ⟨hset, hop⟩ | ⟨hset, hop⟩
  · exact absurd (hkept k ht) (ne_true_of_eq_false hs)
  · rw [hset, BitVec.getLsbD_or, hs, Bool.false_or, getLsbD_statusIllegal, decide_eq_true_eq] at ht
    exact .inl ⟨ht, hop⟩
  · rw [hset, BitVec.getLsbD_or, hs, Bool.false_or, getLsbD_statusMemErr, decide_eq_true_eq] at ht
    exact .inr ⟨ht, hop⟩

/-! Commands and the value of STATUS -/

/-- A command that writes RES with a word that does not depend on STATUS completes alike for every value of STATUS. -/
theorem finish_status {s t : State} {r : Except Violation Word} (x : Word) (h : finish s r = .next t) :
    ∃ t', finish { s with status := x } r = .next t' ∧ t'.res = t.res ∧ t'.mem = t.mem := by
  obtain ⟨v, rfl, rfl⟩ := finish_next.mp h
  exact ⟨_, rfl, rfl, rfl⟩

/-- MULTIPLY completes alike for every value of STATUS, and is aborted alike (R34). -/
theorem execMultiply_status {s t : State} (x : Word) (h : execMultiply s = .next t) :
    ∃ t', execMultiply { s with status := x } = .next t' ∧ t'.res = t.res ∧ t'.mem = t.mem := by
  have hresult : bulkResult { s with status := x } = bulkResult s := rfl
  unfold execMultiply at h ⊢
  rw [hresult]
  split at h
  · cases h
    exact ⟨_, rfl, rfl, rfl⟩
  · cases h
  · cases h
    exact ⟨_, rfl, rfl, rfl⟩

/-- XFORM4 completes alike for every value of STATUS, also where it is illegal (R34). -/
theorem execXform4_status {s t : State} (x : Word) (h : execXform4 s = .next t) :
    ∃ t', execXform4 { s with status := x } = .next t' ∧ t'.res = t.res ∧ t'.mem = t.mem := by
  unfold execXform4 at h ⊢
  split at h
  · next hp =>
    rw [if_pos hp]
    exact finish_status x h
  · next hp =>
    rw [if_neg hp]
    cases h
    exact ⟨_, rfl, rfl, rfl⟩

/-- A command that gives a next state gives one for every value of STATUS, with the same RES and memory (R34). -/
theorem exec_status {i : Instr} {s t : State} (x : Word) (h : exec i s = .next t) :
    ∃ t', exec i { s with status := x } = .next t' ∧ t'.res = t.res ∧ t'.mem = t.mem := by
  cases i with
  | nop =>
    cases h
    exact ⟨_, rfl, rfl, rfl⟩
  | xform4 => exact execXform4_status x h
  | multiply => exact execMultiply_status x h
  | dhmul => exact finish_status (r := .ok _) x h
  | narrow => exact finish_status (r := .ok _) x h
  | _ => exact finish_status x h

theorem getLsbD_statusMask (k : Nat) : statusMask.getLsbD k = decide (k < 2) := by
  change (BitVec.ofNat 32 (2 ^ 2 - 1)).getLsbD k = _
  rw [BitVec.getLsbD_ofNat, Nat.testBit_two_pow_sub_one, ← Bool.decide_and]
  exact decide_eq_decide.mpr (by omega)

/-- A STATUS write clears the bits written 1 among the two that exist, and leaves every other bit (R34). -/
theorem getLsbD_statusAfterWrite (status w : Word) (k : Nat) :
    (statusAfterWrite status w).getLsbD k = (status.getLsbD k && !(w.getLsbD k && decide (k < 2))) := by
  rw [statusAfterWrite, BitVec.getLsbD_and, BitVec.getLsbD_not, BitVec.getLsbD_and, getLsbD_statusMask]
  by_cases hk : k < 32
  · rw [decide_eq_true hk, Bool.true_and]
  · rw [BitVec.getLsbD_of_ge _ _ (Nat.le_of_not_lt hk), Bool.false_and, Bool.false_and]

/-! The reset parameters and the missing datapath -/

theorem dhmul_zero (v : Int) : dhmul v 0 = 0 := by
  rw [dhmul, mul_zero, rhaz_of_zero]
  rfl

/-- With the reset parameters the shared tail gives 0 for every pair of corrected samples (R45). -/
theorem scaleAndClamp_reset (a b : Int) : scaleAndClamp Params.reset a b = .ok 0 := by
  have hrescale : rescale (a * b) 0 0 = .ok 0 := by
    rw [rescale, dhmul_zero, rdpot_zero]
  exact scaleAndClamp_ok.mpr ⟨0, hrescale, by decide, by decide, by decide⟩

theorem transform_reset (x y : Byte) : transform Params.reset x y = .ok 0 := by
  rw [transform_of_params paramViolation_reset, scaleAndClamp_reset]

theorem packedLane_reset (a b : Word) (j : Nat) : packedLane Params.reset a b j = .ok 0 := by
  rw [packedLane, paramViolation_reset]
  exact scaleAndClamp_reset _ _

/-- With the reset parameters every lane gives 0 (R45). -/
theorem packedTransform_reset (a b : Word) : packedTransform Params.reset a b = .ok 0 := by
  simp only [packedTransform, packedLane_reset]
  rfl

/-- CAP.PACKED is bit 0 (R32). -/
theorem capWord_packed (c : Config) : (capWord c).getLsbD 0 = c.hasPacked :=
  (BitVec.getLsbD_append ..).trans (by simp)

end Sys2Proof.Machine
end

section
/-!
SUPPORT. Both paths of MULTIPLY say the same (42_packed.md R136): a packed lane is the scalar transform of its bytes, a packed
group its four elements, and a MULTIPLY that completes leaves the results of its elements on either path.
-/
namespace Sys2Proof.Machine
open Sys2Proof

/-! The packed datapath, lane by lane -/

/-- The dual add of two pairs adds each half by itself (R132). -/
theorem dualAdd_append (a b c d : Half) : dualAdd (a ++ b) (c ++ d) = (a + c) ++ (b + d) := by
  unfold dualAdd
  rw [BitVec.extractLsb'_append_eq_left, BitVec.extractLsb'_append_eq_left, BitVec.extractLsb'_append_eq_right,
    BitVec.extractLsb'_append_eq_right]

/-- The corrected lane `j` is the widened byte `j` plus the low half of the offset register, modulo 2^16 (R132). -/
theorem laneSum_eq_add (w k : Word) {j : Nat} (hj : j < 4) : laneSum w k j = widen w j + k.extractLsb' 0 16 := by
  unfold laneSum evenPair oddPair offPair
  rw [dualAdd_append, dualAdd_append]
  match j, hj with
  | 0, _ => exact BitVec.extractLsb'_append_eq_right
  | 1, _ => exact BitVec.extractLsb'_append_eq_right
  | 2, _ => exact BitVec.extractLsb'_append_eq_left
  | 3, _ => exact BitVec.extractLsb'_append_eq_left

/-- An offset of the sample range is held by the low half of its register. -/
theorem toInt_lowHalf {k : Word} (h : fits8 (sintOf k) = true) : (k.extractLsb' 0 16).toInt = sintOf k := by
  have hoff := (fits8_iff _).mp h
  calc (k.extractLsb' 0 16).toInt
      = (k.toNat : Int).bmod (2 ^ 16) := by rw [← BitVec.setWidth_eq_extractLsb' (by decide), BitVec.toInt_setWidth]
    _ = (sintOf k).bmod (2 ^ 16) := by rw [sintOf, BitVec.toInt_eq_toNat_bmod, Int.bmod_bmod_of_dvd (by decide)]
    _ = sintOf k := Int.bmod_eq_of_le (by norm_num; omega) (by norm_num; omega)

/-- With an offset of the sample range the dual add is exact in every lane (R132). -/
theorem toInt_laneSum (w : Word) {k : Word} (h : fits8 (sintOf k) = true) {j : Nat} (hj : j < 4) :
    (laneSum w k j).toInt = (laneOf w j).toInt + sintOf k := by
  have hlane := (fits8_iff _).mp (sample_fits (laneOf w j))
  have hoff := (fits8_iff _).mp h
  rw [laneSum_eq_add w k hj, BitVec.toInt_add, toInt_lowHalf h, widen, BitVec.toInt_signExtend_of_le (by decide)]
  exact Int.bmod_eq_of_le (by norm_num; omega) (by norm_num; omega)

/-- A packed lane is the scalar transform of the two bytes of that lane (R136). -/
theorem packedLane_eq_transform (p : Params) (a b : Word) {j : Nat} (hj : j < 4) :
    packedLane p a b j = transform p (laneOf a j) (laneOf b j) := by
  cases hp : paramViolation p with
  | some r => simp [packedLane, transform, hp]
  | none =>
    obtain ⟨h1, h2, _⟩ := (paramViolation_none p).mp hp
    rw [transform_of_params hp, packedLane, hp]
    dsimp only
    rw [toInt_laneSum a h1 hj, toInt_laneSum b h2 hj]

theorem forall_lt_four {P : Nat → Prop} : (∀ j, j < 4 → P j) ↔ P 0 ∧ P 1 ∧ P 2 ∧ P 3 := by
  constructor
  · exact fun h => ⟨h 0 (by decide), h 1 (by decide), h 2 (by decide), h 3 (by decide)⟩
  · rintro ⟨h0, h1, h2, h3⟩ j hj
    match j, hj with
    | 0, _ => exact h0
    | 1, _ => exact h1
    | 2, _ => exact h2
    | 3, _ => exact h3

/-- The byte a transform leaves where it answers. -/
def byteOf : Except Violation Int → Byte
  | .ok c => bits8 c
  | .error _ => 0

/-- The packed transform answers exactly when the scalar transform does in all four lanes, and packs its bytes (R134, R136). -/
theorem packedTransform_ok {p : Params} {a b r : Word} :
    packedTransform p a b = .ok r ↔
      (∀ j, j < 4 → ∃ c, transform p (laneOf a j) (laneOf b j) = .ok c) ∧
        r = byteOf (transform p (laneOf a 3) (laneOf b 3)) ++ byteOf (transform p (laneOf a 2) (laneOf b 2)) ++
          byteOf (transform p (laneOf a 1) (laneOf b 1)) ++ byteOf (transform p (laneOf a 0) (laneOf b 0)) := by
  rw [forall_lt_four, packedTransform, packedLane_eq_transform p a b (j := 0) (by decide),
    packedLane_eq_transform p a b (j := 1) (by decide), packedLane_eq_transform p a b (j := 2) (by decide),
    packedLane_eq_transform p a b (j := 3) (by decide)]
  cases transform p (laneOf a 0) (laneOf b 0) with
  | error => simp
  | ok c0 =>
    cases transform p (laneOf a 1) (laneOf b 1) with
    | error => simp
    | ok c1 =>
      cases transform p (laneOf a 2) (laneOf b 2) with
      | error => simp
      | ok c2 =>
        cases transform p (laneOf a 3) (laneOf b 3) with
        | error => simp
        | ok c3 => simp [byteOf, eq_comm]

/-! MULTIPLY, element by element -/

/-- The byte element `i` of a MULTIPLY leaves where it completes (R145). -/
def resultByte (s : State) (i : Nat) : Byte := byteOf (elementTransform s i)

/-- Element `i` of a MULTIPLY completes: none of its accesses is refused and its transform answers (R143). -/
def elementCompletes (s : State) (i : Nat) : Prop :=
  readRefused s.cfg (src1Of s + i) 1 = false ∧ readRefused s.cfg (src2Of s + i) 1 = false ∧
    writeRefused s.cfg (dstOf s + i) 1 = false ∧ ∃ c, elementTransform s i = .ok c

/-- Memory with the results of the `count` elements from `start` on written to the output range, in ascending order. -/
def writeResults (s : State) : (count start : Nat) → Memory → Memory
  | 0, _, m => m
  | count + 1, start, m => writeResults s count (start + 1) (Memory.write m (dstOf s + start) (resultByte s start))

theorem memWrite_one (m : Memory) (a : Nat) (b : Byte) : memWrite m a b 1 = Memory.write m a b := by
  simp [memWrite]

/-- Writing the results of elements of the MULTIPLY keeps what its loops keep. -/
theorem writeResults_keeps (s : State) (m : Memory) {count start : Nat} (h : start + count ≤ countOf s) :
    BulkKeeps s m (writeResults s count start m) := by
  induction count generalizing start m with
  | zero => exact BulkKeeps.refl s m
  | succ n ih =>
    have hwrite := memWrite_keeps (s := s) m (resultByte s start) (a := dstOf s + start) (n := 1) (by omega) (by omega)
    rw [memWrite_one] at hwrite
    exact hwrite.trans (ih _ (by omega))

/-- A range meets no region of a kind exactly when none of its bytes does (log 11). -/
theorem mapMeets_eq_false (c : Config) (kind : RegionKind) (a n : Nat) :
    mapMeets c kind a n = false ↔ ∀ j, j < n → mapMeets c kind (a + j) 1 = false := by
  rw [← Bool.not_eq_true, mapMeets_iff]
  simp

/-- A write of four packed bytes is four writes, the low byte first (R53, R134). -/
theorem memWrite_pack (m : Memory) (a : Nat) (b3 b2 b1 b0 : Byte) :
    memWrite m a (b3 ++ b2 ++ b1 ++ b0) 4 =
      Memory.write (Memory.write (Memory.write (Memory.write m a b0) (a + 1) b1) (a + 2) b2) (a + 3) b3 := by
  have hlanes : (b3 ++ b2 ++ b1 ++ b0).extractLsb' 0 8 = b0 ∧ (b3 ++ b2 ++ b1 ++ b0).extractLsb' 8 8 = b1 ∧
      (b3 ++ b2 ++ b1 ++ b0).extractLsb' 16 8 = b2 ∧ (b3 ++ b2 ++ b1 ++ b0).extractLsb' 24 8 = b3 := by
    simp (disch := omega) only [BitVec.extractLsb'_append_eq_of_le, BitVec.extractLsb'_append_eq_of_add_le]
    simp
  obtain ⟨h0, h1, h2, h3⟩ := hlanes
  have hbytes (v : BitVec (8 + 8 + 8 + 8)) : memWrite m a v 4 =
      Memory.write (Memory.write (Memory.write (Memory.write m a (v.extractLsb' 0 8)) (a + 1) (v.extractLsb' 8 8))
        (a + 2) (v.extractLsb' 16 8)) (a + 3) (v.extractLsb' 24 8) := rfl
  rw [hbytes, h0, h1, h2, h3]

/-- A loop over a sum of counts completes exactly when both its parts do, one after the other. -/
theorem bulkLoop_add_ok {body : Nat → Memory → Except BulkStop Memory} {c1 c2 start : Nat} {m m' : Memory} :
    bulkLoop body (c1 + c2) start m = .ok m' ↔
      ∃ m1, bulkLoop body c1 start m = .ok m1 ∧ bulkLoop body c2 (start + c1) m1 = .ok m' := by
  rw [bulkLoop_add]
  cases bulkLoop body c1 start m <;> simp

/-- The two loops of MULTIPLY, taken apart (R140). -/
theorem bulkLoops_eq_ok {s : State} {m : Memory} :
    bulkLoops s = .ok m ↔
      ∃ m1, bulkLoop (packedGroup s) (groupsOf s) 0 s.mem = .ok m1 ∧
        bulkLoop (scalarElement s) (countOf s - 4 * groupsOf s) (4 * groupsOf s) m1 = .ok m := by
  unfold bulkLoops
  cases bulkLoop (packedGroup s) (groupsOf s) 0 s.mem <;> simp

section
variable {s : State} (hv : bulkViolation s = none)
include hv

/-- An element, from a memory the loops can reach, has its inputs as they stood before (R61, R143). -/
theorem scalarElement_ok_iff {m m' : Memory} (hm : BulkKeeps s s.mem m) {i : Nat} (hi : i < countOf s) :
    scalarElement s i m = .ok m' ↔ elementCompletes s i ∧ m' = writeResults s 1 i m := by
  obtain ⟨hsrc1, hsrc2⟩ := inputs_kept hv hm hi
  rw [scalarElement_ok, memRead_one, memRead_one, hsrc1, hsrc2]
  simp only [memWrite_one, writeResults, elementCompletes, resultByte]
  change _ ∧ _ ∧ _ ∧ (∃ c, elementTransform s i = .ok c ∧ _) ↔ _
  cases elementTransform s i with
  | error => simp
  | ok c => simp [byteOf, and_assoc]

/-- A run of elements completes exactly when each of them does, and leaves their results. -/
theorem scalarLoop_ok_iff {m m' : Memory} (hm : BulkKeeps s s.mem m) {count start : Nat} (h : start + count ≤ countOf s) :
    bulkLoop (scalarElement s) count start m = .ok m' ↔
      (∀ j, j < count → elementCompletes s (start + j)) ∧ m' = writeResults s count start m := by
  induction count generalizing start m with
  | zero => simp [bulkLoop, writeResults, eq_comm]
  | succ n ih =>
    have hm1 := hm.trans (writeResults_keeps s m (count := 1) (start := start) (by omega))
    have hsplit : (∀ j, j < n + 1 → elementCompletes s (start + j)) ↔
        elementCompletes s start ∧ ∀ j, j < n → elementCompletes s (start + 1 + j) := by
      simp only [Nat.forall_lt_succ_left, Nat.add_zero, Nat.add_assoc, Nat.add_comm 1]
    simp only [bulkLoop_succ_ok, scalarElement_ok_iff hv hm (show start < countOf s by omega), and_assoc,
      exists_and_left, exists_eq_left, ih hm1 (show start + 1 + n ≤ countOf s by omega), hsplit]
    rfl

/-- A packed group completes exactly when its four elements do, and leaves their results (R136, R142). -/
theorem packedGroup_ok_iff {m m' : Memory} (hm : BulkKeeps s s.mem m) {k : Nat} (hk : 4 * k + 4 ≤ countOf s) :
    packedGroup s k m = .ok m' ↔
      (∀ j, j < 4 → elementCompletes s (4 * k + j)) ∧ m' = writeResults s 4 (4 * k) m := by
  have hlane {j : Nat} (hj : j < 4) :
      transform s.params (laneOf (memRead m (src1Of s + 4 * k) 4) j) (laneOf (memRead m (src2Of s + 4 * k) 4) j) =
        elementTransform s (4 * k + j) := by
    obtain ⟨hsrc1, hsrc2⟩ := inputs_kept hv hm (show 4 * k + j < countOf s by omega)
    rw [elementTransform, ← hsrc1, ← hsrc2, ← Nat.add_assoc, ← Nat.add_assoc]
    congr 1
    · exact memRead_byte m _ hj
    · exact memRead_byte m _ hj
  have hcompletes : (∀ j, j < 4 → elementCompletes s (4 * k + j)) ↔
      readRefused s.cfg (src1Of s + 4 * k) 4 = false ∧ readRefused s.cfg (src2Of s + 4 * k) 4 = false ∧
        writeRefused s.cfg (dstOf s + 4 * k) 4 = false ∧ ∀ j, j < 4 → ∃ c, elementTransform s (4 * k + j) = .ok c := by
    simp only [elementCompletes, readRefused, writeRefused, mapMeets_eq_false _ _ _ 4, imp_and, forall_and, Nat.add_assoc]
  rw [packedGroup_ok, hcompletes]
  simp only [packedTransform_ok, and_assoc, exists_and_left, exists_eq_left, memWrite_pack]
  refine and_congr_right fun _ => and_congr_right fun _ => and_congr_right fun _ => and_congr ?_ ?_
  · exact forall₂_congr fun j hj => by rw [hlane hj]
  · rw [hlane (show 0 < 4 by decide), hlane (show 1 < 4 by decide), hlane (show 2 < 4 by decide),
      hlane (show 3 < 4 by decide)]
    rfl

/-- A run of packed groups completes exactly when the run of their elements does, and leaves the same memory (R136, R142). -/
theorem packedLoop_ok_iff {m m' : Memory} (hm : BulkKeeps s s.mem m) {groups k : Nat} (h : 4 * (k + groups) ≤ countOf s) :
    bulkLoop (packedGroup s) groups k m = .ok m' ↔ bulkLoop (scalarElement s) (4 * groups) (4 * k) m = .ok m' := by
  induction groups generalizing k m with
  | zero => rfl
  | succ n ih =>
    have hm1 := hm.trans (writeResults_keeps s m (count := 4) (start := 4 * k) (by omega))
    have ih1 := ih hm1 (k := k + 1) (by omega)
    have hcount : 4 * (n + 1) = 4 + 4 * n := by omega
    rw [bulkLoop_succ_ok, hcount, bulkLoop_add_ok]
    simp only [packedGroup_ok_iff hv hm (show 4 * k + 4 ≤ countOf s by omega),
      scalarLoop_ok_iff hv hm (show 4 * k + 4 ≤ countOf s by omega), and_assoc, exists_and_left, exists_eq_left, ih1]
    rfl

/-- On either path a MULTIPLY whose checks pass completes exactly when every element does, and leaves their results. -/
theorem bulkLoops_ok_iff {m : Memory} :
    bulkLoops s = .ok m ↔
      (∀ i, i < countOf s → elementCompletes s i) ∧ m = writeResults s (countOf s) 0 s.mem := by
  have hg := groups_le s
  calc bulkLoops s = .ok m
      ↔ bulkLoop (scalarElement s) (4 * groupsOf s + (countOf s - 4 * groupsOf s)) 0 s.mem = .ok m := by
        rw [bulkLoops_eq_ok, bulkLoop_add_ok, Nat.zero_add]
        simp only [packedLoop_ok_iff hv (BulkKeeps.refl s s.mem) (show 4 * (0 + groupsOf s) ≤ countOf s by omega)]
    _ ↔ bulkLoop (scalarElement s) (countOf s) 0 s.mem = .ok m := by
        rw [Nat.add_sub_cancel' hg]
    _ ↔ _ := by
        rw [scalarLoop_ok_iff hv (BulkKeeps.refl s s.mem) (by omega)]
        simp only [Nat.zero_add]

end

/-- What a MULTIPLY that completes without a fault did (R140). -/
theorem execMultiply_faultless {s t : State} (h : execMultiply s = .next t) (hf : t.faults = s.faults) :
    ∃ m, bulkResult s = .ok m ∧ t = setRes (putOutput s m) 0 := by
  cases exec_cases (i := .multiply) h with
  | result _ _ _ hm => exact absurd rfl hm
  | completed m hb => exact ⟨m, hb, rfl⟩
  | aborted => simp at hf

/-- The state with another CTRL and with or without the packed datapath. -/
def withPacked (s : State) (c : Word) (hp : Bool) : State := { s with ctrl := c, cfg := { s.cfg with hasPacked := hp } }

theorem writeResults_withPacked (s : State) (c : Word) (hp : Bool) (m : Memory) (count start : Nat) :
    writeResults (withPacked s c hp) count start m = writeResults s count start m := by
  induction count generalizing start m with
  | zero => rfl
  | succ n ih => exact ih _ _

/-- The result of a MULTIPLY that completes depends neither on CTRL nor on whether the datapath is present (R136). -/
theorem bulkResult_withPacked {s : State} {m : Memory} (c : Word) (hp : Bool) (h : bulkResult s = .ok m) :
    bulkResult (withPacked s c hp) = .ok m := by
  rcases bulkResult_ok.mp h with hzero | ⟨hn, hv, hloops⟩
  · exact bulkResult_ok.mpr (.inl hzero)
  · have hv' : bulkViolation (withPacked s c hp) = none := hv
    obtain ⟨helements, rfl⟩ := (bulkLoops_ok_iff hv).mp hloops
    have hloops' := (bulkLoops_ok_iff hv').mpr ⟨helements, (writeResults_withPacked s c hp s.mem (countOf s) 0).symm⟩
    exact bulkResult_ok.mpr (.inr ⟨hn, hv', hloops'⟩)

end Sys2Proof.Machine
end

section
/-!
SUPPORT. The statements of 10_state.md, each from the lemmas above.
-/
namespace Sys2Proof.Machine
open Sys2Proof

/-- Settles O8: a reserved offset belongs to no register, so it reads zero and takes no word. -/
theorem reservedOffsetsReadZeroAndIgnoreWrites : Obligations.ReservedOffsetsReadZeroAndIgnoreWrites := by
  intro s rest off w hrst hoff hreserved
  have hnone := regAt_reserved hreserved
  constructor
  · intro hpending
    rw [step_legalRead hrst hoff hpending]
    simp only [readOffset, hnone]
    rfl
  · intro hpending
    rw [step_legalWrite hrst hoff hpending]
    simp only [writeOffset, hnone]
    rfl

/-- Settles O9: ID, CAP and RES take no word, and CMD holds none. -/
theorem readOnlyRegistersIgnoreWrites : Obligations.ReadOnlyRegistersIgnoreWrites := by
  intro s rest w hrst
  refine ⟨?_, step_readReg (r := .cmd) hrst⟩
  rintro (hpending | hpending | hpending)
  · exact step_writeReg (r := .id) hrst (by decide) hpending
  · exact step_writeReg (r := .cap) hrst (by decide) hpending
  · exact step_writeReg (r := .res) hrst (by decide) hpending

/-- Settles O17: a legal read only answers, and whatever a legal write does it is accepted with OKAY first. -/
theorem legalAccessesGetOkay : Obligations.LegalAccessesGetOkay := by
  intro s rest off w hrst hoff
  constructor
  · exact fun hpending => ⟨readOffset s off, step_legalRead hrst hoff hpending⟩
  · intro hpending
    rw [step_legalWrite hrst hoff hpending]
    exact ⟨fun h => writeOffset_completes h _ w, fun t => writeOffset_answer⟩

/-- Settles O10: the write's step, the read's step, and what a register reads after a write. -/
theorem writeThenReadOfRegisters : Obligations.WriteThenReadOfRegisters := by
  intro s rest r r' w hrst hr hpending
  refine ⟨_, _, step_writeReg hrst hr hpending, by simp, by simp, step_readReg (r := r') (rest := rest) ?_ ?_, ?_⟩
  · simpa using hrst
  · simp
  · simp [readReg_writeReg]

/-- Settles O12: ID is a constant, CAP the fields of `capWord`. -/
theorem idAndCapRead : Obligations.IdAndCapRead := by
  intro s rest hrst hwf
  constructor
  · exact fun hpending => ⟨_, step_readReg (r := .id) hrst hpending, rfl⟩
  · exact fun hpending => ⟨_, capWord s.cfg, step_readReg (r := .cap) hrst hpending, rfl, capWord_fields hwf⟩

/-- Settles O21: outside the window an access has no offset. -/
theorem accessOutsideTheWindowIsRefused : Obligations.AccessOutsideTheWindowIsRefused := by
  intro s rest addr width w hpending haddr
  have hout : windowOffset s.cfg addr = none := windowOffset_outside haddr
  rcases hpending with hpending | hpending
  · simp [step_of_pending hpending, perform, hostRegRead, hout]
  · simp [step_of_pending hpending, perform, hostRegWrite, hout]

/-- Settles O14: by what each operation of the host does to the command index. -/
theorem commandIndexCountsAnsweredAccesses : Obligations.CommandIndexCountsAnsweredAccesses := by
  intro s t hstep
  rcases step_next hstep with ⟨hidle, rfl⟩ | ⟨op, rest, hpending, ht⟩
  · exact .inr ⟨by simp [hidle], rfl⟩
  · simpa [hpending, isAnsweredAccess, and_assoc] using ht.ci_cases

/-- Settles O18: by what each operation of the host does to RES. -/
theorem onlyCommandsAndResetChangeRes : Obligations.OnlyCommandsAndResetChangeRes := by
  intro s t hstep hres
  rcases step_next hstep with ⟨_, rfl⟩ | ⟨op, rest, hpending, ht⟩
  · exact absurd rfl hres
  · rcases ht.res_cases with hkept | ⟨addr, w, i, rfl, ho, hd⟩ | hreset
    · exact absurd hkept hres
    · exact .inl ⟨addr, w, rest, i, hpending, ho, hd⟩
    · exact .inr ⟨op, rest, hpending, hreset⟩

/-- Settles O27: by what an executed command did; XFORM4 without its datapath is no command of the implementation. -/
theorem operandCommandsChangeOnlyRes : Obligations.OperandCommandsChangeOnlyRes := by
  intro i s t hm hwf hexec
  cases exec_cases hexec with
  | nothing => exact ⟨rfl, fun _ => rfl⟩
  | result _ _ hn => exact ⟨rfl, fun h => absurd h hn⟩
  | noDatapath hp => simp [Instr.wellFormed, hp] at hwf
  | completed => exact absurd rfl hm
  | aborted => exact absurd rfl hm

/-- Settles O28: a MULTIPLY completed, and its loops wrote the output range alone, or was aborted, and that range is free. -/
theorem multiplyFrame : Obligations.MultiplyFrame := by
  intro s t hexec
  cases exec_cases hexec with
  | result _ _ _ hm => exact absurd rfl hm
  | completed m hb => exact ⟨.inl rfl, (bulkResult_keeps hb).1⟩
  | aborted a _ => exact ⟨.inr ⟨_, rfl⟩, fun x hx => memFree_read_outside s.mem _ _ _ hx⟩

/-- Settles O13: by which operation can set a STATUS bit that was clear. -/
theorem onlyTheTwoErrorsSetStatusBits : Obligations.OnlyTheTwoErrorsSetStatusBits := by
  intro s t hstep
  rcases step_next hstep with ⟨_, rfl⟩ | ⟨op, rest, hpending, hop⟩
  · exact ⟨fun ht hs => absurd ht (ne_true_of_eq_false hs), fun ht hs => absurd ht (ne_true_of_eq_false hs), fun _ _ => id⟩
  · refine ⟨fun ht hs => ?_, fun ht hs => ?_, fun k hk ht => ?_⟩
    · rcases hop.sets_statusBit ht hs with ⟨_, addr, w, e, rfl, ho, hd⟩ | ⟨h01, _⟩
      · exact ⟨addr, w, rest, e, hpending, ho, hd⟩
      · cases h01
    · rcases hop.sets_statusBit ht hs with ⟨h10, _⟩ | ⟨_, addr, a, rfl, ho, ha⟩
      · cases h10
      · exact ⟨addr, rest, a, hpending, ho, ha⟩
    · by_contra hs
      rcases hop.sets_statusBit ht (eq_false_of_ne_true hs) with ⟨rfl, _⟩ | ⟨rfl, _⟩
      · omega
      · omega

/-- Settles O11: the write bit by bit, and every command alike for every STATUS. -/
theorem statusIsWriteOneToClear : Obligations.StatusIsWriteOneToClear := by
  refine ⟨fun s rest w hrst hpending => ?_, fun i s t x => exec_status x⟩
  refine ⟨_, step_writeReg (r := .status) hrst (by decide) hpending, rfl, ?_, ?_, fun k hk => ?_⟩
  · exact (getLsbD_statusAfterWrite ..).trans (by simp)
  · exact (getLsbD_statusAfterWrite ..).trans (by simp)
  · exact (getLsbD_statusAfterWrite ..).trans (by simp [Nat.not_lt.mpr hk])

/-- Settles O45: a zero multiplier makes every product zero, on the scalar path and in every lane. -/
theorem resetParametersTransformToZero : Obligations.ResetParametersTransformToZero := by
  intro s hparams
  change s.params = Params.reset at hparams
  constructor
  · change execXform s = .next (setRes s 0)
    rw [execXform, hparams, transform_reset]
    rfl
  · intro hp
    change execXform4 s = .next (setRes s 0)
    rw [execXform4, if_pos hp, hparams, packedTransform_reset]
    rfl

/-- Settles O49: the word and XFORM4 by evaluation, the rest by the masks that are zero without the datapath. -/
theorem withoutPackedDatapath : Obligations.WithoutPackedDatapath := by
  intro s hp
  have hmask : ctrlMask s.cfg = 0 := by simp [ctrlMask, hp]
  refine ⟨by rw [hp]; rfl, ?_, ?_, fun w => ?_, ?_, ?_⟩
  · change execXform4 s = _
    rw [execXform4, hp]
    rfl
  · simp [readReg, hmask]
  · simp [readReg, hmask]
  · exact (capWord_packed s.cfg).trans hp
  · simp [groupsOf, packedOn, hp]

/-- Settles O56: MULTIPLY completes on either path exactly when each of its elements does, and leaves their results. -/
theorem packedEnableChangesNoResult : Obligations.PackedEnableChangesNoResult := by
  intro s t c hp _ hexec hfaults
  obtain ⟨m, hb, rfl⟩ := execMultiply_faultless hexec hfaults
  change execMultiply (withPacked s c hp) = _
  rw [execMultiply, bulkResult_withPacked c hp hb]
  rfl

end Sys2Proof.Machine
end

section
/-!
SUPPORT. The host's memory and what changes it (20_memory.md R51-R53, R63, R65): packed and scalar accesses, the steps of
a store, a load and the cache operations, and which operation can change memory or make a byte stale.
-/
namespace Sys2Proof.Machine
open Sys2Proof

/-! Multi-byte accesses -/

/-- A value of `n` bytes is determined by its bytes (R52). -/
theorem eq_of_bytes {n : Nat} {v w : BitVec (8 * n)}
    (h : ∀ j, j < n → v.extractLsb' (8 * j) 8 = w.extractLsb' (8 * j) 8) : v = w := by
  apply BitVec.eq_of_getLsbD_eq
  intro i hi
  have hbyte := congrArg (fun b : Byte => b.getLsbD (i % 8)) (h (i / 8) (by omega))
  have hbit : i % 8 < 8 := Nat.mod_lt i (by decide)
  simpa [BitVec.getLsbD_extractLsb', hbit, Nat.div_add_mod] using hbyte

/-- A read of the bytes just written gives the value back (R52). -/
theorem memRead_memWrite {m : Memory} (hm : Memory.wf m = true) (a : Nat) {n : Nat} (v : BitVec (8 * n)) :
    memRead (memWrite m a v n) a n = v := by
  apply eq_of_bytes
  intro j hj
  rw [memRead_byte _ a hj, memWrite_read_inside hm a v hj]

/-- A 4-byte write is four writes of its bytes, at ascending addresses (R52, R53). -/
theorem memWrite_four (m : Memory) (a : Nat) (v : Word) :
    memWrite m a v 4 =
      Memory.write (Memory.write (Memory.write (Memory.write m a (v.extractLsb' 0 8)) (a + 1) (v.extractLsb' 8 8))
        (a + 2) (v.extractLsb' 16 8)) (a + 3) (v.extractLsb' 24 8) := rfl

/-! The steps of the host's own accesses -/

/-- The state after the step of a store of `b` at `a`. -/
def stored (s : State) (rest : List HostOp) (a : Nat) (b : Byte) : State :=
  setAnswer (storeByte (takeNext s rest) a b) (some .done)

theorem hostMayUse_plain {s : State} {a : Nat} (ha : a < memSize s.cfg) (hp : plainMem s.cfg a 1 = true) :
    hostMayUse s a = .ok () := by
  simp [hostMayUse, Nat.not_le.mpr ha, hp]

section
variable {s : State} {a : Nat} {rest : List HostOp} (ha : a < memSize s.cfg) (hp : plainMem s.cfg a 1 = true)
include ha hp

theorem step_memStore {b : Byte} (hpending : s.pending = .memStore a b :: rest) :
    step s = .next (stored s rest a b) := by
  rw [step_of_pending hpending]
  simp only [perform, hostStore, hostMayUse_plain (s := takeNext s rest) ha hp, stored]

/-- A load of a settled byte answers it and changes no memory (R63). -/
theorem step_memLoad {b : Byte} (hb : settledByte s a = some b) (hpending : s.pending = .memLoad a :: rest) :
    step s = .next (setAnswer (takeNext s rest) (some (.loaded b))) := by
  have hb' : settledByte (takeNext s rest) a = some b := hb
  rw [step_of_pending hpending]
  simp only [perform, hostLoad, hostMayUse_plain (s := takeNext s rest) ha hp, loadByte, hb']

end

theorem step_cacheClean {s : State} {base size : Nat} {rest : List HostOp}
    (hpending : s.pending = .cacheClean base size :: rest) :
    step s = .next (setAnswer (cleanRange (takeNext s rest) (base, size)) (some .done)) :=
  step_of_pending hpending

theorem step_cacheInvalidate {s : State} {base size : Nat} {rest : List HostOp}
    (hpending : s.pending = .cacheInvalidate base size :: rest) :
    step s = .next (setAnswer (invalidateRange (takeNext s rest) (base, size)) (some .done)) :=
  step_of_pending hpending

/-! What a store and a clean leave -/

section
variable (s : State) (rest : List HostOp) (a : Nat) (b : Byte)

@[simp] theorem stored_cfg : (stored s rest a b).cfg = s.cfg := storeByte_cfg (takeNext s rest) a b

@[simp] theorem stored_pending : (stored s rest a b).pending = rest := storeByte_pending (takeNext s rest) a b

/-- With COHERENT a store is a write of the port's memory (R63, R65). -/
theorem stored_mem_coherent (hc : s.cfg.coherent = true) : (stored s rest a b).mem = Memory.write s.mem a b := by
  simp [stored, storeByte, hc]

/-- Without COHERENT the host's cache holds a store, in front of the other uncleaned stores (log 14). -/
theorem stored_unclean (hc : s.cfg.coherent = false) :
    (stored s rest a b).unclean = (a, b) :: s.unclean.filter (fun c => decide (c.1 ≠ a)) := by
  simp [stored, storeByte, hc]

theorem stored_wf (hm : Memory.wf s.mem = true) : Memory.wf (stored s rest a b).mem = true := by
  unfold stored storeByte
  split
  · exact Memory.wf_write hm _ _
  · exact Memory.wf_write hm _ _

/-- A store settles its byte (log 14). -/
theorem stored_not_stale (hc : s.cfg.coherent = false) : isStale (stored s rest a b) a = false := by
  have h := storeByte_isStale (s := takeNext s rest) hc a b a
  exact eq_false_of_ne_true fun hs => (h.mp hs).2 rfl

theorem stored_settled (hm : Memory.wf s.mem = true) : settledByte (stored s rest a b) a = some b :=
  storeByte_settled (s := takeNext s rest) hm a b

end

/-- A clean of a range leaves no uncleaned store in it (R65). -/
theorem cleanRange_unclean {s : State} {r : Nat × Nat} {a : Nat} (hc : s.cfg.coherent = false) (h : inRange r a = true) :
    ∀ c ∈ (cleanRange s r).unclean, c.1 ≠ a := by
  rintro c hmem rfl
  simp [cleanRange, hc, h] at hmem

/-- After a clean that covers it, a load of the host's newest store returns the byte stored (R65, R185). -/
theorem cleanRange_settled {s : State} {r : Nat × Nat} {a : Nat} {b : Byte} {cs : List Host.Cell} (hc : s.cfg.coherent = false)
    (hm : Memory.wf s.mem = true) (h : inRange r a = true) (hs : isStale s a = false) (hu : s.unclean = (a, b) :: cs) :
    settledByte (cleanRange s r) a = some b := by
  have hstale : isStale (cleanRange s r) a = false := by
    simpa [isStale] using hs
  rw [settledByte_memory hstale (cleanRange_unclean hc h), cleanRange_read hc hm h hs hu]

/-! The host's duties, step by step -/

section
variable {s : State} {rest : List HostOp} {a base size : Nat} (ha : a < memSize s.cfg) (hp : plainMem s.cfg a 1 = true)
  (hin : inRange (base, size) a = true)
include ha hp hin

/-- A clean that covers the host's newest store brings it to memory, and a load that follows answers it (R65, R185). -/
theorem clean_then_load {b : Byte} {cs : List Host.Cell} (hc : s.cfg.coherent = false) (hwf : Memory.wf s.mem = true)
    (hs : isStale s a = false) (hu : s.unclean = (a, b) :: cs) (hpending : s.pending = .cacheClean base size :: rest) :
    ∃ u, step s = .next u ∧ Memory.read u.mem a = b ∧
      ∀ rest', rest = .memLoad a :: rest' → ∃ v, step u = .next v ∧ v.answer = some (.loaded b) := by
  refine ⟨_, step_cacheClean hpending, cleanRange_read (s := takeNext s rest) hc hwf hin hs hu, fun rest' hrest => ?_⟩
  have hsettled := cleanRange_settled (s := takeNext s rest) hc hwf hin hs hu
  have hcfg := cleanRange_cfg (takeNext s rest) (base, size)
  have hleft := (cleanRange_pending (takeNext s rest) (base, size)).trans hrest
  exact ⟨_, step_memLoad (s := setAnswer (cleanRange (takeNext s rest) (base, size)) _) (hcfg.symm ▸ ha) (hcfg.symm ▸ hp)
    hsettled hleft, rfl⟩

/-- A store, then a clean that covers it, then a load (R65, R185). -/
theorem store_then_clean {b : Byte} (hc : s.cfg.coherent = false) (hwf : Memory.wf s.mem = true)
    (hpending : s.pending = .memStore a b :: .cacheClean base size :: rest) :
    ∃ t u, step s = .next t ∧ step t = .next u ∧ Memory.read u.mem a = b ∧
      ∀ rest', rest = .memLoad a :: rest' → ∃ v, step u = .next v ∧ v.answer = some (.loaded b) := by
  have hcfg := stored_cfg s (.cacheClean base size :: rest) a b
  obtain ⟨u, hu⟩ := clean_then_load (hcfg.symm ▸ ha) (hcfg.symm ▸ hp) hin (hcfg.symm ▸ hc) (stored_wf s _ a b hwf)
    (stored_not_stale s _ a b hc) (stored_unclean s _ a b hc) (stored_pending s _ a b)
  exact ⟨_, u, step_memStore ha hp hpending, hu⟩

/-- A load after an invalidate that covers its address answers what memory held (R65, R185). -/
theorem invalidate_then_load (hpending : s.pending = .cacheInvalidate base size :: .memLoad a :: rest) :
    ∃ t u, step s = .next t ∧ step t = .next u ∧ u.answer = some (.loaded (Memory.read s.mem a)) := by
  have hsettled := invalidateRange_settled (s := takeNext s (.memLoad a :: rest)) hin
  have hcfg := invalidateRange_cfg (takeNext s (.memLoad a :: rest)) (base, size)
  have hleft := invalidateRange_pending (takeNext s (.memLoad a :: rest)) (base, size)
  exact ⟨_, _, step_cacheInvalidate hpending,
    step_memLoad (s := setAnswer (invalidateRange (takeNext s (.memLoad a :: rest)) (base, size)) _) (hcfg.symm ▸ ha)
      (hcfg.symm ▸ hp) hsettled hleft, rfl⟩

end

/-! Which operation changes memory, and which makes a byte stale -/

/-- The operation writes MULTIPLY to CMD; reset may cut the command. -/
def RunsMultiply (s : State) (op : HostOp) : Prop :=
  op = .multiplyCutByReset ∨ ∃ addr, op = .regWrite addr 32 0x00000010 ∧ windowOffset s.cfg addr = some 0x10

/-- A CMD write that decodes to MULTIPLY writes the word 0x10 (R73). -/
theorem runsMultiply_of_decode {s : State} {addr : Nat} {w : Word} (ho : windowOffset s.cfg addr = some 0x10)
    (hd : decode s.cfg.hasPacked w = .ok .multiply) : RunsMultiply s (.regWrite addr 32 w) := by
  obtain ⟨rfl, _⟩ := decode_ok hd
  exact .inr ⟨addr, rfl, ho⟩

/-- A command other than MULTIPLY keeps memory and the stale ranges (R51). -/
theorem Executed.keeps_memory {s t : State} {i : Instr} (h : Executed s i t) (hi : i ≠ .multiply) :
    t.mem = s.mem ∧ t.stale = s.stale := by
  cases h with
  | completed => exact absurd rfl hi
  | aborted => exact absurd rfl hi
  | _ => exact ⟨rfl, rfl⟩

/-- A MULTIPLY makes no byte stale outside its output range (R51; log 14). -/
theorem Executed.multiply_isStale {s t : State} (h : Executed s .multiply t) {a : Nat} (ht : isStale t a = true) :
    isStale s a = true ∨ dstOf s ≤ a ∧ a < dstOf s + countOf s := by
  cases h with
  | result _ _ _ hm => exact absurd rfl hm
  | completed => exact ((staleAfter_any s _ _ a).mp ht).imp_right And.right
  | aborted => exact ((staleAfter_any s _ _ a).mp ht).imp_right And.right

/-- What can change memory: a MULTIPLY, a store, or a clean where COHERENT is false (R51). -/
theorem Performed.mem_cases {s t : State} {op : HostOp} (h : Performed s op t) :
    t.mem = s.mem ∨ RunsMultiply s op ∨ (∃ a b, op = .memStore a b) ∨
      ∃ base size, op = .cacheClean base size ∧ s.cfg.coherent = false := by
  cases h with
  | command addr w i _ _ ho hd he =>
    by_cases hi : i = .multiply
    · subst hi
      exact .inr (.inl (runsMultiply_of_decode ho hd))
    · exact .inl ((exec_cases he).keeps_memory hi).1
  | store a b => exact .inr (.inr (.inl ⟨a, b, rfl⟩))
  | clean base size =>
    cases hc : s.cfg.coherent with
    | true => exact .inl (by simp [cleanRange, hc])
    | false => exact .inr (.inr (.inr ⟨base, size, rfl, rfl⟩))
  | cut => exact .inr (.inl (.inl rfl))
  | _ => exact .inl (by simp)

/-- A store makes no byte stale, whether or not the port is coherent (log 14). -/
theorem storeByte_isStale_imp {s : State} {a x : Nat} {b : Byte} (h : isStale (storeByte s a b) x = true) :
    isStale s x = true := by
  cases hc : s.cfg.coherent with
  | true => simpa [storeByte, hc, isStale] using h
  | false => exact ((storeByte_isStale hc a b x).mp h).1

/-- Nor does an invalidate (log 14). -/
theorem invalidateRange_isStale_imp {s : State} {r : Nat × Nat} {x : Nat} (h : isStale (invalidateRange s r) x = true) :
    isStale s x = true := by
  cases hc : s.cfg.coherent with
  | true => simpa [invalidateRange, hc] using h
  | false => exact ((invalidateRange_isStale hc r x).mp h).1

/-- What can make a byte stale: a MULTIPLY, a byte of its output range (log 14). -/
theorem Performed.isStale_cases {s t : State} {op : HostOp} (h : Performed s op t) {a : Nat} (ht : isStale t a = true) :
    isStale s a = true ∨ dstOf s ≤ a ∧ a < dstOf s + countOf s ∧ RunsMultiply s op := by
  cases h with
  | command addr w i _ _ ho hd he =>
    by_cases hi : i = .multiply
    · subst hi
      have hrun := runsMultiply_of_decode ho hd
      exact ((exec_cases he).multiply_isStale ht).imp_right fun ⟨h1, h2⟩ => ⟨h1, h2, hrun⟩
    · have hkept : t.stale = s.stale := ((exec_cases he).keeps_memory hi).2
      exact .inl (by simpa [isStale, hkept] using ht)
  | store => exact .inl (storeByte_isStale_imp ht)
  | invalidate => exact .inl (invalidateRange_isStale_imp ht)
  | cut =>
    exact ((staleAfter_any s _ _ a).mp ht).imp_right fun ⟨_, h1, h2⟩ => ⟨h1, h2, .inl rfl⟩
  | _ => exact .inl (by simpa [isStale] using ht)

end Sys2Proof.Machine
end

section
/-!
SUPPORT. How a MULTIPLY stops (20_memory.md R55, R59-R61; 43_bulk.md R140): its checks one by one, which of them an element can
raise, and what stops its units.
-/
namespace Sys2Proof.Machine
open Sys2Proof

/-! The checks on the buffers -/

/-- Some buffer passes the top of memory (R60). -/
def PastTop (s : State) : Prop :=
  memSize s.cfg < src1Of s + countOf s ∨ memSize s.cfg < src2Of s + countOf s ∨ memSize s.cfg < dstOf s + countOf s

/-- `x` is an address of an input buffer. -/
def InInput (s : State) (x : Nat) : Prop :=
  src1Of s ≤ x ∧ x < src1Of s + countOf s ∨ src2Of s ≤ x ∧ x < src2Of s + countOf s

/-- The output range shares an address with an input range (R61). -/
def OutputMeetsInput (s : State) : Prop :=
  ∃ x, dstOf s ≤ x ∧ x < dstOf s + countOf s ∧ InInput s x

/-- Every byte of the three buffers is plain memory (R59). -/
def BuffersPlain (s : State) : Prop :=
  plainMem s.cfg (src1Of s) (countOf s) = true ∧ plainMem s.cfg (src2Of s) (countOf s) = true ∧
    plainMem s.cfg (dstOf s) (countOf s) = true

/-- A range is plain memory exactly when each of its bytes is (R59). -/
theorem plainMem_iff (c : Config) (a n : Nat) :
    plainMem c a n = true ↔ ∀ x, a ≤ x → x < a + n → plainMem c x 1 = true := by
  simp only [plainMem, Bool.not_eq_true', mapMeets_eq_false c .device a n]
  constructor
  · intro h x hle hlt
    simpa [Nat.add_sub_cancel' hle] using h (x - a) (by omega)
  · exact fun h j hj => h (a + j) (by omega) (by omega)

theorem buffersPlain_iff (s : State) :
    BuffersPlain s ↔ ∀ x, (InInput s x ∨ dstOf s ≤ x ∧ x < dstOf s + countOf s) → plainMem s.cfg x 1 = true := by
  simp only [BuffersPlain, InInput, plainMem_iff s.cfg _ (countOf s), or_imp, and_imp, forall_and, and_assoc]

theorem outputMeetsInput_iff (s : State) :
    (rangesMeet (dstOf s) (countOf s) (src1Of s) (countOf s) ||
        rangesMeet (dstOf s) (countOf s) (src2Of s) (countOf s)) = true ↔
      OutputMeetsInput s := by
  simp only [Bool.or_eq_true, rangesMeet_iff, OutputMeetsInput, InInput, and_or_left, exists_or]

theorem notPlain_iff (s : State) :
    (!(plainMem s.cfg (src1Of s) (countOf s) && plainMem s.cfg (src2Of s) (countOf s) &&
        plainMem s.cfg (dstOf s) (countOf s))) = true ↔ ¬ BuffersPlain s := by
  rw [Bool.not_eq_true', ← Bool.not_eq_true, Bool.and_eq_true, Bool.and_eq_true, and_assoc, BuffersPlain]

/-- The first check of MULTIPLY (R60, R140). -/
theorem bulkViolation_pastTop {s : State} (h : PastTop s) : bulkViolation s = some .addressOverflow := if_pos h

/-- The second check of MULTIPLY (R61, R140). -/
theorem bulkViolation_outputMeetsInput {s : State} (h1 : ¬ PastTop s) (h2 : OutputMeetsInput s) :
    bulkViolation s = some .outputAliasesInput :=
  (if_neg h1).trans (if_pos ((outputMeetsInput_iff s).mpr h2))

/-- The third check of MULTIPLY (R59, R140). -/
theorem bulkViolation_notPlain {s : State} (h1 : ¬ PastTop s) (h2 : ¬ OutputMeetsInput s) (h3 : ¬ BuffersPlain s) :
    bulkViolation s = some .deviceBuffer :=
  (if_neg h1).trans ((if_neg (mt (outputMeetsInput_iff s).mp h2)).trans (if_pos ((notPlain_iff s).mpr h3)))

/-- Past its checks on the buffers MULTIPLY checks its parameters (R126, R140). -/
theorem bulkViolation_plain {s : State} (h1 : ¬ PastTop s) (h2 : ¬ OutputMeetsInput s) (h3 : BuffersPlain s) :
    bulkViolation s = paramViolation s.params :=
  (if_neg h1).trans ((if_neg (mt (outputMeetsInput_iff s).mp h2)).trans (if_neg fun hb => (notPlain_iff s).mp hb h3))

/-! The violations of an element -/

/-- The violation is one of MULTIPLY's checks on its buffers (R59-R61), not one of the transform's (R126). -/
def Violation.aboutBuffers : Violation → Bool
  | .addressOverflow | .outputAliasesInput | .deviceBuffer => true
  | .shiftRange | .shiftOverflow | .correctOverflow | .clampBounds | .offsetRange | .clampRange | .outOffsetOverflow => false

theorem paramViolation_aboutBuffers {p : Params} {r : Violation} (h : paramViolation p = some r) : r.aboutBuffers = false := by
  unfold paramViolation at h
  split_ifs at h <;> cases h <;> rfl

theorem rdpot_aboutBuffers {x k : Int} {r : Violation} (h : rdpot x k = .error r) : r.aboutBuffers = false := by
  unfold rdpot at h
  split_ifs at h <;> cases h <;> rfl

theorem scaleAndClamp_aboutBuffers {p : Params} {a b : Int} {r : Violation} (h : scaleAndClamp p a b = .error r) :
    r.aboutBuffers = false := by
  unfold scaleAndClamp clamp at h
  split at h
  · next hr => cases h; exact rdpot_aboutBuffers hr
  · split_ifs at h <;> cases h <;> rfl

/-- The transform of an element raises no violation about the buffers (R126). -/
theorem transform_aboutBuffers {p : Params} {x y : Byte} {r : Violation} (h : transform p x y = .error r) :
    r.aboutBuffers = false := by
  cases hp : paramViolation p with
  | some r' =>
    obtain rfl : r' = r := by simpa [transform, hp] using h
    exact paramViolation_aboutBuffers hp
  | none =>
    rw [transform_of_params hp] at h
    exact scaleAndClamp_aboutBuffers h

/-- The packed transform stops only where the transform of one of its lanes does (R135, R136). -/
theorem packedTransform_error {p : Params} {a b : Word} {r : Violation} (h : packedTransform p a b = .error r) :
    ∃ j, transform p (laneOf a j) (laneOf b j) = .error r := by
  have hlane {j : Nat} (hj : j < 4) (hr : packedLane p a b j = .error r) :
      ∃ j, transform p (laneOf a j) (laneOf b j) = .error r :=
    ⟨j, packedLane_eq_transform p a b hj ▸ hr⟩
  unfold packedTransform at h
  split at h
  · cases h
  · next h0 => cases h; exact hlane (by decide) h0
  · next h1 => cases h; exact hlane (by decide) h1
  · next h2 => cases h; exact hlane (by decide) h2
  · next h3 => cases h; exact hlane (by decide) h3

theorem portRead_error {c : Config} {m : Memory} {a n : Nat} {e : BulkStop} (h : portRead c m a n = .error e) :
    e = .portError a := by
  unfold portRead at h
  split at h <;> cases h
  rfl

theorem portWrite_error {w : Nat} {c : Config} {m : Memory} {a n : Nat} {v : BitVec w} {e : BulkStop}
    (h : portWrite c m a n v = .error e) : e = .portError a := by
  unfold portWrite at h
  split at h <;> cases h
  rfl

theorem packedGroup_contract {s : State} {k : Nat} {m : Memory} {r : Violation}
    (h : packedGroup s k m = .error (.contract r)) : r.aboutBuffers = false := by
  unfold packedGroup at h
  split at h
  · next hr => cases h; cases portRead_error hr
  · split at h
    · next hr => cases h; cases portRead_error hr
    · split at h
      · next hr =>
        cases h
        obtain ⟨j, hj⟩ := packedTransform_error hr
        exact transform_aboutBuffers hj
      · cases portWrite_error h

theorem scalarElement_contract {s : State} {i : Nat} {m : Memory} {r : Violation}
    (h : scalarElement s i m = .error (.contract r)) : r.aboutBuffers = false := by
  unfold scalarElement at h
  split at h
  · next hr => cases h; cases portRead_error hr
  · split at h
    · next hr => cases h; cases portRead_error hr
    · split at h
      · next hr => cases h; exact transform_aboutBuffers hr
      · cases portWrite_error h

theorem unitBody_contract {s : State} {j : Nat} {m : Memory} {r : Violation}
    (h : unitBody s j m = .error (.contract r)) : r.aboutBuffers = false := by
  unfold unitBody at h
  split at h
  · exact packedGroup_contract h
  · exact scalarElement_contract h

/-- A loop stops only where one of its iterations does. -/
theorem bulkLoop_error {body : Nat → Memory → Except BulkStop Memory} {count start : Nat} {m : Memory} {e : BulkStop}
    (h : bulkLoop body count start m = .error e) : ∃ k m', body k m' = .error e := by
  induction count generalizing start m with
  | zero => cases h
  | succ n ih =>
    rw [bulkLoop] at h
    split at h
    · next hb => cases h; exact ⟨start, m, hb⟩
    · exact ih h

theorem bulkLoops_contract {s : State} {r : Violation} (h : bulkLoops s = .error (.contract r)) : r.aboutBuffers = false := by
  rw [bulkLoops_units] at h
  obtain ⟨j, m, hj⟩ := bulkLoop_error h
  exact unitBody_contract hj

/-! MULTIPLY and its checks -/

theorem countOf_ne_zero {s : State} (h : s.count ≠ 0) : countOf s ≠ 0 :=
  fun h0 => h (BitVec.eq_of_toNat_eq h0)

/-- MULTIPLY ends in a contract violation exactly when that is what its checks and loops come to (R140). -/
theorem execMultiply_fault {s : State} {r : Violation} :
    execMultiply s = .fault (.contractViolation r) ↔ bulkResult s = .error (.contract r) := by
  rcases execMultiply_cases s with ⟨m, hb, he⟩ | ⟨r', hb, he⟩ | ⟨a, hb, he⟩
  · simp [hb, he]
  · simp [hb, he]
  · simp [hb, he]

/-- A check that fails ends a MULTIPLY of at least one element (R140). -/
theorem execMultiply_of_check {s : State} {r : Violation} (hn : countOf s ≠ 0) (hv : bulkViolation s = some r) :
    execMultiply s = .fault (.contractViolation r) := by
  rw [execMultiply_fault, bulkResult, if_neg hn, hv]

/-- MULTIPLY ends in a violation about its buffers exactly when a check of them fails: no element raises one. -/
theorem execMultiply_aboutBuffers {s : State} {r : Violation} (hr : r.aboutBuffers = true) :
    execMultiply s = .fault (.contractViolation r) ↔ countOf s ≠ 0 ∧ bulkViolation s = some r := by
  refine ⟨fun h => ?_, fun ⟨hn, hv⟩ => execMultiply_of_check hn hv⟩
  rw [execMultiply_fault, bulkResult] at h
  split at h
  · cases h
  · next hn =>
    split at h
    · next hv => cases h; exact ⟨hn, hv⟩
    · exact absurd hr (ne_true_of_eq_false (bulkLoops_contract h))

/-- Past the two checks on the addresses the one violation about the buffers left is the device byte (R140). -/
theorem deviceBuffer_of_past_addresses {s : State} {r : Violation} (h1 : ¬ PastTop s) (h2 : ¬ OutputMeetsInput s)
    (h : bulkViolation s = some r) (hr : r.aboutBuffers = true) : r = .deviceBuffer := by
  by_cases h3 : BuffersPlain s
  · rw [bulkViolation_plain h1 h2 h3] at h
    exact absurd hr (ne_true_of_eq_false (paramViolation_aboutBuffers h))
  · rw [bulkViolation_notPlain h1 h2 h3] at h
    cases h
    rfl

theorem bulkViolation_addressOverflow_iff (s : State) : bulkViolation s = some .addressOverflow ↔ PastTop s := by
  refine ⟨fun h => ?_, bulkViolation_pastTop⟩
  by_contra h1
  by_cases h2 : OutputMeetsInput s
  · rw [bulkViolation_outputMeetsInput h1 h2] at h
    cases h
  · cases deviceBuffer_of_past_addresses h1 h2 h rfl

theorem bulkViolation_outputAliasesInput_iff (s : State) :
    bulkViolation s = some .outputAliasesInput ↔ ¬ PastTop s ∧ OutputMeetsInput s := by
  refine ⟨fun h => ?_, fun ⟨h1, h2⟩ => bulkViolation_outputMeetsInput h1 h2⟩
  have h1 : ¬ PastTop s := by
    intro h1
    rw [bulkViolation_pastTop h1] at h
    cases h
  refine ⟨h1, ?_⟩
  by_contra h2
  cases deviceBuffer_of_past_addresses h1 h2 h rfl

/-! ERROR responses -/

section
variable {s : State} (hv : bulkViolation s = none) {m : Memory} (hm : BulkKeeps s s.mem m)
include hv hm

/-- Lane `j` of the words packed group `k` reads is its element, as memory stood before (R61, R142). -/
theorem transform_lane {k j : Nat} (hj : j < 4) (hk : 4 * k + 4 ≤ countOf s) :
    transform s.params (laneOf (memRead m (src1Of s + 4 * k) 4) j) (laneOf (memRead m (src2Of s + 4 * k) 4) j) =
      elementTransform s (4 * k + j) := by
  obtain ⟨hsrc1, hsrc2⟩ := inputs_kept hv hm (show 4 * k + j < countOf s by omega)
  have h1 : laneOf (memRead m (src1Of s + 4 * k) 4) j = _ := memRead_byte m _ hj
  have h2 : laneOf (memRead m (src2Of s + 4 * k) 4) j = _ := memRead_byte m _ hj
  rw [h1, h2, Nat.add_assoc, Nat.add_assoc, hsrc1, hsrc2, elementTransform]

/-- A refused write stops a unit that reads and computes (R55). -/
theorem unitBody_write {j : Nat} (hj : j < unitsOf s) (hr : unitReads s j) (hc : unitComputes s j)
    (h : writeRefused s.cfg (dstOf s + unitStart s j) (unitSize s j) = true) :
    unitBody s j m = .error (.portError (dstOf s + unitStart s j)) := by
  have hin := unit_inside hj
  obtain ⟨h1, h2⟩ := hr
  unfold unitComputes at hc
  unfold unitBody
  by_cases hg : j < groupsOf s
  · have hstart : unitStart s j = 4 * j := if_pos hg
    have hsize : unitSize s j = 4 := if_pos hg
    rw [hstart, hsize] at h1 h2 h hc hin
    obtain ⟨r, hpack⟩ :
        ∃ r, packedTransform s.params (memRead m (src1Of s + 4 * j) 4) (memRead m (src2Of s + 4 * j) 4) = .ok r :=
      ⟨_, packedTransform_ok.mpr
        ⟨fun k hk => transform_lane hv hm hk hin ▸ hc (4 * j + k) (by omega) (by omega), rfl⟩⟩
    rw [if_pos hg, hstart]
    simp [packedGroup, portRead, portWrite, h1, h2, h, hpack]
  · have hsize : unitSize s j = 1 := if_neg hg
    rw [hsize] at h1 h2 h hc hin
    obtain ⟨hsrc1, hsrc2⟩ := inputs_kept hv hm (show unitStart s j < countOf s by omega)
    obtain ⟨c, he⟩ := hc (unitStart s j) (by omega) (by omega)
    rw [elementTransform, ← hsrc1, ← hsrc2, ← memRead_one, ← memRead_one] at he
    rw [if_neg hg]
    simp [scalarElement, portRead, portWrite, h1, h2, h, he]

/-- A unit that completes does so from every memory the loops can reach: each of its elements completes (R142, R143). -/
theorem unitBody_completes {j : Nat} (hj : j < unitsOf s) (h : unitCompletes s j) : ∃ m1, unitBody s j m = .ok m1 := by
  have hin := unit_inside hj
  obtain ⟨⟨h1, h2⟩, hc, h3⟩ := h
  have helements (k : Nat) (hk : k < unitSize s j) : elementCompletes s (unitStart s j + k) := by
    have hbyte {kind : RegionKind} {a : Nat} (ha : mapMeets s.cfg kind (a + unitStart s j) (unitSize s j) = false) :
        mapMeets s.cfg kind (a + (unitStart s j + k)) 1 = false :=
      mapMeets_mono (by omega) (by omega) ha
    exact ⟨hbyte h1, hbyte h2, hbyte h3, hc _ (by omega) (by omega)⟩
  unfold unitBody
  by_cases hg : j < groupsOf s
  · have hstart : unitStart s j = 4 * j := if_pos hg
    have hsize : unitSize s j = 4 := if_pos hg
    rw [hstart, hsize] at helements hin
    exact ⟨_, (if_pos hg).trans ((packedGroup_ok_iff hv hm hin).mpr ⟨helements, rfl⟩)⟩
  · have hsize : unitSize s j = 1 := if_neg hg
    rw [hsize] at helements hin
    exact ⟨_, (if_neg hg).trans ((scalarElement_ok_iff hv hm (by omega)).mpr ⟨helements 0 (by decide), rfl⟩)⟩

end

/-- A MULTIPLY whose checks pass, whose units before `j` complete, and whose unit `j` gets ERROR, is aborted (R168). -/
theorem execMultiply_aborted {s : State} {j addr : Nat} (hn : countOf s ≠ 0) (hv : bulkViolation s = none)
    (hj : j < unitsOf s) (hbefore : ∀ k, k < j → unitCompletes s k)
    (he : ∀ m, BulkKeeps s s.mem m → unitBody s j m = .error (.portError addr)) :
    execMultiply s = .next (abortBulk s addr) := by
  have hb : bulkResult s = .error (.portError addr) :=
    bulkResult_stops hn hv hj (fun k m hk hm => unitBody_completes hv hm (by omega) (hbefore k hk)) he
  rw [execMultiply, hb]

end Sys2Proof.Machine
end

section
/-!
SUPPORT. The statements of 20_memory.md, each from the lemmas above.
-/
namespace Sys2Proof.Machine
open Sys2Proof

/-- Settles O55: a 1-byte write is one write of memory, and a multi-byte access is taken apart byte by byte. -/
theorem packedAccessesAreFourScalarAccesses : Obligations.PackedAccessesAreFourScalarAccesses := by
  intro m a v
  refine ⟨?_, fun hm => memRead_memWrite hm a (n := 4) v, fun j hj => ?_⟩
  · simp only [memWrite_one]
    exact memWrite_four m a v
  · rw [memRead_one]
    exact memRead_byte m a hj

/-- Settles O19: by what each operation of the host does to memory. -/
theorem onlyMultiplyAndTheHostChangeMemory : Obligations.OnlyMultiplyAndTheHostChangeMemory := by
  intro s t hstep hmem
  rcases step_next hstep with ⟨_, rfl⟩ | ⟨op, rest, hpending, ht⟩
  · exact absurd rfl hmem
  · refine ⟨op, rest, hpending, ?_⟩
    rcases ht.mem_cases with hkept | (hcut | hcmd) | hhost
    · exact absurd hkept hmem
    · exact .inr (.inl hcut)
    · exact .inl hcmd
    · exact .inr (.inr hhost)

/-- Settles O51: only a check of the buffers raises a violation about them, and the checks come in R140's order. -/
theorem multiplyAddressChecks : Obligations.MultiplyAddressChecks := by
  intro s n a1 a2 d overflows
  have h1 : src1Of s = a1 := addrBits_toNat s.cfg s.src1
  have h2 : src2Of s = a2 := addrBits_toNat s.cfg s.src2
  have hd : dstOf s = d := addrBits_toNat s.cfg s.dst
  have hover : PastTop s ↔ overflows := by
    unfold PastTop
    rw [h1, h2, hd]
    rfl
  have hmeet : OutputMeetsInput s ↔ ∃ x, d ≤ x ∧ x < d + n ∧ (a1 ≤ x ∧ x < a1 + n ∨ a2 ≤ x ∧ x < a2 + n) := by
    unfold OutputMeetsInput InInput
    rw [h1, h2, hd]
    rfl
  rw [← hmeet, ← hover, Nat.pos_iff_ne_zero, ← bulkViolation_outputAliasesInput_iff s,
    ← bulkViolation_addressOverflow_iff s]
  exact ⟨execMultiply_aboutBuffers rfl, execMultiply_aboutBuffers rfl⟩

/-- Settles O52: the two address checks pass, and the next check is the one on devices, then the one on the parameters. -/
theorem multiplyDeviceAndParameterChecks : Obligations.MultiplyDeviceAndParameterChecks := by
  intro s hcount hsrc1 hsrc2 hdst hdisjoint
  have hn := countOf_ne_zero hcount
  have htop : ¬ PastTop s := by
    unfold PastTop
    omega
  have hmeet : ¬ OutputMeetsInput s := by
    rintro ⟨x, hx1, hx2, hx⟩
    obtain ⟨hnot1, hnot2⟩ := hdisjoint x hx1 hx2
    exact hx.elim hnot1 hnot2
  constructor
  · rintro ⟨x, hdevice, hx⟩
    refine execMultiply_of_check hn (bulkViolation_notPlain htop hmeet fun hplain => ?_)
    exact absurd ((buffersPlain_iff s).mp hplain x (or_assoc.mpr hx)) (ne_true_of_eq_false hdevice)
  · intro hplain r hr
    have hbuffers := (buffersPlain_iff s).mpr fun x hx => hplain x (or_assoc.mp hx)
    exact execMultiply_of_check hn ((bulkViolation_plain htop hmeet hbuffers).trans hr)

/-- Settles O57: each of the three accesses of a unit, refused, stops it, and the stop aborts the MULTIPLY. -/
theorem memErrorAbortsMultiply : Obligations.MemErrorAbortsMultiply := by
  intro s j hcount hv hj hbefore aborts
  have habort {addr : Nat} (he : ∀ m, BulkKeeps s s.mem m → unitBody s j m = .error (.portError addr)) : aborts addr :=
    ⟨_, execMultiply_aborted (countOf_ne_zero hcount) hv hj hbefore he,
      fun a ha => memFree_read_outside s.mem _ s.fresh _ ha⟩
  refine ⟨fun h => ?_, fun h1 h => ?_, fun hr hc h => ?_⟩
  · exact habort fun m _ => unitBody_read1 m h
  · exact habort fun m _ => unitBody_read2 m h1 h
  · exact habort fun m hm => unitBody_write hv hm hj hr hc h

/-- Settles O58: a coherent store is a write of memory, and the load that follows is settled by it. -/
theorem coherentStoreIsSeen : Obligations.CoherentStoreIsSeen := by
  intro s rest a b hinv hc ha hp hpending
  obtain ⟨_, hwf, _⟩ := hinv
  have hmem := stored_mem_coherent s (.memLoad a :: rest) a b hc
  have hload := step_memLoad ((stored_cfg s _ a b).symm ▸ ha) ((stored_cfg s _ a b).symm ▸ hp) (stored_settled s _ a b hwf)
    (stored_pending s (.memLoad a :: rest) a b)
  refine ⟨_, _, step_memStore ha hp hpending, ?_, fun x hx => ?_, hload, rfl, rfl⟩
  · rw [hmem, Memory.read_write_same hwf]
  · rw [hmem, Memory.read_write_other s.mem b hx]

/-- Settles O59: the three duties of the host by the steps that discharge them, and by what can make a byte stale. -/
theorem cacheMaintenanceMakesMemoryAgree : Obligations.CacheMaintenanceMakesMemoryAgree := by
  refine ⟨fun s rest a base size b hinv hc ha hp hle hlt hpending => ?_,
    fun s rest a base size hc ha hp hle hlt hpending => ?_,
    fun s rest a _ ha hp hs hu hpending => ?_, fun s t a hstep hs ht => ?_⟩
  · obtain ⟨_, hwf, _⟩ := hinv
    exact store_then_clean ha hp ((inRange_iff _ a).mpr ⟨hle, hlt⟩) hc hwf hpending
  · exact invalidate_then_load ha hp ((inRange_iff _ a).mpr ⟨hle, hlt⟩) hpending
  · exact ⟨_, step_memLoad ha hp (settledByte_memory hs hu) hpending, rfl⟩
  · rcases step_next hstep with ⟨_, rfl⟩ | ⟨op, rest, hpending, hop⟩
    · exact absurd ht (ne_true_of_eq_false hs)
    · rcases hop.isStale_cases ht with hold | ⟨hle, hlt, hrun⟩
      · exact absurd hold (ne_true_of_eq_false hs)
      · exact ⟨hle, hlt, op, rest, hpending, hrun⟩

end Sys2Proof.Machine
end

section
/-!
SUPPORT. The encoding of commands (30_encoding.md R70-R78): decoding an encoded word, the words that are illegal, and the step
of a CMD write of one.
-/
namespace Sys2Proof.Machine
open Sys2Proof

/-! The words of the commands -/

/-- RSVD is zero and OP the opcode in the word of every command (R71, R73). -/
theorem wordLayout_statement : ∀ i : Instr, Laws.WordLayout.Statement i
  | .nop => Laws.WordLayout.nop
  | .dhmul => Laws.WordLayout.dhmul
  | .rdpot => Laws.WordLayout.rdpot
  | .rescale => Laws.WordLayout.rescale
  | .correct => Laws.WordLayout.correct
  | .clamp => Laws.WordLayout.clamp
  | .narrow => Laws.WordLayout.narrow
  | .xform => Laws.WordLayout.xform
  | .xform4 => Laws.WordLayout.xform4
  | .multiply => Laws.WordLayout.multiply

/-- The opcode of a command the implementation has selects that command (R73, R76). -/
theorem decodeOp_opcode {hp : Bool} {i : Instr} (h : i.wellFormed hp = true) : decodeOp hp i.opcode = .ok i := by
  cases i with
  | xform4 => exact if_pos h
  | _ => rfl

theorem decode_encode {hp : Bool} {i : Instr} (h : i.wellFormed hp = true) : decode hp (encode i) = .ok i := by
  obtain ⟨hrsvd, hop⟩ := wordLayout_statement i
  rw [decode_of_rsvd_zero hrsvd, hop, decodeOp_opcode h]

theorem decode_eq_ok_iff {hp : Bool} {w : Word} {i : Instr} :
    decode hp w = .ok i ↔ i.wellFormed hp = true ∧ encode i = w := by
  constructor
  · intro h
    obtain ⟨hw, hwf⟩ := decode_ok h
    exact ⟨hwf, hw.symm⟩
  · rintro ⟨hwf, rfl⟩
    exact decode_encode hwf

/-! The illegal words -/

/-- The OP values that R75 calls unassigned. -/
def unassignedOp (op : Byte) : Prop :=
  op = 0x07 ∨ (0x0A ≤ op.toNat ∧ op.toNat ≤ 0x0F) ∨ 0x11 ≤ op.toNat

/-- The opcodes of the opcode map (R73). -/
theorem forall_opcode {p : Byte → Prop} :
    (∀ i : Instr, p i.opcode) ↔
      p 0x00 ∧ p 0x01 ∧ p 0x02 ∧ p 0x03 ∧ p 0x04 ∧ p 0x05 ∧ p 0x06 ∧ p 0x08 ∧ p 0x09 ∧ p 0x10 := by
  constructor
  · intro h
    exact ⟨h .nop, h .dhmul, h .rdpot, h .rescale, h .correct, h .clamp, h .narrow, h .xform, h .xform4, h .multiply⟩
  · rintro ⟨_, _, _, _, _, _, _, _, _, _⟩ i
    cases i <;> assumption

/-- The unassigned OP values are those of no command (R73, R75). -/
theorem unassignedOp_iff (op : Byte) : unassignedOp op ↔ ∀ i : Instr, op ≠ i.opcode := by
  rw [forall_opcode (p := (op ≠ ·)), unassignedOp]
  bv_omega

theorem decodeOp_opcode_ne_unassigned (hp : Bool) (i : Instr) :
    decodeOp hp i.opcode ≠ .error .unassignedOpcode := by
  by_cases hwf : i.wellFormed hp = true
  · rw [decodeOp_opcode hwf]
    nofun
  · cases i with
    | xform4 =>
      rw [show decodeOp hp Instr.xform4.opcode = .error .noPackedDatapath from if_neg hwf]
      nofun
    | _ => exact absurd rfl hwf

/-- An OP value is refused as unassigned exactly when R75 names it. -/
theorem decodeOp_unassigned_iff (hp : Bool) (op : Byte) :
    decodeOp hp op = .error .unassignedOpcode ↔ unassignedOp op := by
  rw [unassignedOp_iff]
  constructor
  · rintro h i rfl
    exact decodeOp_opcode_ne_unassigned hp i h
  · intro h
    rw [forall_opcode (p := (op ≠ ·))] at h
    simp only [decodeOp, h, if_false]

/-- A word is refused as unassigned exactly when its reserved bits are zero and R75 names its OP field (R74, R75). -/
theorem decode_unassigned_iff {hp : Bool} {w : Word} :
    decode hp w = .error .unassignedOpcode ↔ rsvdField w = 0 ∧ unassignedOp (opField w) := by
  by_cases hr : rsvdField w = 0
  · simp only [decode_of_rsvd_zero hr, decodeOp_unassigned_iff, hr, true_and]
  · simp only [decode_of_rsvd hr, hr, false_and, iff_false]
    nofun

/-- Without the packed datapath OP = 0x09 selects no command, whatever the reserved bits hold (R74, R76). -/
theorem decode_xform4_without_datapath {w : Word} (h : opField w = 0x09) : ∃ e, decode false w = .error e := by
  by_cases hr : rsvdField w = 0
  · exact ⟨.noPackedDatapath, by rw [decode_of_rsvd_zero hr, h]; rfl⟩
  · exact ⟨.reservedBits, decode_of_rsvd hr⟩

/-- The words of R77: a reserved bit, an unassigned opcode, or XFORM4's without its datapath. -/
theorem decode_illegal {hp : Bool} {w : Word}
    (h : rsvdField w ≠ 0 ∨ unassignedOp (opField w) ∨ (opField w = 0x09 ∧ hp = false)) : ∃ e, decode hp w = .error e := by
  rcases h with hr | hop | ⟨hop, rfl⟩
  · exact ⟨_, decode_of_rsvd hr⟩
  · by_cases hr : rsvdField w = 0
    · exact ⟨_, decode_unassigned_iff.mpr ⟨hr, hop⟩⟩
    · exact ⟨_, decode_of_rsvd hr⟩
  · exact decode_xform4_without_datapath hop

theorem runCommand_of_illegal {s : State} {w : Word} {e : DecodeError} (h : decode s.cfg.hasPacked w = .error e) :
    runCommand s w = .next (enterError s (.illegalCommand w)) := by
  simp [runCommand, h]

/-! The statements -/

/-- Settles O3: a word that decodes is the word of its command, and that word decodes back. -/
theorem decodeIsTheInverseOfEncode : Obligations.DecodeIsTheInverseOfEncode :=
  fun _ _ _ => decode_eq_ok_iff

/-- Settles O2: the reserved bits are looked at first, then the opcode, and zero is the word of NOP. -/
theorem reservedAndUnassignedWordsAreIllegal : Obligations.ReservedAndUnassignedWordsAreIllegal := by
  intro hp w
  refine ⟨decode_of_rsvd, fun hr hop => decode_unassigned_iff.mpr ⟨hr, hop⟩, fun h => (decode_unassigned_iff.mp h).2, ?_⟩
  calc decode hp w = .ok .nop
      ↔ Instr.wellFormed hp .nop = true ∧ encode .nop = w := decode_eq_ok_iff
    _ ↔ encode .nop = w := and_iff_right rfl
    _ ↔ w = 0 := eq_comm

/-- Settles O1: each word of the map is its command's, and each of the others is illegal for its own reason. -/
theorem tableWordsDecode : Obligations.TableWordsDecode :=
  ⟨decode_encode (i := .nop) rfl, decode_encode (i := .dhmul) rfl, decode_encode (i := .rdpot) rfl,
    decode_encode (i := .rescale) rfl, decode_encode (i := .correct) rfl, decode_encode (i := .clamp) rfl,
    decode_encode (i := .narrow) rfl, decode_encode (i := .xform) rfl, decode_encode (i := .xform4) rfl,
    decode_encode (i := .multiply) rfl, decode_of_rsvd (by decide), decode_unassigned_iff.mpr ⟨rfl, .inl rfl⟩,
    decode_of_rsvd_zero rfl⟩

/-- Settles O5: a CMD write accepts the access and runs the word, and a word that is illegal only enters the error. -/
theorem illegalWordOnlySetsStatusBit0 : Obligations.IllegalWordOnlySetsStatusBit0 := by
  intro s rest w hpending hrst hillegal
  obtain ⟨e, he⟩ := decode_illegal hillegal
  calc step s
      = perform (cmdWrite s.cfg w) (takeNext s rest) := step_of_pending hpending
    _ = runCommand (acceptCommand (takeNext s rest)) w := perform_cmdWrite (s := takeNext s rest) hrst w
    _ = .next (enterError (acceptCommand (takeNext s rest)) (.illegalCommand w)) := runCommand_of_illegal he

end Sys2Proof.Machine
end

section
/-!
SUPPORT. The statements of 40_rescaler.md (R100-R111): rounding to nearest for every shift, DHMUL inside its range, the four
cases of a shift, what the three commands answer with, and the statements from these.
-/
namespace Sys2Proof.Machine
open Sys2Proof

/-! Rounding to nearest (R9, R102) -/

/-- Rounding by any shift, 0 included, is to the nearest integer with a tie away from zero: `rhaz_near` with a distance. -/
theorem rhaz_nearest (n : Int) (k : Nat) :
    2 * |2 ^ k * rhaz n k - n| ≤ 2 ^ k ∧ (2 * (2 ^ k * rhaz n k - n) = 2 ^ k → 0 < n) ∧
      (2 * (2 ^ k * rhaz n k - n) = -2 ^ k → n < 0) := by
  rcases Nat.eq_zero_or_pos k with rfl | hk
  · simp [rhaz_zero]
  · obtain ⟨hle, hge, hpos, hneg⟩ := rhaz_near n hk
    have habs : |2 * (2 ^ k * rhaz n k - n)| ≤ 2 ^ k := abs_le.mpr ⟨hge, hle⟩
    rw [abs_mul, abs_two] at habs
    exact ⟨habs, hpos, hneg⟩

/-- For a negative integer rounding adds one less than half and takes the floor (R102). -/
theorem rhaz_31_of_neg {P : Int} (h : P < 0) : rhaz P 31 = (P + (2 ^ 30 - 1)) / 2 ^ 31 := by
  have hodd : rhaz P 31 = -((-P + 2 ^ 30) / 2 ^ 31) := by
    rw [← neg_neg P, rhaz_neg, rhaz_nonneg (by omega) (by omega), neg_neg]
  omega

/-! DHMUL (R100, R101) -/

/-- Only INT32_MIN squared rounds to a value outside the signed 32-bit range, and no product rounds to INT32_MIN (R101). -/
theorem rhaz_product_bounds {a b : Word} (h : ¬ (a = 0x80000000 ∧ b = 0x80000000)) :
    -2 ^ 31 + 1 ≤ rhaz (a.toInt * b.toInt) 31 ∧ rhaz (a.toInt * b.toInt) 31 ≤ 2 ^ 31 - 1 := by
  obtain ⟨hlo, hhi⟩ := product_bounds a b
  have hhi' := hhi.resolve_right h
  obtain ⟨hle, hge, -, -⟩ := rhaz_near (a.toInt * b.toInt) (k := 31) (by omega)
  omega

/-- Off the saturating pair DHMUL is the rounded quotient (R101). -/
theorem dhmul_eq_rhaz {a b : Word} (h : ¬ (a = 0x80000000 ∧ b = 0x80000000)) :
    dhmul a.toInt b.toInt = rhaz (a.toInt * b.toInt) 31 := by
  obtain ⟨hlo, hhi⟩ := rhaz_product_bounds h
  exact sat32_of_fits ((fits32_iff _).mpr (by omega))

/-- The product of the saturating pair is `2^62`, which rounds to `2^31` (R101). -/
theorem rhaz_saturating_pair : rhaz ((0x80000000 : Word).toInt * (0x80000000 : Word).toInt) 31 = 2 ^ 31 := by decide

theorem dhmul_saturating_pair : dhmul (0x80000000 : Word).toInt (0x80000000 : Word).toInt = 2 ^ 31 - 1 := by decide

theorem dhmul_fits (a b : Int) : fits32 (dhmul a b) = true := sat32_fits _

/-- Off the saturating pair DHMUL is within half a unit of the exact quotient (R100). -/
theorem abs_dhmul_sub_le {a b : Word} (h : ¬ (a = 0x80000000 ∧ b = 0x80000000)) :
    |2 ^ 31 * dhmul a.toInt b.toInt - a.toInt * b.toInt| ≤ 2 ^ 30 := by
  have hnear := (rhaz_nearest (a.toInt * b.toInt) 31).1
  rw [dhmul_eq_rhaz h]
  omega

/-- The unity multiplier gives back a value of magnitude at most `2^30`, whose tie goes away from zero, to the value (R111). -/
theorem dhmul_unity {p : Int} (h : |p| ≤ 2 ^ 30) : dhmul p (2 ^ 31 - 1) = p := by
  obtain ⟨hlo, hhi⟩ := abs_le.mp h
  have hround : rhaz (p * (2 ^ 31 - 1)) 31 = p := by
    obtain ⟨hle, hge, hpos, hneg⟩ := rhaz_near (p * (2 ^ 31 - 1)) (k := 31) (by omega)
    omega
  rw [dhmul, hround, sat32_of_fits ((fits32_iff _).mpr (by omega))]

/-! The four cases of a shift (R104-R106) -/

theorem rdpot_nonneg {x s : Int} (h0 : 0 ≤ s) (h1 : s ≤ 31) : rdpot x s = .ok (rhaz x s.toNat) := by
  rcases eq_or_lt_of_le h0 with rfl | hpos
  · exact rdpot_zero x
  · exact rdpot_right hpos h1

/-- Every shift falls under one of the cases of R104: out of range, right, left where the value fits, left where not. -/
theorem rdpot_cases (x s : Int) :
    (s < -31 ∨ 31 < s) ∧ rdpot x s = .error .shiftRange ∨
    (0 ≤ s ∧ s ≤ 31) ∧ rdpot x s = .ok (rhaz x s.toNat) ∨
    (-31 ≤ s ∧ s < 0) ∧ fits32 (x * 2 ^ (-s).toNat) = true ∧ rdpot x s = .ok (x * 2 ^ (-s).toNat) ∨
    (-31 ≤ s ∧ s < 0) ∧ fits32 (x * 2 ^ (-s).toNat) = false ∧ rdpot x s = .error .shiftOverflow := by
  by_cases hr : s < -31 ∨ 31 < s
  · exact .inl ⟨hr, rdpot_shiftRange hr⟩
  · rcases le_or_gt 0 s with h0 | h0
    · exact .inr (.inl ⟨by omega, rdpot_nonneg h0 (by omega)⟩)
    · cases hf : fits32 (x * 2 ^ (-s).toNat) with
      | true => exact .inr (.inr (.inl ⟨by omega, rfl, rdpot_left h0 (by omega) hf⟩))
      | false => exact .inr (.inr (.inr ⟨by omega, rfl, rdpot_shiftOverflow h0 (by omega) hf⟩))

/-- R105: the shifts that are refused. -/
theorem rdpot_shiftRange_iff {x s : Int} : rdpot x s = .error .shiftRange ↔ s < -31 ∨ 31 < s := by
  rcases rdpot_cases x s with ⟨hs, h⟩ | ⟨hs, h⟩ | ⟨hs, -, h⟩ | ⟨hs, -, h⟩
  · simp only [h, hs]
  all_goals
    simp only [h, reduceCtorEq, Except.error.injEq, false_iff]
    omega

/-- R106: the left shifts that are refused. -/
theorem rdpot_shiftOverflow_iff {x s : Int} :
    rdpot x s = .error .shiftOverflow ↔ -31 ≤ s ∧ s < 0 ∧ fits32 (x * 2 ^ (-s).toNat) = false := by
  rcases rdpot_cases x s with ⟨hs, h⟩ | ⟨hs, h⟩ | ⟨-, hf, h⟩ | ⟨hs, hf, h⟩
  · simp only [h, reduceCtorEq, Except.error.injEq, false_iff]
    omega
  · simp only [h, reduceCtorEq, false_iff]
    omega
  · simp [h, hf]
  · simp [h, hf, hs]

/-- The shift raises no other violation (R108). -/
theorem rdpot_error {x s : Int} {r : Violation} (h : rdpot x s = .error r) : r = .shiftRange ∨ r = .shiftOverflow := by
  rcases rdpot_cases x s with ⟨-, he⟩ | ⟨-, he⟩ | ⟨-, -, he⟩ | ⟨-, -, he⟩ <;> rw [h] at he <;> cases he
  · exact .inl rfl
  · exact .inr rfl

theorem fits32_eq_false_iff (v : Int) : fits32 v = false ↔ v < -2 ^ 31 ∨ 2 ^ 31 - 1 < v := by
  rw [← Bool.not_eq_true, fits32_iff]
  omega

/-! The commands (R103, R107, R109) -/

theorem exec_dhmul (s : State) : exec .dhmul s = .next (setRes s (bits32 (dhmul s.opa.toInt s.opb.toInt))) := rfl

theorem exec_rdpot (s : State) : exec .rdpot s = finish s ((rdpot s.opa.toInt s.opb.toInt).map bits32) := rfl

theorem exec_rescale (s : State) :
    exec .rescale s = finish s ((rdpot (dhmul s.opa.toInt s.opb.toInt) s.opc.toInt).map bits32) := rfl

/-- RDPOT completes with the value its function gives (R107). -/
theorem exec_rdpot_of_ok {s : State} {y : Int} (h : rdpot s.opa.toInt s.opb.toInt = .ok y) :
    exec .rdpot s = .next (setRes s (bits32 y)) := by
  rw [exec_rdpot, h]
  rfl

/-- RDPOT ends in a contract violation exactly when its function raises it (R107). -/
theorem exec_rdpot_fault {s : State} {r : Violation} :
    exec .rdpot s = .fault (.contractViolation r) ↔ rdpot s.opa.toInt s.opb.toInt = .error r := by
  rw [exec_rdpot]
  cases rdpot s.opa.toInt s.opb.toInt with
  | ok y => simp [Except.map, finish]
  | error e => simp [Except.map, finish, violate]

/-- RESCALE completes with the value RDPOT gives for that of DHMUL (R108, R109). -/
theorem exec_rescale_of_ok {s : State} {y : Int} (h : rdpot (dhmul s.opa.toInt s.opb.toInt) s.opc.toInt = .ok y) :
    exec .rescale s = .next (setRes s (bits32 y)) := by
  rw [exec_rescale, h]
  rfl

/-! The error of the rescaler (R110) -/

/-- The error of DHMUL carried through a right shift, with the error of that shift (R110). -/
theorem abs_right_shift_error_le {P d r : Int} (k : Nat) (hd : |2 ^ 31 * d - P| ≤ 2 ^ 30) (hr : 2 * |2 ^ k * r - d| ≤ 2 ^ k) :
    |r * 2 ^ (31 + k) - P| ≤ 2 ^ (30 + k) + 2 ^ 30 := by
  calc |r * 2 ^ (31 + k) - P| = |2 ^ 31 * (2 ^ k * r - d) + (2 ^ 31 * d - P)| := by ring_nf
    _ ≤ |2 ^ 31 * (2 ^ k * r - d)| + |2 ^ 31 * d - P| := abs_add_le _ _
    _ = 2 ^ 30 * (2 * |2 ^ k * r - d|) + |2 ^ 31 * d - P| := by rw [abs_mul, abs_of_pos (by norm_num)]; ring
    _ ≤ 2 ^ 30 * 2 ^ k + 2 ^ 30 := by gcongr
    _ = 2 ^ (30 + k) + 2 ^ 30 := by ring

/-- The error of DHMUL carried through an exact left shift (R110). -/
theorem abs_left_shift_error_le {P d : Int} (k : Nat) (hd : |2 ^ 31 * d - P| ≤ 2 ^ 30) :
    |d * 2 ^ k * 2 ^ 31 - P * 2 ^ k| ≤ 2 ^ (30 + k) := by
  calc |d * 2 ^ k * 2 ^ 31 - P * 2 ^ k| = |(2 ^ 31 * d - P) * 2 ^ k| := by ring_nf
    _ = |2 ^ 31 * d - P| * 2 ^ k := by rw [abs_mul, abs_of_pos (a := (2 : Int) ^ k) (by positivity)]
    _ ≤ 2 ^ 30 * 2 ^ k := by gcongr
    _ = 2 ^ (30 + k) := (pow_add 2 30 k).symm

/-! The statements -/

/-- Settles O30: DHMUL gives the rounded product, saturated for the one pair of R101. -/
theorem dhmulRoundsToNearestTiesAway : Obligations.DhmulRoundsToNearestTiesAway := by
  intro s
  have hfits := (fits32_iff _).mp (dhmul_fits s.opa.toInt s.opb.toInt)
  refine ⟨dhmul s.opa.toInt s.opb.toInt, exec_dhmul s, by omega, by omega, ?_, fun h => ⟨abs_dhmul_sub_le h, ?_⟩⟩
  · rintro ⟨ha, hb⟩
    rw [ha, hb, dhmul_saturating_pair]
  · obtain ⟨-, hpos, hneg⟩ := rhaz_nearest (s.opa.toInt * s.opb.toInt) 31
    rw [dhmul_eq_rhaz h]
    exact ⟨fun ht => hpos (by omega), fun ht => hneg (by omega)⟩

/-- Settles O31, by the bounds of the product of two registers. -/
theorem dhmulSaturatesForExactlyOnePair : Obligations.DhmulSaturatesForExactlyOnePair := by
  refine fun a b => ⟨⟨fun hout => ?_, ?_⟩, fun h => ?_⟩
  · by_contra h
    have hin := rhaz_product_bounds h
    omega
  · rintro ⟨rfl, rfl⟩
    rw [rhaz_saturating_pair]
    omega
  · rw [dhmul_eq_rhaz h]
    exact ⟨(rhaz_product_bounds h).1, rfl⟩

/-- Settles O32, by the sign of the product. -/
theorem nudgeDatapathIsTheRounding : Obligations.NudgeDatapathIsTheRounding := by
  intro P
  split
  · next h => exact rhaz_nonneg h (by omega)
  · next h => exact rhaz_31_of_neg (by omega)

/-- Settles O33: a right shift rounds its operand, a left shift that fits is exact. -/
theorem rdpotShifts : Obligations.RdpotShifts := by
  refine fun s => ⟨fun h0 h1 => ?_, fun h0 h1 hlo hhi => ?_⟩
  · have hfits := (fits32_iff _).mp (rhaz_fits (sintOf_fits s.opa) s.opb.toInt.toNat)
    rw [sintOf] at hfits
    exact ⟨rhaz s.opa.toInt s.opb.toInt.toNat, exec_rdpot_of_ok (rdpot_nonneg h0 h1), by omega, by omega, rhaz_nearest _ _⟩
  · exact exec_rdpot_of_ok (rdpot_left h1 h0 ((fits32_iff _).mpr (by omega)))

/-- Settles O34: RDPOT stops exactly where its function does, which raises the two violations alone. -/
theorem rdpotContractViolations : Obligations.RdpotContractViolations := by
  intro s
  refine ⟨?_, ?_, fun hrange hoverflow => ?_⟩
  · rw [exec_rdpot_fault, rdpot_shiftRange_iff]
  · rw [exec_rdpot_fault, rdpot_shiftOverflow_iff, fits32_eq_false_iff]
  · rw [Ne, exec_rdpot_fault] at hrange hoverflow
    cases h : rdpot s.opa.toInt s.opb.toInt with
    | ok y => exact ⟨bits32 y, exec_rdpot_of_ok h⟩
    | error r =>
      rcases rdpot_error h with rfl | rfl
      · exact absurd h hrange
      · exact absurd h hoverflow

/-- Settles O35: the word of a DHMUL value reads back as that value, so both commands shift the same integer. -/
theorem rescaleIsDhmulThenRdpot : Obligations.RescaleIsDhmulThenRdpot := by
  intro s d h
  have hd : bits32 (dhmul s.opa.toInt s.opb.toInt) = d := congrArg State.res (Host.Outcome.next.inj h)
  have hread : d.toInt = dhmul s.opa.toInt s.opb.toInt := hd ▸ sintOf_bits32 (dhmul_fits _ _)
  rw [exec_rescale, exec_rdpot, hread]
  cases rdpot (dhmul s.opa.toInt s.opb.toInt) s.opc.toInt <;> rfl

/-- Settles O36, by the sign of the shift. -/
theorem rescaleCompletes : Obligations.RescaleCompletes := by
  intro s hlo hhi hfits
  split
  · next hneg =>
    obtain ⟨hmin, hmax⟩ := hfits hneg
    exact exec_rescale_of_ok (rdpot_left hneg hlo ((fits32_iff _).mpr (by omega)))
  · next hneg => exact exec_rescale_of_ok (rdpot_nonneg (by omega) hhi)

/-- Settles O37: the identity is that of DHMUL, and the first failure on each side is evaluated. -/
theorem unityMultiplierIsExact : Obligations.UnityMultiplierIsExact := by
  refine ⟨fun s hb hc ha => ?_, by decide, by decide⟩
  have hok : rdpot (dhmul s.opa.toInt s.opb.toInt) s.opc.toInt = .ok s.opa.toInt := by
    rw [hb, hc]
    exact congrArg Except.ok (dhmul_unity ha)
  have hword : bits32 s.opa.toInt = s.opa := BitVec.ofInt_toInt
  rw [exec_rescale_of_ok hok, hword]
  rfl

/-- Settles O38: the error of DHMUL, scaled by the shift, and for a right shift the error of that. -/
theorem rescaleAccuracy : Obligations.RescaleAccuracy := by
  intro v m sh r hpair h
  have hd := abs_dhmul_sub_le hpair
  rw [rescale] at h
  rcases rdpot_cases (dhmul v.toInt m.toInt) sh with ⟨-, he⟩ | ⟨hs, he⟩ | ⟨hs, -, he⟩ | ⟨-, -, he⟩ <;> rw [h] at he <;> cases he
  · exact ⟨fun _ => abs_right_shift_error_le sh.toNat hd (rhaz_nearest _ _).1, fun _ => by omega⟩
  · exact ⟨fun _ => by omega, fun _ => abs_left_shift_error_le (-sh).toNat hd⟩

end Sys2Proof.Machine
end

section
/-!
SUPPORT. The scalar element datapath (41_element.md): what the corrector, the narrower and the transform answer, the rows of
R126 one by one, and what the commands that run them end in.
-/
namespace Sys2Proof.Machine
open Sys2Proof

/-! A command whose operation gives an integer -/

section
variable {s : State} {f : Int → Word} {x : Except Violation Int}

/-- A command completes with the word of the value its operation gives. -/
theorem finish_of_ok {y : Int} (h : x = .ok y) : finish s (x.map f) = .next (setRes s (f y)) := by
  subst h
  rfl

/-- A command ends in a contract violation exactly when its operation raises it. -/
theorem finish_fault {r : Violation} : finish s (x.map f) = .fault (.contractViolation r) ↔ x = .error r := by
  cases x with
  | ok y => simp [Except.map, finish]
  | error e => simp [Except.map, finish, violate]

end

/-! The samples (R72) -/

/-- The sample operand is the low byte of its register. -/
theorem sampleOf_eq_setWidth (w : Word) : sampleOf w = w.setWidth 8 :=
  (BitVec.setWidth_eq_extractLsb' (by decide)).symm

/-- A register that holds a value of the sample range holds it in its low byte. -/
theorem toInt_lowByte {w : Word} (h : fits8 w.toInt = true) : (w.setWidth 8).toInt = w.toInt := by
  have hw := (fits8_iff _).mp h
  calc (w.setWidth 8).toInt
      = w.toInt.bmod (2 ^ 8) := by
        rw [BitVec.toInt_setWidth, BitVec.toInt_eq_toNat_bmod, Int.bmod_bmod_of_dvd (by decide)]
    _ = w.toInt := Int.bmod_eq_of_le (by norm_num; omega) (by norm_num; omega)

/-- The signed 32-bit range, with its bounds as powers of two (R7). -/
theorem fits32_iff_pow (v : Int) : fits32 v = true ↔ -2 ^ 31 ≤ v ∧ v ≤ 2 ^ 31 - 1 := fits32_iff v

/-! CORRECT, CLAMP and NARROW (R120-R125) -/

/-- The corrector raises its one violation exactly where the sum leaves the 32-bit range (R120). -/
theorem correct_error {x k : Int} {r : Violation} :
    correct x k = .error r ↔ fits32 (x + k) = false ∧ r = .correctOverflow := by
  unfold correct
  cases fits32 (x + k) <;> simp [eq_comm]

theorem exec_correct (s : State) :
    exec .correct s = finish s ((correct (s.opa.setWidth 8).toInt s.opb.toInt).map bits32) := by
  rw [← sampleOf_eq_setWidth]
  rfl

theorem exec_clamp (s : State) : exec .clamp s = finish s ((clamp s.opa.toInt s.opb.toInt s.opc.toInt).map bits32) := rfl

/-- A register clamped between two registers is one of the three (R122). -/
theorem bits32_clampTo {v lo hi : Word} (h : lo.toInt ≤ hi.toInt) :
    bits32 (clampTo v.toInt lo.toInt hi.toInt) =
      if v.toInt < lo.toInt then lo else if hi.toInt < v.toInt then hi else v := by
  have hword (w : Word) : bits32 w.toInt = w := BitVec.ofInt_toInt
  unfold clampTo
  split
  · next hlo => rw [max_eq_right (le_of_lt hlo), min_eq_left h, hword]
  · next hlo =>
    rw [max_eq_left (not_lt.mp hlo)]
    split
    · next hhi => rw [min_eq_right (le_of_lt hhi), hword]
    · next hhi => rw [min_eq_left (not_lt.mp hhi), hword]

/-- The narrower keeps the signed value of the low byte (R125). -/
theorem toInt_narrow (w : Word) : (narrow w).toInt = (w.setWidth 8).toInt := by
  rw [narrow, BitVec.toInt_signExtend_of_le (by decide), sampleOf_eq_setWidth]

/-- The narrower passes a value of the sample range unchanged (R125). -/
theorem narrow_of_fits {w : Word} (h : fits8 w.toInt = true) : narrow w = w :=
  BitVec.eq_of_toInt_eq ((toInt_narrow w).trans (toInt_lowByte h))

/-! The preconditions (a) to (e) of R126, row by row -/

section
variable {p : Params}

theorem paramViolation_in1Off (ha : fits8 (sintOf p.in1Off) = false) : paramViolation p = some .offsetRange := if_pos ha

theorem paramViolation_in2Off (ha : fits8 (sintOf p.in1Off) = true) (hb : fits8 (sintOf p.in2Off) = false) :
    paramViolation p = some .offsetRange := by
  rw [paramViolation, if_neg (by simp [ha]), if_pos hb]

theorem paramViolation_bounds (ha : fits8 (sintOf p.in1Off) = true) (hb : fits8 (sintOf p.in2Off) = true)
    (hc : sintOf p.outMax < sintOf p.outMin) : paramViolation p = some .clampBounds := by
  rw [paramViolation, if_neg (by simp [ha]), if_neg (by simp [hb]), if_pos hc]

theorem paramViolation_clampRange (ha : fits8 (sintOf p.in1Off) = true) (hb : fits8 (sintOf p.in2Off) = true)
    (hc : sintOf p.outMin ≤ sintOf p.outMax) (hd : ¬ (-128 ≤ sintOf p.outMin ∧ sintOf p.outMax ≤ 127)) :
    paramViolation p = some .clampRange := by
  rw [not_and_or, not_le, not_le] at hd
  rw [paramViolation, if_neg (by simp [ha]), if_neg (by simp [hb]), if_neg (not_lt.mpr hc), if_pos hd]

theorem paramViolation_shiftRange (ha : fits8 (sintOf p.in1Off) = true) (hb : fits8 (sintOf p.in2Off) = true)
    (hc : sintOf p.outMin ≤ sintOf p.outMax) (hd : -128 ≤ sintOf p.outMin ∧ sintOf p.outMax ≤ 127)
    (he : ¬ (-31 ≤ sintOf p.outShift ∧ sintOf p.outShift ≤ 31)) : paramViolation p = some .shiftRange := by
  rw [not_and_or, not_le, not_le] at he
  have hd' : ¬ (sintOf p.outMin < int8Min ∨ int8Max < sintOf p.outMax) := not_or.mpr ⟨not_lt.mpr hd.1, not_lt.mpr hd.2⟩
  rw [paramViolation, if_neg (by simp [ha]), if_neg (by simp [hb]), if_neg (not_lt.mpr hc), if_neg hd', if_pos he]

end

/-! The transform (R124, R126, R128) -/

/-- A rescaler that answers had a shift it accepts (R105). -/
theorem shift_of_rescale_ok {v m k t : Int} (h : rescale v m k = .ok t) : -31 ≤ k ∧ k ≤ 31 := by
  by_contra hk
  rw [rescale, rdpot_shiftRange (by omega)] at h
  cases h

/-- The shift answers where it is accepted and, to the left, its value fits (R104-R106). -/
theorem rdpot_completes {x k : Int} (hk : -31 ≤ k ∧ k ≤ 31) (hfits : k < 0 → fits32 (x * 2 ^ (-k).toNat) = true) :
    ∃ t, rdpot x k = .ok t := by
  rcases le_or_gt 0 k with h0 | h0
  · exact ⟨_, rdpot_nonneg h0 hk.2⟩
  · exact ⟨_, rdpot_left h0 hk.1 (hfits h0)⟩

section
variable {p : Params} {x y : Byte}

theorem transform_of_paramViolation {r : Violation} (h : paramViolation p = some r) : transform p x y = .error r := by
  rw [transform, h]

/-- What the transform that answers gives (R124). -/
theorem transform_ok {c : Int} :
    transform p x y = .ok c ↔
      paramViolation p = none ∧
        ∃ t, rescale ((x.toInt + sintOf p.in1Off) * (y.toInt + sintOf p.in2Off)) (sintOf p.outMult) (sintOf p.outShift) =
            .ok t ∧
          fits32 (t + sintOf p.outOff) = true ∧ c = clampTo (t + sintOf p.outOff) (sintOf p.outMin) (sintOf p.outMax) := by
  cases hp : paramViolation p with
  | some r => simp [transform_of_paramViolation hp]
  | none =>
    obtain ⟨-, -, hle, -⟩ := (paramViolation_none p).mp hp
    simp [transform_of_params hp, scaleAndClamp_ok, hle]

/-- Past the checks on the parameters a violation of the rescaler is the transform's (R126 (f)). -/
theorem transform_of_rescale_error {r : Violation} (hp : paramViolation p = none)
    (h : rescale ((x.toInt + sintOf p.in1Off) * (y.toInt + sintOf p.in2Off)) (sintOf p.outMult) (sintOf p.outShift) =
      .error r) : transform p x y = .error r := by
  rw [transform_of_params hp, scaleAndClamp, h]

/-- The last precondition of the transform (R126 (g)). -/
theorem transform_outOffsetOverflow {t : Int} (hp : paramViolation p = none)
    (h : rescale ((x.toInt + sintOf p.in1Off) * (y.toInt + sintOf p.in2Off)) (sintOf p.outMult) (sintOf p.outShift) = .ok t)
    (hg : fits32 (t + sintOf p.outOff) = false) : transform p x y = .error .outOffsetOverflow := by
  rw [transform_of_params hp, scaleAndClamp, h]
  simp [hg]

/-- A result of the transform lies between the bounds of its clamp (R128). -/
theorem transform_bounds {c : Int} (h : transform p x y = .ok c) : sintOf p.outMin ≤ c ∧ c ≤ sintOf p.outMax := by
  obtain ⟨hp, t, -, -, rfl⟩ := transform_ok.mp h
  obtain ⟨-, -, hle, -⟩ := (paramViolation_none p).mp hp
  exact clampTo_bounds hle

end

/-! XFORM (R127) -/

/-- The transform XFORM performs, of the low bytes of OPA and OPB (R127). -/
def operandTransform (s : State) : Except Violation Int := transform s.params (s.opa.setWidth 8) (s.opb.setWidth 8)

theorem exec_xform (s : State) :
    exec .xform s = finish s ((operandTransform s).map fun c => (bits8 c).signExtend 32) := by
  rw [operandTransform, ← sampleOf_eq_setWidth, ← sampleOf_eq_setWidth]
  rfl

/-- XFORM completes with the value the transform gives (R127). -/
theorem exec_xform_of_ok {s : State} {c : Int} (h : operandTransform s = .ok c) :
    exec .xform s = .next (setRes s (bits32 c)) := by
  rw [exec_xform, finish_of_ok h, signExtend_bits8 (transform_fits h)]

/-- XFORM ends in a contract violation exactly when the transform raises it (R127). -/
theorem exec_xform_fault {s : State} {r : Violation} :
    exec .xform s = .fault (.contractViolation r) ↔ operandTransform s = .error r := by
  rw [exec_xform, finish_fault]

/-- XFORM gives a next state only where the transform answers (R127). -/
theorem exec_xform_next {s t : State} (h : exec .xform s = .next t) :
    ∃ c, operandTransform s = .ok c ∧ t = setRes s (bits32 c) := by
  cases hc : operandTransform s with
  | error r => rw [exec_xform_fault.mpr hc] at h; cases h
  | ok c => rw [exec_xform_of_ok hc] at h; cases h; exact ⟨c, rfl, rfl⟩

end Sys2Proof.Machine
end

section
/-!
SUPPORT. The first element of a MULTIPLY that violates its contract (43_bulk.md R140; 60_exceptions.md R163): the unit it
stands in, and what that unit stops with.
-/
namespace Sys2Proof.Machine
open Sys2Proof

/-- The packed transform stops with the violation of the first lane, in the order 0 to 3, that has one (R135). -/
theorem packedTransform_firstError {p : Params} {a b : Word} {j : Nat} {r : Violation} (hj : j < 4)
    (hbefore : ∀ k, k < j → ∃ c, transform p (laneOf a k) (laneOf b k) = .ok c)
    (he : transform p (laneOf a j) (laneOf b j) = .error r) : packedTransform p a b = .error r := by
  have hok {k : Nat} (hk : k < j) : ∃ c, packedLane p a b k = .ok c :=
    packedLane_eq_transform p a b (show k < 4 by omega) ▸ hbefore k hk
  rw [← packedLane_eq_transform p a b hj] at he
  obtain rfl | rfl | rfl | rfl : j = 0 ∨ j = 1 ∨ j = 2 ∨ j = 3 := by omega
  · rw [packedTransform, he]
  · obtain ⟨c0, h0⟩ := hok (k := 0) (by decide)
    rw [packedTransform, h0, he]
  · obtain ⟨c0, h0⟩ := hok (k := 0) (by decide)
    obtain ⟨c1, h1⟩ := hok (k := 1) (by decide)
    rw [packedTransform, h0, h1, he]
  · obtain ⟨c0, h0⟩ := hok (k := 0) (by decide)
    obtain ⟨c1, h1⟩ := hok (k := 1) (by decide)
    obtain ⟨c2, h2⟩ := hok (k := 2) (by decide)
    rw [packedTransform, h0, h1, h2, he]

/-- A unit whose reads are not refused stops with the violation of its first element that has one (R135, R142, R143). -/
theorem unitBody_firstError {s : State} {m : Memory} {i j : Nat} {r : Violation} (hv : bulkViolation s = none)
    (hm : BulkKeeps s s.mem m) (hj : j < unitsOf s) (hr : unitReads s j) (hlo : unitStart s j ≤ i)
    (hhi : i < unitStart s j + unitSize s j)
    (hbefore : ∀ k, unitStart s j ≤ k → k < i → ∃ c, elementTransform s k = .ok c)
    (he : elementTransform s i = .error r) : unitBody s j m = .error (.contract r) := by
  have hin := unit_inside hj
  obtain ⟨h1, h2⟩ := hr
  unfold unitBody
  by_cases hg : j < groupsOf s
  · have hstart : unitStart s j = 4 * j := if_pos hg
    have hsize : unitSize s j = 4 := if_pos hg
    rw [hstart, hsize] at h1 h2 hhi hin
    rw [hstart] at hlo hbefore
    obtain ⟨l, rfl⟩ := Nat.exists_eq_add_of_le hlo
    have hl : l < 4 := by omega
    have hpack : packedTransform s.params (memRead m (src1Of s + 4 * j) 4) (memRead m (src2Of s + 4 * j) 4) = .error r :=
      packedTransform_firstError hl
        (fun k hk => transform_lane hv hm (show k < 4 by omega) hin ▸ hbefore (4 * j + k) (by omega) (by omega))
        ((transform_lane hv hm hl hin).trans he)
    rw [if_pos hg]
    simp [packedGroup, portRead, h1, h2, hpack]
  · have hsize : unitSize s j = 1 := if_neg hg
    rw [hsize] at h1 h2 hhi hin
    obtain rfl : i = unitStart s j := by omega
    obtain ⟨hsrc1, hsrc2⟩ := inputs_kept hv hm (show unitStart s j < countOf s by omega)
    rw [elementTransform, ← hsrc1, ← hsrc2, ← memRead_one, ← memRead_one] at he
    rw [if_neg hg]
    simp [scalarElement, portRead, h1, h2, he]

/-- Every element of a MULTIPLY stands in one of its units (R141). -/
theorem unit_of_element {s : State} {i : Nat} (h : i < countOf s) :
    ∃ j, j < unitsOf s ∧ unitStart s j ≤ i ∧ i < unitStart s j + unitSize s j := by
  by_cases hi : i < 4 * groupsOf s
  · refine ⟨i / 4, ?_⟩
    have hg : i / 4 < groupsOf s := by omega
    rw [unitsOf, unitStart, unitSize, if_pos hg, if_pos hg]
    omega
  · refine ⟨groupsOf s + (i - 4 * groupsOf s), ?_⟩
    have hg : ¬ groupsOf s + (i - 4 * groupsOf s) < groupsOf s := by omega
    rw [unitsOf, unitStart, unitSize, if_neg hg, if_neg hg]
    omega

/-- A unit ends where, or before, a later one starts (R140). -/
theorem unit_before {s : State} {k j : Nat} (h : k < j) : unitStart s k + unitSize s k ≤ unitStart s j := by
  unfold unitStart unitSize
  split <;> split <;> omega

/-- Where the platform refuses no access of a MULTIPLY it refuses none of a unit (R55). -/
theorem unit_of_portOpen {s : State} {j : Nat} (h : portOpen s = true) (hj : j < unitsOf s) :
    unitReads s j ∧ writeRefused s.cfg (dstOf s + unitStart s j) (unitSize s j) = false := by
  have hin := unit_inside hj
  simp only [portOpen, Bool.not_eq_true', Bool.or_eq_false_iff] at h
  obtain ⟨⟨h1, h2⟩, h3⟩ := h
  have hunit {kind : RegionKind} {a : Nat} (ha : mapMeets s.cfg kind a (countOf s) = false) :
      mapMeets s.cfg kind (a + unitStart s j) (unitSize s j) = false :=
    mapMeets_mono (by omega) (by omega) ha
  exact ⟨⟨hunit h1, hunit h2⟩, hunit h3⟩

/-- A MULTIPLY whose checks pass, whose units before `j` complete, and whose unit `j` reads its inputs, ends in the violation of
that unit's first element that has one (R140, R163). -/
theorem execMultiply_firstError {s : State} {i j : Nat} {r : Violation} (hn : countOf s ≠ 0) (hv : bulkViolation s = none)
    (he : elementTransform s i = .error r) (hj : j < unitsOf s) (hunits : ∀ k, k < j → unitCompletes s k)
    (hr : unitReads s j) (hlo : unitStart s j ≤ i) (hhi : i < unitStart s j + unitSize s j)
    (hbefore : ∀ k, unitStart s j ≤ k → k < i → ∃ c, elementTransform s k = .ok c) :
    execMultiply s = .fault (.contractViolation r) :=
  execMultiply_fault.mpr <|
    bulkResult_stops hn hv hj (fun k _ hk hm => unitBody_completes hv hm (by omega) (hunits k hk))
      fun _ hm => unitBody_firstError hv hm hj hr hlo hhi hbefore he

end Sys2Proof.Machine
end

section
/-!
SUPPORT. The statements of 41_element.md, with that of the packed offset add (42_packed.md) and of the first failing element
(43_bulk.md), each from the lemmas above.
-/
namespace Sys2Proof.Machine
open Sys2Proof

/-- Settles O39: the corrector overflows where the sum does, and a sample is too small to bring that about alone. -/
theorem correctAddsTheOffset : Obligations.CorrectAddsTheOffset := by
  intro s
  rw [exec_correct, finish_fault, correct_error, fits32_eq_false_iff]
  refine ⟨fun hlo hhi => ?_, fun h => ⟨h, rfl⟩, fun ⟨h, _⟩ => ?_⟩
  · exact finish_of_ok (correct_ok.mpr ⟨(fits32_iff_pow _).mpr ⟨hlo, hhi⟩, rfl⟩)
  · have hsample := (fits8_iff _).mp (sample_fits (s.opa.setWidth 8))
    omega

/-- Settles O40: between registers the clamp gives one of the three registers. -/
theorem clampBoundsTheValue : Obligations.ClampBoundsTheValue := by
  intro s
  rw [exec_clamp]
  refine ⟨fun h => ?_, fun h => finish_fault.mpr (if_pos h)⟩
  rw [finish_of_ok (clamp_ok.mpr ⟨h, rfl⟩), bits32_clampTo h]
  rfl

/-- Settles O41: the narrower by its low byte, the transform by its range. -/
theorem narrowKeepsTheLowByte : Obligations.NarrowKeepsTheLowByte :=
  ⟨fun s => ⟨narrow s.opa, rfl, toInt_narrow s.opa, fun hlo hhi => narrow_of_fits ((fits8_iff _).mpr ⟨hlo, hhi⟩)⟩,
    fun _ _ _ _ h => toInt_bits8 (transform_fits h), fun _ => decode_encode (i := .narrow) rfl⟩

/-- Settles O42: the hypotheses are R126's preconditions, the one on the shift by the rescaler's answer. -/
theorem xformComputesTheTransform : Obligations.XformComputesTheTransform := by
  intro s t ha1 ha2 hb1 hb2 hc hd1 hd2 ht hlo hhi
  have hparams : paramViolation s.params = none :=
    (paramViolation_none _).mpr ⟨(fits8_iff _).mpr ⟨ha1, ha2⟩, (fits8_iff _).mpr ⟨hb1, hb2⟩, hc, hd1, hd2,
      shift_of_rescale_ok ht⟩
  exact exec_xform_of_ok (transform_ok.mpr ⟨hparams, t, ht, (fits32_iff_pow _).mpr ⟨hlo, hhi⟩, rfl⟩)

/-- Settles O43: (a) to (e) are the rows of the check on the parameters, (f) and (g) what follows the rescaler. -/
theorem xformReportsTheFirstFailingPrecondition : Obligations.XformReportsTheFirstFailingPrecondition := by
  intro s i1 i2 lo hi sh q stops a b c d e f g
  have hstops {r : Violation} (h : operandTransform s = .error r) : stops r := exec_xform_fault.mpr h
  have hparam {r : Violation} (h : paramViolation s.params = some r) : stops r := hstops (transform_of_paramViolation h)
  have hparams (ha : a) (hb : b) (hc : c) (hd : d) (he : e) : paramViolation s.params = none :=
    (paramViolation_none _).mpr ⟨(fits8_iff _).mpr ha, (fits8_iff _).mpr hb, hc, hd.1, hd.2, he⟩
  have hno {v : Int} (h : ¬ (-128 ≤ v ∧ v ≤ 127)) : fits8 v = false := by
    rwa [← Bool.not_eq_true, fits8_iff]
  have hno32 {v : Int} (h : ¬ (-2 ^ 31 ≤ v ∧ v ≤ 2 ^ 31 - 1)) : fits32 v = false := by
    rwa [← Bool.not_eq_true, fits32_iff_pow]
  refine ⟨fun ha => ?_, fun ha hb => ?_, fun ha hb hc => ?_, fun ha hb hc hd => ?_, fun ha hb hc hd he => ?_,
    fun ha hb hc hd he hf => ?_, fun ha hb hc hd he hf hg => ?_, fun ha hb hc hd he hf hg => ?_⟩
  · exact hparam (paramViolation_in1Off (hno ha))
  · exact hparam (paramViolation_in2Off ((fits8_iff _).mpr ha) (hno hb))
  · exact hparam (paramViolation_bounds ((fits8_iff _).mpr ha) ((fits8_iff _).mpr hb) (not_le.mp hc))
  · exact hparam (paramViolation_clampRange ((fits8_iff _).mpr ha) ((fits8_iff _).mpr hb) hc hd)
  · exact hparam (paramViolation_shiftRange ((fits8_iff _).mpr ha) ((fits8_iff _).mpr hb) hc hd he)
  · obtain ⟨hneg, hout⟩ := Classical.not_imp.mp hf
    exact hstops (transform_of_rescale_error (hparams ha hb hc hd he)
      (rdpot_shiftOverflow_iff.mpr ⟨he.1, hneg, hno32 hout⟩))
  · obtain ⟨t, hg⟩ := not_forall.mp hg
    obtain ⟨ht, hout⟩ := Classical.not_imp.mp hg
    exact hstops (transform_outOffsetOverflow (hparams ha hb hc hd he) ht (hno32 hout))
  · obtain ⟨t, ht⟩ := rdpot_completes he fun hneg => (fits32_iff_pow _).mpr (hf hneg)
    exact ⟨_, exec_xform_of_ok
      (transform_ok.mpr ⟨hparams ha hb hc hd he, t, ht, (fits32_iff_pow _).mpr (hg t ht), rfl⟩)⟩

/-- Settles O44: the clamp bounds the value, and the word of RES reads back as it. -/
theorem transformStaysInTheClampRange : Obligations.TransformStaysInTheClampRange := by
  refine ⟨fun p x y c h => transform_bounds h, fun s t h => ?_⟩
  obtain ⟨c, hc, rfl⟩ := exec_xform_next h
  have hfits := (fits8_iff _).mp (transform_fits hc)
  have hres : (bits32 c).toInt = c := sintOf_bits32 ((fits32_iff _).mpr (by omega))
  rw [setRes_res, hres]
  exact transform_bounds hc

/-- Settles O46, by the sum of a lane. -/
theorem packedOffsetAddIsExact : Obligations.PackedOffsetAddIsExact :=
  fun w _ _ hj hlo hhi => toInt_laneSum w ((fits8_iff _).mpr ⟨hlo, hhi⟩) hj

/-- Settles O54: the element stands in one of the units, and with the port open each unit before that one completes. -/
theorem multiplyReportsTheFirstFailingElement : Obligations.MultiplyReportsTheFirstFailingElement := by
  intro s i r hn hv he
  refine ⟨fun hport hi hbefore => ?_, fun j => execMultiply_firstError (countOf_ne_zero hn) hv he⟩
  obtain ⟨j, hj, hlo, hhi⟩ := unit_of_element hi
  have hunits (k : Nat) (hk : k < j) : unitCompletes s k := by
    obtain ⟨hreads, hwrite⟩ := unit_of_portOpen hport (show k < unitsOf s by omega)
    have hend := unit_before (s := s) hk
    exact ⟨hreads, fun l _ hl => hbefore l (by omega), hwrite⟩
  exact execMultiply_firstError (countOf_ne_zero hn) hv he hj hunits (unit_of_portOpen hport hj).1 hlo hhi
    fun k _ hk => hbefore k hk

end Sys2Proof.Machine
end

section
/-!
SUPPORT. The statements of 42_packed.md about XFORM4: it packs the four scalar results, or stops with the violation of the first
lane that has one.
-/
namespace Sys2Proof.Machine
open Sys2Proof

/-- Lane `j` of four packed bytes is byte `j` (R134). -/
theorem laneOf_pack (byte : Nat → Byte) {j : Nat} (hj : j < 4) :
    laneOf (byte 3 ++ byte 2 ++ byte 1 ++ byte 0) j = byte j := by
  obtain rfl | rfl | rfl | rfl : j = 0 ∨ j = 1 ∨ j = 2 ∨ j = 3 := by omega
  · exact BitVec.extractLsb'_append_eq_right
  · exact (BitVec.extractLsb'_append_eq_of_le (by decide)).trans BitVec.extractLsb'_append_eq_right
  · exact (BitVec.extractLsb'_append_eq_of_le (by decide)).trans
      ((BitVec.extractLsb'_append_eq_of_le (by decide)).trans BitVec.extractLsb'_append_eq_right)
  · exact (BitVec.extractLsb'_append_eq_of_le (by decide)).trans
      ((BitVec.extractLsb'_append_eq_of_le (by decide)).trans BitVec.extractLsb'_append_eq_left)

/-- Where the scalar transform gives `c j` in each lane `j`, the packed transform packs their low bytes (R134, R136). -/
theorem packedTransform_of_lanes {p : Params} {a b : Word} {c : Nat → Int}
    (h : ∀ j, j < 4 → transform p (laneOf a j) (laneOf b j) = .ok (c j)) :
    packedTransform p a b = .ok (bits8 (c 3) ++ bits8 (c 2) ++ bits8 (c 1) ++ bits8 (c 0)) := by
  refine packedTransform_ok.mpr ⟨fun j hj => ⟨c j, h j hj⟩, ?_⟩
  obtain ⟨h0, h1, h2, h3⟩ := forall_lt_four.mp h
  rw [h0, h1, h2, h3]
  rfl

/-- With the packed datapath XFORM4 ends as the packed transform of OPA and OPB does (R135). -/
theorem exec_xform4 {s : State} (hp : s.cfg.hasPacked = true) :
    exec .xform4 s = finish s (packedTransform s.params s.opa s.opb) :=
  if_pos hp

/-- Settles O47: the packed word of the scalar results, and what each of its lanes holds. -/
theorem packedPathEqualsScalarPath : Obligations.PackedPathEqualsScalarPath := by
  intro s c hp hlanes
  refine ⟨bits8 (c 3) ++ bits8 (c 2) ++ bits8 (c 1) ++ bits8 (c 0), ?_, fun j hj => laneOf_pack (fun k => bits8 (c k)) hj⟩
  rw [exec_xform4 hp, packedTransform_of_lanes hlanes]
  rfl

/-- Settles O48, by the first failing lane of the packed transform. -/
theorem xform4ReportsTheFirstFailingLane : Obligations.Xform4ReportsTheFirstFailingLane := by
  intro s j r hp hj hbefore he
  rw [exec_xform4 hp, packedTransform_firstError hj hbefore he]
  rfl

end Sys2Proof.Machine
end

section
/-!
SUPPORT. A MULTIPLY whose elements all complete (43_bulk.md R140-R145): what its results leave in memory, byte by byte.
-/
namespace Sys2Proof.Machine
open Sys2Proof

/-- Where the platform refuses no access of a MULTIPLY, an element whose transform answers completes (R55, R143). -/
theorem elementCompletes_of_portOpen {s : State} {i : Nat} {c : Int} (hport : portOpen s = true) (hi : i < countOf s)
    (hc : elementTransform s i = .ok c) : elementCompletes s i := by
  simp only [portOpen, readRefused, writeRefused, Bool.not_eq_true', Bool.or_eq_false_iff,
    mapMeets_eq_false _ _ _ (countOf s)] at hport
  obtain ⟨⟨hread1, hread2⟩, hwrite⟩ := hport
  exact ⟨hread1 i hi, hread2 i hi, hwrite i hi, c, hc⟩

/-- Below the first of the written results memory is as it was. -/
theorem read_writeResults_below (s : State) (m : Memory) (count : Nat) {start a : Nat} (h : a < dstOf s + start) :
    Memory.read (writeResults s count start m) a = Memory.read m a := by
  induction count generalizing start m with
  | zero => rfl
  | succ n ih => rw [writeResults, ih _ (by omega), Memory.read_write_other _ _ (by omega)]

/-- Output byte `i` is the result of element `i`, whatever stood there: no later result overwrites it (R145). -/
theorem read_writeResults {s : State} {m : Memory} (hm : Memory.wf m = true) {count start i : Nat} (hlo : start ≤ i)
    (hhi : i < start + count) : Memory.read (writeResults s count start m) (dstOf s + i) = resultByte s i := by
  induction count generalizing start m with
  | zero => omega
  | succ n ih =>
    rw [writeResults]
    rcases hlo.eq_or_lt with rfl | hlt
    · rw [read_writeResults_below _ _ _ (by omega), Memory.read_write_same hm]
    · exact ih (Memory.wf_write hm _ _) hlt (by omega)

/-- A MULTIPLY whose checks pass and whose elements all complete leaves their results, and RES 0 (R140, R145). -/
theorem execMultiply_of_elements {s : State} (hn : countOf s ≠ 0) (hv : bulkViolation s = none)
    (h : ∀ i, i < countOf s → elementCompletes s i) :
    execMultiply s = .next (setRes (putOutput s (writeResults s (countOf s) 0 s.mem)) 0) := by
  have hb : bulkResult s = .ok (writeResults s (countOf s) 0 s.mem) :=
    bulkResult_ok.mpr (.inr ⟨hn, hv, (bulkLoops_ok_iff hv).mpr ⟨h, rfl⟩⟩)
  rw [execMultiply, hb]

/-- A word with OP = 0x00 that is not zero has a reserved bit set (R71). -/
theorem rsvdField_ne_zero {w : Word} (hop : opField w = 0) (hw : w ≠ 0) : rsvdField w ≠ 0 := by
  intro hr
  apply hw
  rw [word_of_fields w, hr, hop]
  rfl

end Sys2Proof.Machine
end

section
/-!
SUPPORT. The statements of 43_bulk.md about MULTIPLY and NOP, each from the lemmas above.
-/
namespace Sys2Proof.Machine
open Sys2Proof

/-- Settles O53: every element completes, and what they write is read back byte by byte. -/
theorem multiplyTransformsEveryElement : Obligations.MultiplyTransformsEveryElement := by
  intro s c hwf hn hv hport hc
  have helements (i : Nat) (hi : i < countOf s) : elementCompletes s i :=
    elementCompletes_of_portOpen hport hi (hc i hi)
  obtain ⟨hframe, hkeepsWf, _⟩ := writeResults_keeps s s.mem (count := countOf s) (start := 0) (by omega)
  refine ⟨writeResults s (countOf s) 0 s.mem, execMultiply_of_elements (countOf_ne_zero hn) hv helements, hkeepsWf hwf,
    fun i hi => ?_, hframe⟩
  rw [read_writeResults hwf (Nat.zero_le i) (by omega), resultByte, hc i hi]
  rfl

/-- Settles O29: zero is the word of NOP, and any other word with its OP has a reserved bit set. -/
theorem nopChangesNothing : Obligations.NopChangesNothing :=
  ⟨fun _ => rfl, fun _ => decode_encode (i := .nop) rfl,
    fun _ _ hop hw => ⟨.reservedBits, decode_of_rsvd (rsvdField_ne_zero hop hw)⟩⟩

/-- Settles O50: with COUNT = 0 MULTIPLY reaches neither its checks nor its loops. -/
theorem multiplyOfNothing : Obligations.MultiplyOfNothing :=
  fun _ hcount => execMultiply_of_count_zero (congrArg BitVec.toNat hcount)

end Sys2Proof.Machine
end

section
/-!
SUPPORT. Errors (60_exceptions.md R160-R176): what an operation of the host does to the record of faults, how a command and an
operation can end, and the step of a malformed access.
-/
namespace Sys2Proof.Machine
open Sys2Proof

/-! The record of faults -/

/-- The record of faults of `t` is that of `s`, followed by at most one fault (R160). -/
def AddsAtMostOneFault (s t : State) : Prop := ∃ l, t.faults = s.faults ++ l ∧ l.length ≤ 1

theorem addsAtMostOneFault_of_eq {s t : State} (h : t.faults = s.faults) : AddsAtMostOneFault s t :=
  ⟨[], by simp [h], by simp⟩

theorem addsAtMostOneFault_of_append {s t : State} {f : Fault} (h : t.faults = s.faults ++ [f]) : AddsAtMostOneFault s t :=
  ⟨[f], h, le_refl 1⟩

/-- A command records a fault when MULTIPLY gets an ERROR response or XFORM4 has no datapath, and none otherwise. -/
theorem Executed.addsAtMostOneFault {s t : State} {i : Instr} (h : Executed s i t) : AddsAtMostOneFault s t := by
  cases h with
  | noDatapath => exact addsAtMostOneFault_of_append (enterError_faults ..)
  | aborted => exact addsAtMostOneFault_of_append (abortBulk_faults ..)
  | _ => exact addsAtMostOneFault_of_eq rfl

/-- A malformed access, an illegal word and a reset during MULTIPLY record one fault, a command what it does itself, and no
other operation records any (R160). -/
theorem Performed.addsAtMostOneFault {s t : State} {op : HostOp} (h : Performed s op t) : AddsAtMostOneFault s t := by
  cases h with
  | readError => exact addsAtMostOneFault_of_append (enterError_faults ..)
  | writeError => exact addsAtMostOneFault_of_append (enterError_faults ..)
  | illegal => exact addsAtMostOneFault_of_append (enterError_faults ..)
  | cut => exact addsAtMostOneFault_of_append (cutState_faults s)
  | command _ _ _ _ _ _ _ he => exact (exec_cases he).addsAtMostOneFault
  | _ => exact addsAtMostOneFault_of_eq (by simp)

/-- No fault recorded later means none recorded before (R187). -/
theorem AddsAtMostOneFault.good {s t : State} (h : AddsAtMostOneFault s t) (ht : t.good = true) : s.good = true := by
  obtain ⟨l, hl, _⟩ := h
  simp only [State.good, List.isEmpty_iff, hl, List.append_eq_nil_iff] at ht ⊢
  exact ht.1

/-! How a command and an operation can end -/

/-- The outcome is a next state or a contract violation. -/
def NextOrViolation (o : Host.Outcome State Fault Refusal) : Prop := (∃ t, o = .next t) ∨ ∃ r, o = violate r

theorem nextOrViolation_next (t : State) : NextOrViolation (.next t) := .inl ⟨t, rfl⟩

theorem nextOrViolation_violate (r : Violation) : NextOrViolation (violate r) := .inr ⟨r, rfl⟩

theorem NextOrViolation.not_refused {r : Refusal} : ¬ NextOrViolation (.refused r) := by
  rintro (⟨t, ht⟩ | ⟨v, hv⟩)
  · cases ht
  · cases hv

theorem NextOrViolation.fault {f : Fault} (h : NextOrViolation (.fault f)) : ∃ r, f = .contractViolation r := by
  obtain ⟨t, ht⟩ | ⟨r, hr⟩ := h
  · cases ht
  · cases hr
    exact ⟨r, rfl⟩

theorem finish_nextOrViolation (s : State) (r : Except Violation Word) : NextOrViolation (finish s r) := by
  cases r with
  | ok v => exact nextOrViolation_next _
  | error e => exact nextOrViolation_violate e

theorem execXform4_nextOrViolation (s : State) : NextOrViolation (execXform4 s) := by
  unfold execXform4
  split
  · exact finish_nextOrViolation s _
  · exact nextOrViolation_next _

theorem execMultiply_nextOrViolation (s : State) : NextOrViolation (execMultiply s) := by
  obtain ⟨m, _, he⟩ | ⟨r, _, he⟩ | ⟨a, _, he⟩ := execMultiply_cases s
  · exact .inl ⟨_, he⟩
  · exact .inr ⟨r, he⟩
  · exact .inl ⟨_, he⟩

/-- No command is refused, and none ends in a fault but a contract violation (R160, R171; log 4, log 5). -/
theorem exec_nextOrViolation (i : Instr) (s : State) : NextOrViolation (exec i s) := by
  cases i with
  | nop => exact nextOrViolation_next s
  | xform4 => exact execXform4_nextOrViolation s
  | multiply => exact execMultiply_nextOrViolation s
  | dhmul => exact finish_nextOrViolation s (.ok _)
  | narrow => exact finish_nextOrViolation s (.ok _)
  | _ => exact finish_nextOrViolation s _

theorem runCommand_nextOrViolation (s : State) (w : Word) : NextOrViolation (runCommand s w) := by
  unfold runCommand
  split
  · exact exec_nextOrViolation _ s
  · exact nextOrViolation_next _

theorem writeOffset_nextOrViolation (s : State) (off : Byte) (w : Word) : NextOrViolation (writeOffset s off w) := by
  unfold writeOffset
  split
  · exact nextOrViolation_next _
  · exact runCommand_nextOrViolation _ w
  · exact nextOrViolation_next _

theorem cutMultiply_nextOrViolation (s : State) : NextOrViolation (cutMultiply s) := by
  unfold cutMultiply
  split
  · exact nextOrViolation_violate _
  · exact nextOrViolation_next _
  · exact nextOrViolation_next _

/-- A register read in the window gives a next state: the only other outcome is the refusal outside it (log 13). -/
theorem hostRegRead_ends (s : State) (addr width : Nat) :
    NextOrViolation (hostRegRead s addr width) ∨ ∃ r, hostRegRead s addr width = .refused r := by
  unfold hostRegRead
  split
  · exact .inr ⟨_, rfl⟩
  · refine .inl ?_
    split
    · exact nextOrViolation_next _
    · split <;> exact nextOrViolation_next _

/-- A register write in the window ends as the write at its offset can: the only other outcome is the refusal outside it
(log 13). -/
theorem hostRegWrite_ends (s : State) (addr width : Nat) (w : Word) :
    NextOrViolation (hostRegWrite s addr width w) ∨ ∃ r, hostRegWrite s addr width w = .refused r := by
  unfold hostRegWrite
  split
  · exact .inr ⟨_, rfl⟩
  · refine .inl ?_
    split
    · exact nextOrViolation_next _
    · split
      · exact writeOffset_nextOrViolation s _ w
      · exact nextOrViolation_next _

/-- An operation of the host gives a next state, ends in a contract violation, or is refused. -/
theorem perform_ends (op : HostOp) (s : State) : NextOrViolation (perform op s) ∨ ∃ r, perform op s = .refused r := by
  cases op with
  | regRead addr width => exact hostRegRead_ends s addr width
  | regWrite addr width w => exact hostRegWrite_ends s addr width w
  | memStore a b =>
    simp only [perform, hostStore]
    split
    · exact .inr ⟨_, rfl⟩
    · exact .inl (nextOrViolation_next _)
  | memLoad a =>
    simp only [perform, hostLoad]
    split
    · exact .inr ⟨_, rfl⟩
    · exact .inl (nextOrViolation_next _)
  | multiplyCutByReset =>
    refine .inl ?_
    simp only [perform]
    split
    · exact nextOrViolation_next _
    · exact cutMultiply_nextOrViolation s
  | _ => exact .inl (nextOrViolation_next _)

/-- The only fault an operation of the host ends in is a contract violation (R160, R171). -/
theorem perform_fault {op : HostOp} {s : State} {f : Fault} (h : perform op s = .fault f) :
    ∃ r, f = .contractViolation r := by
  obtain hends | ⟨r, hr⟩ := perform_ends op s
  · rw [h] at hends
    exact hends.fault
  · rw [h] at hr
    cases hr

/-! The idle step and the malformed access -/

theorem step_of_idle {s : State} (h : s.pending = []) : step s = .next s := by
  simp [step, h]

/-- An access that is not 32 bits wide, or not at a multiple of 4, is not legal (R25). -/
theorem accessLegal_of_malformed {width : Nat} {off : Byte} (h : width ≠ 32 ∨ off.toNat % 4 ≠ 0) :
    accessLegal width off = false := by
  simp only [accessLegal, Bool.and_eq_false_iff, decide_eq_false_iff_not]
  exact h.imp_right fun hoff hlow => hoff (by simpa using congrArg BitVec.toNat hlow)

/-- RegAccessError has no STATUS bit: entering it only records it (R165, R169). -/
theorem enterError_regAccessError (s : State) (off : Byte) :
    enterError s (.regAccessError off) = { s with faults := s.faults ++ [.regAccessError off] } := by
  have hstatus : s.status ||| statusBit (.regAccessError off) = s.status := BitVec.or_zero
  rw [enterError, hstatus]

section
variable {s : State} {rest : List HostOp} {off : Byte} {width : Nat} {w : Word} (hrst : s.rstLow = false)
include hrst

/-- The step of a malformed read answers ERROR with data 0 and enters the error (R169). -/
theorem step_malformedRead (hbad : width ≠ 32 ∨ off.toNat % 4 ≠ 0)
    (hpending : s.pending = .regRead (s.cfg.base + off.toNat) width :: rest) :
    step s = .next (enterError (complete (takeNext s rest) (.readData .error 0)) (.regAccessError off)) := by
  rw [step_of_pending hpending, ← takeNext_cfg s rest]
  simp only [perform, hostRegRead, windowOffset_base, takeNext_rstLow, hrst, Bool.false_eq_true, if_false,
    accessLegal_of_malformed hbad]

/-- The step of a malformed write answers ERROR and enters the error (R169). -/
theorem step_malformedWrite (hbad : width ≠ 32 ∨ off.toNat % 4 ≠ 0)
    (hpending : s.pending = .regWrite (s.cfg.base + off.toNat) width w :: rest) :
    step s = .next (enterError (complete (takeNext s rest) (.written .error)) (.regAccessError off)) := by
  rw [step_of_pending hpending, ← takeNext_cfg s rest]
  simp only [perform, hostRegWrite, windowOffset_base, takeNext_rstLow, hrst, Bool.false_eq_true, if_false,
    accessLegal_of_malformed hbad]

end

/-- A write at a reserved offset is only answered (R26). -/
theorem writeOffset_of_reserved {off : Byte} (h : regAt off = none) (s : State) (w : Word) :
    writeOffset s off w = .next (complete s (.written .okay)) := by
  simp only [writeOffset, h]

end Sys2Proof.Machine
end

section
/-!
SUPPORT. The statements of 60_exceptions.md about the record of faults, the ends of a step and malformed accesses, each from the
lemmas above.
-/
namespace Sys2Proof.Machine
open Sys2Proof

/-- Settles O15: by what each operation of the host does to the record of faults. -/
theorem faultRecordOnlyGrows : Obligations.FaultRecordOnlyGrows := by
  intro s t hstep
  have hadds : AddsAtMostOneFault s t := by
    rcases step_next hstep with ⟨_, rfl⟩ | ⟨op, rest, _, hop⟩
    · exact addsAtMostOneFault_of_eq rfl
    · exact hop.addsAtMostOneFault (s := takeNext s rest)
  exact ⟨hadds, hadds.good⟩

/-- Settles O16: by how an operation of the host and a command can end. -/
theorem onlyContractViolationsStopTheMachine : Obligations.OnlyContractViolationsStopTheMachine := by
  refine ⟨fun s f hstep => ?_, fun i s r hexec => ?_⟩
  · rcases step_cases s with ⟨_, hidle⟩ | ⟨op, rest, _, hop⟩
    · rw [hidle] at hstep
      cases hstep
    · exact perform_fault (hop.symm.trans hstep)
  · exact NextOrViolation.not_refused (hexec ▸ exec_nextOrViolation i s)

/-- Settles O6: with no operation left, which the end of a run implies, the step performs none. -/
theorem idleStepChangesNothing : Obligations.IdleStepChangesNothing := by
  intro s
  refine ⟨step_of_idle, fun hended => step_of_idle ?_⟩
  simp only [State.ended, Bool.and_eq_true, List.isEmpty_iff] at hended
  exact hended.1

/-- Settles O7: a malformed access enters an error without a STATUS bit, and a legal one at a reserved offset is only
answered. -/
theorem malformedAccessGetsError : Obligations.MalformedAccessGetsError := by
  intro s rest off width w hrst
  refine ⟨fun hbad hpending => ?_, fun hbad hpending => ?_, fun hoff hnone => ⟨fun hpending => ?_, fun hpending => ?_⟩⟩
  · rw [step_malformedWrite hrst hbad hpending, enterError_regAccessError]
    rfl
  · rw [step_malformedRead hrst hbad hpending, enterError_regAccessError]
    rfl
  · exact ⟨_, step_legalRead hrst hoff hpending, rfl⟩
  · rw [step_legalWrite hrst hoff hpending, writeOffset_of_reserved hnone]
    exact ⟨_, rfl, rfl⟩

end Sys2Proof.Machine
end

section
/-!
SUPPORT. Reset (70_reset_and_hazards.md R178, R179) and the end of a run (R187): the registers of a state at reset, the step of
each reset operation and of an access while rst_n is 0, and what an operation of the host does to the mark of an unanswered
access.
-/
namespace Sys2Proof.Machine
open Sys2Proof

/-! The registers at reset -/

theorem readReg_resetRegs (s : State) (r : RegName) : readReg (resetRegs s) r = resetValue s.cfg r := by
  have hsame : readReg (resetRegs s) r = readReg (State.resetOf s.cfg) r := by
    cases r <;> rfl
  exact hsame.trans (readReg_resetOf s.cfg r)

/-- A state that a reset of the registers would not change holds every reset value (R45). -/
theorem readReg_of_resetRegs_eq {s : State} (h : resetRegs s = s) (r : RegName) : readReg s r = resetValue s.cfg r :=
  h ▸ readReg_resetRegs s r

/-- rst_n rises from 0: the registers are reset (R178). -/
theorem riseReset_of_low {s : State} (h : s.rstLow = true) :
    riseReset s = { resetRegs s with rstLow := false, answer := none } :=
  if_pos h

theorem resetRegs_riseReset {s : State} (h : s.rstLow = true) : resetRegs (riseReset s) = riseReset s := by
  rw [riseReset_of_low h]
  rfl

theorem resetRegs_cutState (s : State) : resetRegs (cutState s) = cutState s := rfl

/-! The step of a reset operation, and of an access while rst_n is 0 -/

/-- A MULTIPLY reads nothing of the host's list of operations. -/
theorem bulkResult_takeNext (s : State) (rest : List HostOp) : bulkResult (takeNext s rest) = bulkResult s := rfl

/-- A MULTIPLY that breaks no contract is cut, whether or not a memory access would have failed (R179). -/
theorem cutMultiply_of_noViolation {s : State} (h : ∀ r, bulkResult s ≠ .error (.contract r)) :
    cutMultiply s = .next (cutState s) := by
  unfold cutMultiply
  split
  · next r hr => exact absurd hr (h r)
  · rfl
  · rfl

section
variable {s : State} {rest : List HostOp}

theorem step_assertReset (hpending : s.pending = .assertReset :: rest) : step s = .next (fallReset (takeNext s rest)) :=
  step_of_pending hpending

theorem step_releaseReset (hpending : s.pending = .releaseReset :: rest) : step s = .next (riseReset (takeNext s rest)) :=
  step_of_pending hpending

theorem step_multiplyCutByReset (hrst : s.rstLow = false) (hpending : s.pending = .multiplyCutByReset :: rest)
    (hv : ∀ r, bulkResult s ≠ .error (.contract r)) : step s = .next (cutState (takeNext s rest)) := by
  rw [step_of_pending hpending, perform, takeNext_rstLow, hrst]
  exact cutMultiply_of_noViolation (s := takeNext s rest) hv

/-- A read while rst_n is 0 is dropped (R178, log 9). -/
theorem step_readWhileLow {off : Byte} {width : Nat} (hrst : s.rstLow = true)
    (hpending : s.pending = .regRead (s.cfg.base + off.toNat) width :: rest) :
    step s = .next (unanswered (takeNext s rest)) := by
  rw [step_of_pending hpending, ← takeNext_cfg s rest]
  simp only [perform, hostRegRead, windowOffset_base, takeNext_rstLow, hrst, if_true]

/-- A write while rst_n is 0 is dropped (R178, log 9). -/
theorem step_writeWhileLow {off : Byte} {width : Nat} {w : Word} (hrst : s.rstLow = true)
    (hpending : s.pending = .regWrite (s.cfg.base + off.toNat) width w :: rest) :
    step s = .next (unanswered (takeNext s rest)) := by
  rw [step_of_pending hpending, ← takeNext_cfg s rest]
  simp only [perform, hostRegWrite, windowOffset_base, takeNext_rstLow, hrst, if_true]

end

/-! The answer to an access and the mark of an unanswered one -/

/-- An access is answered exactly when rst_n is high and no reset cuts it (R178, R179). -/
theorem isAnsweredAccess_iff {s : State} {op : HostOp} (h : isAccess op = true) :
    isAnsweredAccess s op ↔ s.rstLow = false ∧ op ≠ .multiplyCutByReset := by
  cases op with
  | regRead => simp [isAnsweredAccess]
  | regWrite => simp [isAnsweredAccess]
  | multiplyCutByReset => simp [isAnsweredAccess]
  | _ => cases h

theorem Executed.lost_eq {s t : State} {i : Instr} (h : Executed s i t) : t.lost = s.lost := by
  cases h <;> rfl

theorem Executed.pending_eq {s t : State} {i : Instr} (h : Executed s i t) : t.pending = s.pending := by
  cases h <;> rfl

section
variable {s t : State} {op : HostOp}

/-- No operation adds to the host's list or takes from it. -/
theorem Performed.pending_eq (h : Performed s op t) : t.pending = s.pending := by
  cases h with
  | command _ _ _ _ _ _ _ he => exact (exec_cases he).pending_eq
  | _ => simp

/-- An access either gets an answer and clears the mark, or gets none and sets it (log 22). -/
theorem Performed.access_cases (h : Performed s op t) (hop : isAccess op = true) :
    isAnsweredAccess s op ∧ (∃ a, t.answer = some a) ∧ t.lost = false ∨
      ¬ isAnsweredAccess s op ∧ t.answer = none ∧ t.lost = true := by
  revert hop
  cases h with
  | command _ _ _ _ hrst _ _ he =>
    have hx := exec_cases he
    exact fun _ => .inl ⟨⟨.inr ⟨_, _, _, rfl⟩, hrst⟩, ⟨_, hx.answer_eq⟩, hx.lost_eq⟩
  | _ => simp [isAccess, isAnsweredAccess, *]

/-- An operation on memory or on rst_n keeps the mark (log 22). -/
theorem Performed.lost_of_not_access (h : Performed s op t) (hop : isAccess op = false) : t.lost = s.lost := by
  revert hop
  cases h with
  | command => exact nofun
  | _ => simp [isAccess]

end

/-! The end of a run -/

theorem ended_of_pending_nil {s : State} (h : s.pending = []) : s.ended = !s.lost := by
  simp [State.ended, h]

theorem endedGood_iff (s : State) : s.endedGood = true ↔ s.ended = true ∧ s.faults = [] := by
  simp [State.endedGood, State.good]

/-- The step of the host's last operation performs it and leaves none (R187). -/
theorem step_last {s t : State} {op : HostOp} (hpending : s.pending = [op]) (hstep : step s = .next t) :
    Performed (takeNext s []) op t ∧ t.pending = [] := by
  have hop : Performed (takeNext s []) op t := perform_cases ((step_of_pending hpending).symm.trans hstep)
  exact ⟨hop, hop.pending_eq⟩

end Sys2Proof.Machine
end

section
/-!
SUPPORT. The statements of 70_reset_and_hazards.md, each from the lemmas above.
-/
namespace Sys2Proof.Machine
open Sys2Proof

/-- Settles O24: the step leaves the cut state, whose registers are at reset and whose memory is free in the output range
alone. -/
theorem resetDuringMultiply : Obligations.ResetDuringMultiply := by
  intro s rest hrst hpending hv
  refine ⟨_, step_multiplyCutByReset hrst hpending hv, by simp, by simp, by simp, by simp, ?_, fun a ha => ?_⟩
  · exact readReg_of_resetRegs_eq (resetRegs_cutState (takeNext s rest))
  · exact memFree_read_outside s.mem _ s.fresh _ ha

/-- Settles O60: the last operation leaves nothing to do, so the run has ended exactly when the mark of an unanswered access is
clear. -/
theorem runEndsWhenItsLastAccessIsAnswered : Obligations.RunEndsWhenItsLastAccessIsAnswered := by
  intro s t op hpending hstep
  obtain ⟨hop, hnil⟩ := step_last hpending hstep
  have hended : t.ended = !t.lost := ended_of_pending_nil hnil
  refine ⟨fun haccess => ?_, fun hother => ?_, endedGood_iff t⟩
  · have hwhen : isAnsweredAccess (takeNext s []) op ↔ s.rstLow = false ∧ op ≠ .multiplyCutByReset :=
      isAnsweredAccess_iff haccess
    rw [← hwhen]
    obtain ⟨hans, ⟨a, hanswer⟩, hlost⟩ | ⟨hans, hanswer, hlost⟩ := hop.access_cases haccess
    · simp [hended, hlost, hanswer, hans]
    · simp [hended, hlost, hanswer, hans]
  · rw [hended, hop.lost_of_not_access hother, takeNext_lost]

/-- Settles O23: the step of each reset operation, and of a read and a write while rst_n is 0. -/
theorem releasedResetLeavesResetValues : Obligations.ReleasedResetLeavesResetValues := by
  refine ⟨fun s rest hrst hpending => ?_, fun s rest hpending => ?_, fun s rest off width w hrst hpending => ?_⟩
  · have hlow : (takeNext s rest).rstLow = true := hrst
    refine ⟨_, step_releaseReset hpending, by rw [riseReset_of_low hlow], by simp, by simp, fun r => ?_⟩
    simpa using readReg_of_resetRegs_eq (resetRegs_riseReset hlow) r
  · exact ⟨_, step_assertReset hpending, by simp, by simp, by simp⟩
  · rcases hpending with hpending | hpending
    · exact step_readWhileLow hrst hpending
    · exact step_writeWhileLow hrst hpending

end Sys2Proof.Machine
end
